-- ==== Sys2Proof/Config.lean ====
section
/-! DEFINITION. What an implementation fixes: the sizes of 00_scope.md R6 that shape the state, and the free values. The
whole configuration record, these sizes among its fields, is `config` of Machine/Configuration.lean. -/

namespace Sys2Proof.Config

/-- `W`, the width of every datapath value (00_scope.md R6, R7, D2). -/
@[simp] abbrev wordBits : Nat := 32

/-- `MAX_NCH`, the size of every per-channel array (00_scope.md R6, D3). UNVERIFIED against the source; the spec's value. -/
abbrev maxNch : Nat := 6

/-- `L`, filter history length and coefficient count (00_scope.md R6, D5). UNVERIFIED against the source; the spec's value. -/
abbrev taps : Nat := 8

/-- `KEY_LEN`, the key material's size in bytes, `= L` (00_scope.md R6, D13). UNVERIFIED against the source; the spec's value. -/
abbrev keyLen : Nat := taps

/-- How many words of state a channel's `FilterStep` keeps beside `C` and `H` (42_hybrid_filter.md R147,
93_implementation_defined.md U9): none for the `FilterStep` of R142; a `FilterStep` with a separate sign vector, R147 (iii),
sets it to that vector's size. Log entry 15. -/
abbrev filterExtra : Nat := 0

/-- `FLEN_BITS`, the width of the frame-length register (00_scope.md R6, D16). -/
@[simp] abbrev flenBits : Nat := 28

/-- FREE VALUE. What an element that a reset leaves "unspecified" holds afterwards (10_state.md R45,
46_config_control.md R188): one value per index, and nothing is known of any. Log entry 3. -/
opaque freeWord : Nat → BitVec wordBits

/-- FREE VALUE. What the `serial`-th register read returns at map index `ix` for an element that FRAME_INIT has not
written since the last reset: "any value, not necessarily the same value twice" (10_state.md R42). Log entry 4. -/
opaque freeRead : (serial ix : Nat) → BitVec wordBits

end Sys2Proof.Config
end

