-- ==== Sys2Proof/Word.lean ====
section
/-! DEFINITION. The two word types of the datapath (00_scope.md R7, 20_memory.md R60). -/

namespace Sys2Proof

/-- A datapath value: `W` bits, two's complement, every operation modulo `2^W` (00_scope.md R6, R7). -/
abbrev Word := BitVec Config.wordBits

/-- A byte of `IN`, `PCM` or `RAWOUT` (20_memory.md R60). -/
abbrev Byte := BitVec 8

end Sys2Proof
end

