-- ==== Sys2Proof/Syntax.lean ====
section
/-! DEFINITION. The command set: one constructor per row of spec/opcode_table.json (30_encoding.md R82). -/

namespace Sys2Proof

/-- The fourteen commands. An operand is the number written in the command's text (30_encoding.md R86);
`Instr.wellFormed` says whether it fits its field. -/
inductive Instr where
  /-- `NOP`, 46_config_control.md R180. -/
  | nop
  /-- `CFG_NCH n`, 46_config_control.md R181. -/
  | cfgNch (n : Nat)
  /-- `CFG_BPS b`, 46_config_control.md R182. -/
  | cfgBps (b : Nat)
  /-- `CFG_FMT f`, 46_config_control.md R183. -/
  | cfgFmt (f : Nat)
  /-- `CFG_KEY i, d`, 46_config_control.md R184. -/
  | cfgKey (i d : Nat)
  /-- `CFG_FLEN n`, 46_config_control.md R185. -/
  | cfgFlen (n : Nat)
  /-- `FRAME_INIT`, 46_config_control.md R186. -/
  | frameInit
  /-- `DEC_SAMPLE`, 45_frame_sequencing.md R166. -/
  | decSample
  /-- `DEC_STEP n`, 45_frame_sequencing.md R167. -/
  | decStep (n : Nat)
  /-- `DEC_FRAME`, 45_frame_sequencing.md R168. -/
  | decFrame
  /-- `VERIFY`, 41_checksum.md R132. -/
  | verify
  /-- `RAW n`, 46_config_control.md R189. -/
  | raw (n : Nat)
  /-- `RD_RESET`, 46_config_control.md R187. -/
  | rdReset
  /-- `SOFT_RESET`, 46_config_control.md R188. -/
  | softReset
  deriving DecidableEq, Repr

/-- The mnemonic column of 30_encoding.md R82. -/
def Instr.mnemonic : Instr → String
  | .nop => "NOP"
  | .cfgNch _ => "CFG_NCH"
  | .cfgBps _ => "CFG_BPS"
  | .cfgFmt _ => "CFG_FMT"
  | .cfgKey _ _ => "CFG_KEY"
  | .cfgFlen _ => "CFG_FLEN"
  | .frameInit => "FRAME_INIT"
  | .decSample => "DEC_SAMPLE"
  | .decStep _ => "DEC_STEP"
  | .decFrame => "DEC_FRAME"
  | .verify => "VERIFY"
  | .raw _ => "RAW"
  | .rdReset => "RD_RESET"
  | .softReset => "SOFT_RESET"

/-- The op column of 30_encoding.md R82. -/
def Instr.opcode : Instr → Nat
  | .nop => 0x0
  | .cfgNch _ => 0x1
  | .cfgBps _ => 0x2
  | .cfgFmt _ => 0x3
  | .cfgKey _ _ => 0x4
  | .cfgFlen _ => 0x5
  | .frameInit => 0x6
  | .decSample => 0x7
  | .decStep _ => 0x8
  | .decFrame => 0x9
  | .verify => 0xA
  | .raw _ => 0xB
  | .rdReset => 0xC
  | .softReset => 0xF

end Sys2Proof
end

