-- ==== Sys2Proof/WellFormed.lean ====
section
/-! DEFINITION. When a command's operands fit their fields: "A number that does not fit its field is an assembly
error, not a truncation" (30_encoding.md R86), with the field widths of R80. -/

namespace Sys2Proof

/-- Every operand fits the field its format gives it (30_encoding.md R80, R86). -/
def Instr.wellFormed : Instr → Bool
  | .cfgNch n => n < 2 ^ 4
  | .cfgBps b => b < 2 ^ 6
  | .cfgFmt f => f < 2 ^ 2
  | .cfgKey i d => i < 2 ^ 3 && d < 2 ^ 8
  | .cfgFlen n => n < 2 ^ 28
  | .decStep n => n < 2 ^ 28
  | .raw n => n < 2 ^ 28
  | .nop | .frameInit | .decSample | .decFrame | .verify | .rdReset | .softReset => true

end Sys2Proof
end

