-- ==== Sys2Proof/Decode.lean ====
section
/-! DEFINITION. Command words: fields, the decoder, the encoder, and the opcode map (30_encoding.md R80 to R87). -/

namespace Sys2Proof

/-- `w[hi:lo]`, the unsigned value of bits `hi` down to `lo` inclusive (00_scope.md R13). -/
def slice (w : Word) (hi lo : Nat) : Nat := w.toNat / 2 ^ lo % 2 ^ (hi + 1 - lo)

/-- Why a word is illegal (30_encoding.md R85): (a) a reserved opcode, (b) a 1 in a must-be-zero bit of the opcode's
format. -/
inductive Illegal where
  | reservedOpcode (op : Nat)
  | mustBeZero (op : Nat)
  deriving DecidableEq, Repr

/-- What a command word is: a legal command or an illegal word, by name. -/
inductive Decoded where
  | command (i : Instr)
  | illegal (why : Illegal)
  deriving DecidableEq, Repr

/-- Format `Z`: no operand, `w[27:0]` must be zero (30_encoding.md R80). -/
def formatZ (w : Word) (i : Instr) : Decoded :=
  if slice w 27 0 = 0 then .command i else .illegal (.mustBeZero (slice w 31 28))

/-- Formats `N2`, `N4`, `N6` and `N28`: one operand in the low `k` bits, `w[27:k]` must be zero (30_encoding.md R80). -/
def formatN (k : Nat) (w : Word) (mk : Nat → Instr) : Decoded :=
  if slice w 27 k = 0 then .command (mk (slice w (k - 1) 0)) else .illegal (.mustBeZero (slice w 31 28))

/-- Format `KB`: `i = w[10:8]`, `d = w[7:0]`, `w[27:11]` must be zero (30_encoding.md R80). -/
def formatKB (w : Word) (mk : Nat → Nat → Instr) : Decoded :=
  if slice w 27 11 = 0 then .command (mk (slice w 10 8) (slice w 7 0)) else .illegal (.mustBeZero (slice w 31 28))

/-- The decoder, by the opcode map of 30_encoding.md R82. -/
def decode (w : Word) : Decoded :=
  match slice w 31 28 with
  | 0x0 => formatZ w .nop
  | 0x1 => formatN 4 w .cfgNch
  | 0x2 => formatN 6 w .cfgBps
  | 0x3 => formatN 2 w .cfgFmt
  | 0x4 => formatKB w .cfgKey
  | 0x5 => formatN 28 w .cfgFlen
  | 0x6 => formatZ w .frameInit
  | 0x7 => formatZ w .decSample
  | 0x8 => formatN 28 w .decStep
  | 0x9 => formatZ w .decFrame
  | 0xA => formatZ w .verify
  | 0xB => formatN 28 w .raw
  | 0xC => formatZ w .rdReset
  | 0xF => formatZ w .softReset
  | op => .illegal (.reservedOpcode op)

/-- The operand field `w[27:0]` a command is encoded with (30_encoding.md R80, R81). -/
def Instr.operandField : Instr → Nat
  | .cfgNch n => n
  | .cfgBps b => b
  | .cfgFmt f => f
  | .cfgKey i d => 256 * i + d
  | .cfgFlen n => n
  | .decStep n => n
  | .raw n => n
  | .nop | .frameInit | .decSample | .decFrame | .verify | .rdReset | .softReset => 0

/-- The command word of a well-formed command: opcode in `w[31:28]`, operand field in `w[27:0]` (30_encoding.md R80). -/
def encode (i : Instr) : Word := BitVec.ofNat 32 (i.opcode * 2 ^ 28 + i.operandField)

/-- A row of the opcode map: `w AND mask = mtch` (30_encoding.md R82). -/
structure OpcodeRow where
  mnemonic : String
  mtch : Word
  mask : Word
  deriving DecidableEq, Repr

/-- The opcode map, row by row as 30_encoding.md R82 prints it. -/
def opcodeMap : List OpcodeRow :=
  [ ⟨"NOP", 0x00000000, 0xFFFFFFFF⟩, ⟨"CFG_NCH", 0x10000000, 0xFFFFFFF0⟩,
    ⟨"CFG_BPS", 0x20000000, 0xFFFFFFC0⟩, ⟨"CFG_FMT", 0x30000000, 0xFFFFFFFC⟩,
    ⟨"CFG_KEY", 0x40000000, 0xFFFFF800⟩, ⟨"CFG_FLEN", 0x50000000, 0xF0000000⟩,
    ⟨"FRAME_INIT", 0x60000000, 0xFFFFFFFF⟩, ⟨"DEC_SAMPLE", 0x70000000, 0xFFFFFFFF⟩,
    ⟨"DEC_STEP", 0x80000000, 0xF0000000⟩, ⟨"DEC_FRAME", 0x90000000, 0xFFFFFFFF⟩,
    ⟨"VERIFY", 0xA0000000, 0xFFFFFFFF⟩, ⟨"RAW", 0xB0000000, 0xF0000000⟩,
    ⟨"RD_RESET", 0xC0000000, 0xFFFFFFFF⟩, ⟨"SOFT_RESET", 0xF0000000, 0xFFFFFFFF⟩ ]

/-- The word matches the row (30_encoding.md R82). -/
def OpcodeRow.matchesWord (r : OpcodeRow) (w : Word) : Bool := w &&& r.mask == r.mtch

/-- The command a word stands for, if it is legal. -/
def Decoded.toInstr : Decoded → Option Instr
  | .command i => some i
  | .illegal _ => none

/-- The instruction the decoder reads from a table word: one 32-bit command word, bit 0 its least significant bit,
every bit above `nbits` zero (30_encoding.md R80). -/
def decodeTableWord (nbits w : Nat) : Option Instr := (decode (BitVec.ofNat 32 (w % 2 ^ nbits))).toInstr

/-- `CFG_KEYS d0, ..., d7` (30_encoding.md R87). -/
def pseudoCfgKeys (d0 d1 d2 d3 d4 d5 d6 d7 : Nat) : List Instr :=
  [.cfgKey 0 d0, .cfgKey 1 d1, .cfgKey 2 d2, .cfgKey 3 d3, .cfgKey 4 d4, .cfgKey 5 d5, .cfgKey 6 d6, .cfgKey 7 d7]

/-- `CFG_STREAM n, b, f` (30_encoding.md R87). -/
def pseudoCfgStream (n b f : Nat) : List Instr := [.cfgNch n, .cfgBps b, .cfgFmt f]

/-- `FRAME n` (30_encoding.md R87). -/
def pseudoFrame (n : Nat) : List Instr := [.cfgFlen n, .frameInit, .decFrame]

end Sys2Proof
end

