-- ==== Sys2Proof/Machine/Arith.lean ====
section
/-! DEFINITION. The arithmetic helpers of 00_scope.md R8 to R11; addition, subtraction and multiplication are those of
`Word`, modulo 2^32 (R7). -/

namespace Sys2Proof.Machine

/-- `sar(v, n)`: arithmetic right shift, `floor(s32(v) / 2^n)`; for `n` ≥ 32 the sign (00_scope.md R8). -/
def sar (v : Word) (n : Nat) : Word :=
  if n < Config.wordBits then BitVec.ofInt Config.wordBits (v.toInt / 2 ^ n) else if v.toInt < 0 then -1 else 0

/-- `shr(v, n)`: logical right shift, 0 for `n` ≥ 32 (00_scope.md R9). -/
def shr (v : Word) (n : Nat) : Word := if n < Config.wordBits then BitVec.ofNat Config.wordBits (v.toNat / 2 ^ n) else 0

/-- `shl(v, n)`: `(u32(v) * 2^n) mod 2^32`, 0 for `n` ≥ 32 (00_scope.md R9). -/
def shl (v : Word) (n : Nat) : Word := if n < Config.wordBits then BitVec.ofNat Config.wordBits (v.toNat * 2 ^ n) else 0

/-- `tdiv2(v)`: half of the signed reading, truncating toward zero (00_scope.md R10). -/
def tdiv2 (v : Word) : Word := BitVec.ofInt Config.wordBits (v.toInt.tdiv 2)

/-- `sgn(v)`: the three-valued sign of the signed reading (00_scope.md R11). -/
def sgn (v : Word) : Word := BitVec.ofInt Config.wordBits v.toInt.sign

/-- `sext_8(v)` (00_scope.md R13). -/
def sext8 (b : Byte) : Word := b.signExtend Config.wordBits

end Sys2Proof.Machine
end

