-- ==== Sys2Proof/Machine/Params.lean ====
section
/-! DEFINITION. The shape of the configuration record: every value the source leaves to the implementation, by name
(00_scope.md R6, 93_implementation_defined.md Part 1). The record `config` at the values the spec takes is in
Configuration.lean. Log entries 1 and 15. -/

namespace Sys2Proof.Machine

/-! ## What the configured functions work on -/

/-- The level of a codeword: which code parameter it uses (30_encoding.md R90, R91). -/
inductive Level where
  | zero | one
  deriving DecidableEq, Repr

/-- One channel's entropy state: the code parameters and the running sums (10_state.md R23). -/
structure EntropyState where
  k0 : Word
  k1 : Word
  sum0 : Word
  sum1 : Word
  deriving DecidableEq, Repr

/-- One channel's filter state: coefficients and history (`hist[7]` newest, 10_state.md R23, R26), and the further words a
configured `FilterStep` may keep (Config.lean; none for R142). -/
structure FilterState where
  coef : Vector Word Config.taps
  hist : Vector Word Config.taps
  extra : Vector Word Config.filterExtra
  deriving DecidableEq, Repr

/-! ## Groups of parameters -/

/-- The parameter "code structure" (00_scope.md R6, 93_implementation_defined.md U2): what a codeword's prefix of `u` one-bits
says and how a value is put together (30_encoding.md R90, R91, 40_entropy_decoder.md R114, R115). -/
structure CodeStructure where
  /-- The level. -/
  level : (u : Word) → Level
  /-- The part of the value above the suffix, not yet scaled. -/
  high : (u : Word) → Word
  /-- The code parameter that gives the suffix's width. -/
  parameter : Level → (k0 k1 : Word) → Word
  /-- The high part scaled by the width `k`, to which the suffix is added. -/
  scaled : (high : Word) → (k : Nat) → Word
  /-- What a level-1 value is offset by, from `K0`. -/
  offset : (k0 : Word) → Word

/-- The parameters that `FilterInit` and `FilterStep` are written over (42_hybrid_filter.md R141, R142). -/
structure FilterParameters where
  /-- Key-to-filter mapping: the coefficients that key material gives an encrypted stream (D13, U7). -/
  keySeed : Vector Byte Config.keyLen → Vector Word Config.taps
  /-- The coefficients' neutral seed, of a plain stream (D13, U7). -/
  neutralSeed : Vector Word Config.taps
  /-- The initial history, in both cases (D13). -/
  historySeed : Vector Word Config.taps
  /-- `SGN_H0`, the sign given to a zero history entry (D14, U17). -/
  sgnH0 : Word
  /-- Error term: which of the residual `r` and the recovered value `y` drives the coefficient update (D15, U17). -/
  errorTerm : (r y : Word) → Word

/-! ## The record -/

/-- The configuration record (00_scope.md R6). The six fields that shape the state, `wordBits`, `maxNch`, `taps`, `keyLen`,
`filterExtra` and `flenBits`, are the sizes of Config.lean, which the types of `Word` and `State` read there. -/
structure Parameters extends FilterParameters where
  /-- `W` (R7, D2, U18). -/
  wordBits : Nat
  /-- `MAX_NCH` (D3, U3). -/
  maxNch : Nat
  /-- `MIN_BPS` (D4, U3). -/
  minBps : Nat
  /-- `MAX_BPS` (D4, U3). -/
  maxBps : Nat
  /-- `DEPTH(bps)`, bytes per output sample (D4). -/
  depth : (bps : Nat) → Nat
  /-- `FLEN_BITS` (D16). -/
  flenBits : Nat
  /-- Bit order: the byte with the bit that leaves first at position 0, the next at position 1, and so on
  (20_memory.md R63, D8, U2). -/
  bitOrder : Byte → Byte
  /-- Unary polarity: the run symbol; the other bit is the terminator (40_entropy_decoder.md R110, D8, U2). -/
  unaryRun : Bool
  /-- Order of binary bits: the position in a field of `k` bits of the bit read `i`-th (40_entropy_decoder.md R111, D8, U2). -/
  fieldPosition : (k i : Nat) → Nat
  /-- Code structure (D9, U2). -/
  code : CodeStructure
  /-- Sign map (40_entropy_decoder.md R117, D9, U2). -/
  signMap : Word → Word
  /-- `K_INIT` (40_entropy_decoder.md R112). -/
  kInit : Word
  /-- `T(k)`, for every integer `k` ≥ 0 (40_entropy_decoder.md R113, 10_state.md R44, D7, U1). -/
  watermark : (k : Nat) → Word
  /-- The initial-sum lookup, from the table `T` and the initial parameter (40_entropy_decoder.md R112, D7, U1). -/
  initialSum : (T : Nat → Word) → (k : Word) → Word
  /-- `SUM_DECAY` (D7, U1). -/
  sumDecay : Nat
  /-- The running-sum update: a sum after it has taken in `v` (40_entropy_decoder.md R115, R116, D7, U1). -/
  sumUpdate : (decay : Nat) → (sum v : Word) → Word
  /-- A code parameter against the watermarks of `T`: which table entries are compared, how strictly, and where it moves
  (40_entropy_decoder.md R113, R115, R116, D7, U1). -/
  moveParameter : (T : Nat → Word) → (k sum : Word) → Word
  /-- Update order: given one adaptation of a parameter and its sum and the level-1 offset, the code value of a decoded level
  and suffix value, and the entropy state after it (40_entropy_decoder.md R115, R116, R118, D7, U1). -/
  updateOrder : (adapt : (k sum v : Word) → Word × Word) → (offset : Word → Word) → Level × Word → EntropyState →
    Word × EntropyState
  /-- `CRC_POLY` (D10, U5). -/
  crcPoly : Word
  /-- `CRC_INIT` (D10, U5). -/
  crcInit : Word
  /-- `CRC_XOROUT` (D10, U5). -/
  crcXorOut : Word
  /-- Checksum variant: one byte folded into the accumulator, for a polynomial (41_checksum.md R130, D10, U5). -/
  crcFold : (poly crc : Word) → Byte → Word
  /-- Trailer position: from the bit cache, its count and the next byte fetched, the next trailer byte, and the bit cache and
  count after it (20_memory.md R68, 41_checksum.md R132, D11, U5). -/
  trailerByte : (bcache : Byte) → (bcount : BitVec 4) → (fetched : Byte) → Byte × Byte × BitVec 4
  /-- Trailer byte order: the field's bytes in stream order, put least significant first (20_memory.md R64, D11, U5). -/
  trailerOrder : List Byte → List Byte
  /-- Treatment of values wider than `depth` bytes: the word whose low `depth` bytes are emitted (20_memory.md R67, D12, U6). -/
  pcmFit : (depth : Nat) → Word → Word
  /-- PCM byte order: a sample's bytes, least significant first, put in the order of emission (20_memory.md R67, D12, U6). -/
  pcmOrder : List Byte → List Byte
  /-- `L` (D5, U4). -/
  taps : Nat
  /-- `SHIFT_TAB`, the filter shift by `DEPTH` (D6, U4). -/
  shiftTab : (depth : Nat) → Nat
  /-- `KEY_LEN` (D13, U7). -/
  keyLen : Nat
  /-- The further words of a channel's filter state (U9; Config.lean). -/
  filterExtra : Nat
  /-- `FilterInit` over the filter's parameters: is the stream encrypted, and the key material (42_hybrid_filter.md R141,
  U9). -/
  filterInit : FilterParameters → (encrypted : Bool) → Vector Byte Config.keyLen → FilterState
  /-- `FilterStep` over the filter's parameters: the shift, the residual `r`, and the channel's filter state; answers the
  stage-1 output and the new filter state (42_hybrid_filter.md R142, R147, U9). -/
  filterStep : FilterParameters → (shift : Nat) → (r : Word) → FilterState → Word × FilterState

end Sys2Proof.Machine
end

