-- ==== Sys2Proof/Machine/CoderRules.lean ====
section
/-! DEFINITION. The entropy coder's rules that the source leaves open, as values of the configuration record
(40_entropy_decoder.md R112 to R117, 30_encoding.md R90, R91). All are UNVERIFIED against the source
(93_implementation_defined.md Part 2); log entry 1. -/

namespace Sys2Proof.Machine

/-- `2^min(k+4, 31)` (40_entropy_decoder.md R113). -/
def powerWatermark (k : Nat) : Word := BitVec.ofNat Config.wordBits (2 ^ min (k + 4) 31)

/-- The initial sum is the watermark of the initial parameter (40_entropy_decoder.md R112). -/
def sumFromTable (T : Nat → Word) (k : Word) : Word := T k.toNat

/-- `(sum + v - shr(sum, decay)) mod 2^32` (40_entropy_decoder.md R115, R116). -/
def decayingSum (decay : Nat) (sum v : Word) : Word := sum + v - shr sum decay

/-- At most one move, against the watermarks `T(k)` and `T(k+1)`, the comparisons unsigned and strict, never below zero
(40_entropy_decoder.md R115, R116). -/
def moveByOne (T : Nat → Word) (k sum : Word) : Word :=
  if 0 < k ∧ sum < T k.toNat then k - 1
  else if T (k.toNat + 1) < sum then k + 1
  else k

/-- The level-1 adaptation (40_entropy_decoder.md R115): `SUM1` and `K1` take in the value before the offset, which is then
added with `K0` not yet updated. -/
def adaptLevelOne (adapt : (k sum v : Word) → Word × Word) (offset : Word → Word) (a : Word) (e : EntropyState) :
    Word × EntropyState :=
  (a + offset e.k0, { e with k1 := (adapt e.k1 e.sum1 a).1, sum1 := (adapt e.k1 e.sum1 a).2 })

/-- The level-0 adaptation, for a value of either level (40_entropy_decoder.md R116). -/
def adaptLevelZero (adapt : (k sum v : Word) → Word × Word) (v : Word) (e : EntropyState) : EntropyState :=
  { e with k0 := (adapt e.k0 e.sum0 v).1, sum0 := (adapt e.k0 e.sum0 v).2 }

/-- Level 1 before level 0, level 0 with the whole code value (40_entropy_decoder.md R115, R116, R118). -/
def levelOneFirst (adapt : (k sum v : Word) → Word × Word) (offset : Word → Word) :
    Level × Word → EntropyState → Word × EntropyState
  | (.zero, a), e => (a, adaptLevelZero adapt a e)
  | (.one, a), e =>
    let one := adaptLevelOne adapt offset a e
    (one.1, adaptLevelZero adapt one.1 one.2)

/-- The two-level code of 30_encoding.md R90, R91: no one-bit is level 0; otherwise level 1, the high part `u - 1`, the offset
`2^K0`. -/
def twoLevelCode : CodeStructure where
  level u := if u = 0 then .zero else .one
  high u := if u = 0 then 0 else u - 1
  parameter level k0 k1 :=
    match level with
    | .zero => k0
    | .one => k1
  scaled high k := shl high k
  offset k0 := shl 1 k0.toNat

/-- Odd to `(v+1)/2`, even to `-(v/2)` (40_entropy_decoder.md R117). -/
def oddPositive (v : Word) : Word := if v.getLsbD 0 then sar (v + 1) 1 else sar (0 - v) 1

/-- The bit read `i`-th stands at position `i`: first bit lowest (40_entropy_decoder.md R111). -/
def firstBitLowest (_k i : Nat) : Nat := i

end Sys2Proof.Machine
end

