-- ==== Sys2Proof/Machine/FilterRules.lean ====
section
/-! DEFINITION. `FilterInit` and `FilterStep` as this spec takes them, the values of the configuration record's two filter
functions (42_hybrid_filter.md R141 to R147, 93_implementation_defined.md U9). -/

namespace Sys2Proof.Machine

/-- Key byte `i`, sign-extended, is coefficient `i` (42_hybrid_filter.md R141). UNVERIFIED, log entry 1. -/
def signedKeyBytes (key : Vector Byte Config.keyLen) : Vector Word Config.taps := Vector.ofFn fun i => sext8 key[i]

/-- The weighted sum of the history against the coefficients, products and sum modulo 2^32 (42_hybrid_filter.md R142). -/
def weightedSum (hist coef : Vector Word Config.taps) : Word :=
  (List.finRange Config.taps).foldl (fun sum i => sum + hist[i] * coef[i]) 0

/-- The prediction `p = sar(sum, SHIFT)`, without a rounding term (42_hybrid_filter.md R142, R143(d)). -/
def prediction (shift : Nat) (f : FilterState) : Word := sar (weightedSum f.hist f.coef) shift

/-- The sign of a history entry in the update, `SGN_H0` for a zero one (42_hybrid_filter.md R142, R143(b)). -/
def historySign (sgnH0 h : Word) : Word := if sgn h = 0 then sgnH0 else sgn h

/-- The coefficients adapted by the sign of the error term `e` against the history before the shift-in
(42_hybrid_filter.md R142, R143). -/
def adaptCoefficients (sgnH0 e : Word) (f : FilterState) : Vector Word Config.taps :=
  Vector.ofFn fun i => f.coef[i] + sgn e * historySign sgnH0 f.hist[i]

/-- The history with the oldest entry discarded and `y` shifted in as the newest (42_hybrid_filter.md R142, 10_state.md R26). -/
def shiftIn (y : Word) (hist : Vector Word Config.taps) : Vector Word Config.taps :=
  Vector.ofFn fun i => if h : i.val + 1 < Config.taps then hist[i.val + 1] else y

/-- `FilterStep(c, r)` as the source describes it (42_hybrid_filter.md R142; R147 names what it leaves aside). -/
def sourceFilterStep (p : FilterParameters) (shift : Nat) (r : Word) (f : FilterState) : Word × FilterState :=
  let y := r + prediction shift f
  (y, { f with coef := adaptCoefficients p.sgnH0 (p.errorTerm r y) f, hist := shiftIn y f.hist })

/-- `FilterInit(c)` (42_hybrid_filter.md R141): the initial history, the coefficients from the key when encrypted, else the
neutral seed. -/
def sourceFilterInit (p : FilterParameters) (encrypted : Bool) (key : Vector Byte Config.keyLen) : FilterState where
  coef := if encrypted then p.keySeed key else p.neutralSeed
  hist := p.historySeed
  extra := Vector.replicate Config.filterExtra 0

end Sys2Proof.Machine
end

