-- ==== Sys2Proof/Machine/Configuration.lean ====
section
/-! DEFINITION. The record `config`: every parameter at the value the spec takes (00_scope.md R6), which every rule of the
machine reads. A value the spec marks GK is UNVERIFIED against the source (93_implementation_defined.md Part 2). Log entries 1
and 15. -/

namespace Sys2Proof.Machine

/-- `SHIFT_TAB` (00_scope.md R6). UNVERIFIED. It has no other entry; the decode commands never ask for one (log entry 10). -/
def shiftByDepth : Nat → Nat
  | 2 => 9
  | 3 => 10
  | _ => 0

/-- One of the eight rounds of `CrcStep` (41_checksum.md R130). UNVERIFIED. -/
def reflectedRound (poly x : Word) : Word := if x.getLsbD 0 then shr x 1 ^^^ poly else shr x 1

/-- The rounds of `CrcStep`, repeated (41_checksum.md R130). -/
def reflectedRounds (poly : Word) : Nat → Word → Word
  | 0, x => x
  | n + 1, x => reflectedRounds poly n (reflectedRound poly x)

/-- The reflected form of `CrcStep(crc, b)`: bytes fed low bit first (41_checksum.md R130). UNVERIFIED. -/
def reflectedFold (poly crc : Word) (b : Byte) : Word := reflectedRounds poly 8 (crc ^^^ b.setWidth Config.wordBits)

/-- The configuration record at the values the spec takes (00_scope.md R6). -/
def config : Parameters where
  wordBits := Config.wordBits
  maxNch := Config.maxNch
  minBps := 16
  maxBps := 24
  depth bps := (bps + 7) / 8
  flenBits := Config.flenBits
  bitOrder b := b
  unaryRun := true
  fieldPosition := firstBitLowest
  code := twoLevelCode
  signMap := oddPositive
  kInit := 10
  watermark := powerWatermark
  initialSum := sumFromTable
  sumDecay := 4
  sumUpdate := decayingSum
  moveParameter := moveByOne
  updateOrder := levelOneFirst
  crcPoly := 0xEDB88320
  crcInit := 0xFFFFFFFF
  crcXorOut := 0xFFFFFFFF
  crcFold := reflectedFold
  trailerByte bcache bcount fetched := (fetched, bcache, bcount)
  trailerOrder bytes := bytes
  pcmFit _ v := v
  pcmOrder bytes := bytes
  taps := Config.taps
  shiftTab := shiftByDepth
  keyLen := Config.keyLen
  keySeed := signedKeyBytes
  neutralSeed := Vector.replicate Config.taps 0
  historySeed := Vector.replicate Config.taps 0
  sgnH0 := 0
  errorTerm r _ := r
  filterExtra := Config.filterExtra
  filterInit := sourceFilterInit
  filterStep := sourceFilterStep

end Sys2Proof.Machine
end

