-- ==== Sys2Proof/Machine/Crc.lean ====
section
/-! DEFINITION. The checksum accumulator's step (41_checksum.md R130). -/

namespace Sys2Proof.Machine

/-- `CrcStep(crc, b)`: folds one byte into the accumulator, in the configured variant (41_checksum.md R130). -/
def crcStep (crc : Word) (b : Byte) : Word := config.crcFold config.crcPoly crc b

end Sys2Proof.Machine
end

