-- ==== Sys2Proof/Machine/State.lean ====
section
/-! DEFINITION. The state of the block as plain data (10_state.md R20), the streams around it (10_state.md R43), the
command that waits (20_memory.md R61), the reasons a step can stop, and the state after reset (10_state.md R45). -/

namespace Sys2Proof.Machine

/-- The sequencing phase, 2 bits, all four codes used (10_state.md R29). -/
inductive Phase where
  | idle | decoding | frameEnd | halt
  deriving DecidableEq, Repr

/-- One answer of the byte source to `NextByte()`: outcome (a) or (c) of 20_memory.md R61. Outcome (b), no byte yet, is
the empty list of answers. -/
inductive SrcItem where
  | byte (b : Byte)
  | failure
  deriving DecidableEq, Repr

/-- Where a DEC_SAMPLE body waits (20_memory.md R61(b), R66). -/
inductive Point where
  /-- In `ReadUnary`, `u` one-bits counted (40_entropy_decoder.md R110). -/
  | unary (u : Word)
  /-- In `ReadBits` of a codeword's suffix: the level, the value `shl(a, k)` it is added to, how many bits are left, the
  position of the next bit, the bits gathered so far (40_entropy_decoder.md R111, R114). -/
  | suffix (level : Level) (a : Word) (left i : Nat) (acc : Word)
  /-- In `EmitStep`, these bytes still to be emitted (44_decorrelator_output.md R158). -/
  | emit (rest : List Byte)
  deriving DecidableEq, Repr

/-- A command in flight that waits, and its place in its pseudocode (20_memory.md R61(b), R66). -/
inductive Job where
  /-- DEC_SAMPLE. -/
  | sample (p : Point)
  /-- DEC_STEP with `left` time-steps still to be completed. -/
  | steps (left : Nat) (p : Point)
  /-- DEC_FRAME in its decode loop. -/
  | frame (p : Point)
  /-- VERIFY, or the VERIFY of a DEC_FRAME: `sum` (the pseudocode's `calc`), and the trailer bytes read so far. -/
  | verify (sum : Word) (got : List Byte)
  /-- RAW with `left` bytes still to be read, and a byte read and not yet emitted, if any. -/
  | raw (left : Nat) (held : Option Byte)
  deriving DecidableEq, Repr

/-- One channel's state (10_state.md R23): entropy parameters and sums, filter coefficients and history (`hist[7]`
newest, R26), the predictor's previous value; and the words that another configured `FilterStep` would keep, none here
(42_hybrid_filter.md R147, log entry 15). -/
structure Channel where
  k0 : Word
  k1 : Word
  sum0 : Word
  sum1 : Word
  coef : Vector Word Config.taps
  hist : Vector Word Config.taps
  prev : Word
  extra : Vector Word Config.filterExtra
  deriving DecidableEq, Repr

/-- Every piece of state the spec gives the machine; the fields after `cache` are the streams around the block, the
command that waits, the reset input, and the model's own fields (log entries 3 to 9). -/
structure State where
  /-- `NCH`, 10_state.md R31. -/
  nch : BitVec 4
  /-- `BPS`, 10_state.md R32. -/
  bps : BitVec 6
  /-- `FMT`, 10_state.md R33. -/
  fmt : BitVec 2
  /-- `FLEN`, 10_state.md R35. -/
  flen : BitVec Config.flenBits
  /-- `KEY`, 10_state.md R34. -/
  key : Vector Byte Config.keyLen
  /-- `KEYMASK`, 10_state.md R34. -/
  keymask : BitVec Config.keyLen
  /-- `PHASE`, 10_state.md R29. -/
  phase : Phase
  /-- `CH`, 10_state.md R28. -/
  ch : BitVec 3
  /-- `POS`, 10_state.md R28. -/
  pos : BitVec Config.flenBits
  /-- `BCACHE`, 10_state.md R36. -/
  bcache : Byte
  /-- `BCOUNT`, 10_state.md R36. -/
  bcount : BitVec 4
  /-- `CRC`, the raw accumulator, 10_state.md R37. -/
  crc : Word
  /-- `CRC_CALC`, 10_state.md R38. -/
  crcCalc : Word
  /-- `CRC_STORED`, 10_state.md R38. -/
  crcStored : Word
  /-- `COUNT`, 10_state.md R39. -/
  count : Word
  /-- `CRC_OK`, 10_state.md R30. -/
  crcOk : Bool
  /-- `CRC_ERR`, 10_state.md R30. -/
  crcErr : Bool
  /-- `ERR_CMD`, 10_state.md R30. -/
  errCmd : Bool
  /-- `ERR_CFG`, 10_state.md R30. -/
  errCfg : Bool
  /-- `ERR_IO`, 10_state.md R30. -/
  errIo : Bool
  /-- The per-channel state, 10_state.md R23. -/
  chan : Vector Channel Config.maxNch
  /-- `CACHE`, 10_state.md R22. -/
  cache : Vector Word Config.maxNch
  /-- Model's own: FRAME_INIT has written the per-channel elements and `CACHE` since the last reset (log entry 4). -/
  chanValid : Bool
  /-- Model's own: how many free values have been taken (log entry 3). -/
  freeCount : Nat
  /-- `CMD`: the words the host has supplied and the block has not yet taken, in order, 20_memory.md R60 (log entry 7). -/
  cmd : List Word
  /-- `IN`: what the byte source answers next, in order; empty: no byte yet, 20_memory.md R61 (log entry 7). -/
  inp : List SrcItem
  /-- `PCM`: the bytes emitted and not yet drained, oldest first, 20_memory.md R66 (log entry 7). -/
  pcm : List Byte
  /-- `RAWOUT`: the bytes passed through and not yet drained, oldest first, 20_memory.md R75 (log entry 7). -/
  rawOut : List Byte
  /-- How many bytes `PCM` takes before it is not ready; `none`: it is always ready, 20_memory.md R66 (log entry 8). -/
  pcmRoom : Option Nat
  /-- The same for `RAWOUT` (log entry 8). -/
  rawRoom : Option Nat
  /-- The command in flight that waits, if any, 20_memory.md R61(b) (log entry 5). -/
  inFlight : Option Job
  /-- The hardware reset input, 70_reset_and_hazards.md R230 (log entry 9). -/
  resetReq : Bool
  deriving DecidableEq, Repr

/-- Why the machine can stop with a fault. -/
inductive Fault where
  /-- SAFE. Raised by a DEC_SAMPLE body when `NCH`, `CH` or `BPS` names a channel or a sample width the block does not
  have (10_state.md R21, R28, R31). No run reaches it: the invariant of Safety.lean rules it out. Log entry 10. -/
  | noSuchGeometry
  deriving DecidableEq, Repr

/-- Why a step can be refused. -/
inductive Refusal where
  /-- SAFE. Raised by an arm of exec whose instruction has no meaning yet. No arm of this model raises it. -/
  | notModelled (mnemonic : String)
  deriving DecidableEq, Repr

/-- Per-channel elements are "unspecified" after reset (10_state.md R45); DESIGN CHOICE zero, log entry 2. -/
def Channel.atReset : Channel where
  k0 := 0
  k1 := 0
  sum0 := 0
  sum1 := 0
  coef := Vector.replicate Config.taps 0
  hist := Vector.replicate Config.taps 0
  prev := 0
  extra := Vector.replicate Config.filterExtra 0

/-- The machine right after hardware reset (10_state.md R45, 70_reset_and_hazards.md R231), its queues empty and its
sinks ready (DESIGN CHOICE, log entries 7, 8, 9). -/
def State.reset : State where
  nch := 0
  bps := 0
  fmt := 0
  flen := 0
  key := Vector.replicate Config.keyLen 0
  keymask := 0
  phase := .idle
  ch := 0
  pos := 0
  bcache := 0
  bcount := 0
  crc := config.crcInit
  crcCalc := 0
  crcStored := 0
  count := 0
  crcOk := false
  crcErr := false
  errCmd := false
  errCfg := false
  errIo := false
  chan := Vector.replicate Config.maxNch Channel.atReset
  cache := Vector.replicate Config.maxNch 0
  chanValid := false
  freeCount := 0
  cmd := []
  inp := []
  pcm := []
  rawOut := []
  pcmRoom := none
  rawRoom := none
  inFlight := none
  resetReq := false

end Sys2Proof.Machine
end

