-- ==== Sys2Proof/Machine/Flags.lean ====
section
/-! DEFINITION. The flags and STATUS (10_state.md R30, R40). No arithmetic writes a flag (R30): a flag is written only by a
condition (`raise`, Ops.lean), by the report of a VERIFY, and by the resets. -/

namespace Sys2Proof.Machine

/-- The code of a phase (10_state.md R29). -/
def Phase.code : Phase → Nat
  | .idle => 0
  | .decoding => 1
  | .frameEnd => 2
  | .halt => 3

/-- `KEY_OK`: the key is present when `KEYMASK = 0xFF` (10_state.md R34, R40). -/
def keyOk (s : State) : Bool := s.keymask == 0xFF

/-- `STATUS`, bits 31:8 zero (10_state.md R40). -/
def statusWord (s : State) : Word :=
  BitVec.ofNat 32 (s.phase.code + 2 ^ 2 * s.crcOk.toNat + 2 ^ 3 * s.crcErr.toNat + 2 ^ 4 * s.errCmd.toNat
    + 2 ^ 5 * s.errCfg.toNat + 2 ^ 6 * s.errIo.toNat + 2 ^ 7 * (keyOk s).toNat)

/-- What a VERIFY reports: the two compared values, and exactly one of `CRC_OK`, `CRC_ERR`
(41_checksum.md R132, 10_state.md R30, R38). -/
def reportChecksum (sum stored : Word) (s : State) : State :=
  { s with crcCalc := sum, crcStored := stored, crcOk := sum == stored, crcErr := sum != stored }

/-- `CRC_OK <- 0; CRC_ERR <- 0` (46_config_control.md R186, R187). -/
def clearChecksumFlags (s : State) : State := { s with crcOk := false, crcErr := false }

end Sys2Proof.Machine
end

