-- ==== Sys2Proof/Machine/Operands.lean ====
section
/-! DEFINITION. What the operands and the configuration registers must satisfy: the legal ranges of the CFG commands
(46_config_control.md R181 to R185), the completeness FRAME_INIT asks for (R186), and the derived `DEPTH` and `SHIFT`
(10_state.md R21). The fields of a command word are in Decode.lean. -/

namespace Sys2Proof.Machine

/-- `1 <= n <= MAX_NCH` (46_config_control.md R181). -/
def legalNch (n : Nat) : Bool := 1 ≤ n && n ≤ config.maxNch

/-- `MIN_BPS <= b <= MAX_BPS` (46_config_control.md R182). -/
def legalBps (b : Nat) : Bool := config.minBps ≤ b && b ≤ config.maxBps

/-- `f = 1` (plain) or `f = 2` (encrypted) (46_config_control.md R183). -/
def legalFmt (f : Nat) : Bool := f == 1 || f == 2

/-- `n >= 1` (46_config_control.md R185). -/
def legalFlen (n : Nat) : Bool := 1 ≤ n

/-- The configuration is complete: the test `ok` of FRAME_INIT (46_config_control.md R186). -/
def configComplete (s : State) : Bool :=
  legalNch s.nch.toNat && legalBps s.bps.toNat && legalFmt s.fmt.toNat && legalFlen s.flen.toNat
    && (s.fmt.toNat == 1 || keyOk s)

/-- `DEPTH` of the current `BPS` (10_state.md R21). -/
def depthOf (s : State) : Nat := config.depth s.bps.toNat

/-- `SHIFT` of the current `BPS` (10_state.md R21). -/
def shiftOf (s : State) : Nat := config.shiftTab (depthOf s)

/-- `NCH`, `CH` and `BPS` name channels and a sample width the block has (10_state.md R21, R28, R31). Log entry 10. -/
def geometryOk (s : State) : Bool :=
  s.nch.toNat ≤ config.maxNch && s.ch.toNat < s.nch.toNat && legalBps s.bps.toNat

end Sys2Proof.Machine
end

