-- ==== Sys2Proof/Machine/Ops.lean ====
section
/-! DEFINITION. The shared operations: raising a condition and the way back from one, the byte and bit reads, the sinks,
the command port, the prologue, and how a command that waits is kept. -/

namespace Sys2Proof.Machine

/-- The answer of one command: what `exec` and `step` return. -/
abbrev Result := Host.Outcome State Fault Refusal

/-! ## Conditions: taking one, and the way back -/

/-- The error conditions the block detects (60_exceptions.md R200, R201). -/
inductive Condition where
  | errCmd | errCfg | errIo
  deriving DecidableEq, Repr

/-- `raise <Condition>`: set the sticky flag and make the listed change of state; "nothing is vectored and no state is
saved" (00_scope.md R14, 60_exceptions.md R203 to R205, R209). -/
def raise : Condition → State → State
  | .errCmd, s => { s with errCmd := true }
  | .errCfg, s => { s with errCfg := true }
  | .errIo, s => { s with errIo := true, phase := .halt }

/-- How many words a reset leaves "unspecified" for each channel, its entry of `CACHE` among them (10_state.md R45): 22.
Log entry 3. -/
def unspecifiedPerChannel : Nat := 6 + 2 * config.taps + config.filterExtra

/-- How many words a reset leaves "unspecified" (10_state.md R45). Log entry 3. -/
def unspecifiedWords : Nat := unspecifiedPerChannel * config.maxNch

/-- The unspecified per-channel elements of a channel after a reset, as free values numbered from `base` (10_state.md R45).
Log entry 3. -/
def Channel.unspecified (base : Nat) : Channel where
  k0 := Config.freeWord base
  k1 := Config.freeWord (base + 1)
  sum0 := Config.freeWord (base + 2)
  sum1 := Config.freeWord (base + 3)
  prev := Config.freeWord (base + 4)
  coef := Vector.ofFn fun i => Config.freeWord (base + 6 + i.val)
  hist := Vector.ofFn fun i => Config.freeWord (base + 6 + config.taps + i.val)
  extra := Vector.ofFn fun i => Config.freeWord (base + 6 + 2 * config.taps + i.val)

/-- Reset of the block: every element at the column "after reset / SOFT_RESET" of 10_state.md R45, the unspecified ones
free; `IN`, `PCM`, `RAWOUT` and the command queue as they are (46_config_control.md R188, 70_reset_and_hazards.md R230).
It is the only way back from HALT: there is no return command (60_exceptions.md R210). -/
def resetBlock (s : State) : State :=
  { State.reset with
    chan := Vector.ofFn fun c => Channel.unspecified (s.freeCount + unspecifiedPerChannel * c.val)
    cache := Vector.ofFn fun c => Config.freeWord (s.freeCount + unspecifiedPerChannel * c.val + 5)
    freeCount := s.freeCount + unspecifiedWords
    cmd := s.cmd
    inp := s.inp
    pcm := s.pcm
    rawOut := s.rawOut
    pcmRoom := s.pcmRoom
    rawRoom := s.rawRoom
    resetReq := s.resetReq }

/-- The hardware reset input, taken: the block is reset, a command in flight is abandoned, and the request is answered
(70_reset_and_hazards.md R230). Log entry 9. -/
def hardwareReset (s : State) : State := { resetBlock s with resetReq := false }

/-- `ReaderReset()` (41_checksum.md R131). -/
def readerReset (s : State) : State := { s with crc := config.crcInit, bcache := 0, bcount := 0 }

/-! ## Commands that wait -/

/-- How a piece of a command ends: it completed; it waits at a place `p`; a byte read failed and the command stops; or the
registers name no channel (log entry 10). -/
inductive Run (π α : Type) where
  | done (a : α) (s : State)
  | wait (p : π) (s : State)
  | failed (s : State)
  | stuck (f : Fault)

/-- One thing after another: the second only if the first completed (20_memory.md R71(b)). -/
def Run.bind {π α β : Type} (r : Run π α) (f : α → State → Run π β) : Run π β :=
  match r with
  | .done a s => f a s
  | .wait p s => .wait p s
  | .failed s => .failed s
  | .stuck e => .stuck e

/-- The same run with its place named from further out. -/
def Run.mapWait {π ρ α : Type} (f : π → ρ) (r : Run π α) : Run ρ α :=
  match r with
  | .done a s => .done a s
  | .wait p s => .wait (f p) s
  | .failed s => .failed s
  | .stuck e => .stuck e

/-- A command's outcome: a command that waits is kept in flight with its place, all it has done so far done
(20_memory.md R61(b)); one whose read failed has stopped (R61(c)). Log entry 5. -/
def settle (r : Run Job Unit) : Result :=
  match r with
  | .done _ s => .next s
  | .wait j s => .next { s with inFlight := some j }
  | .failed s => .next s
  | .stuck f => .fault f

/-! ## Reading `IN` -/

/-- The outcome of a byte or bit read (20_memory.md R61): delivered, not there yet, or failed. -/
inductive Got (α : Type) where
  | got (a : α) (s : State)
  | notYet
  | failed (s : State)

/-- `NextByte()` (20_memory.md R61): (a) a byte, folded into `CRC` and counted; (b) none yet, nothing changes; (c) a
failure, `ERR_IO` raised. -/
def nextByte (s : State) : Got Byte :=
  match s.inp with
  | [] => .notYet
  | .byte b :: rest => .got b { s with inp := rest, crc := crcStep s.crc b, count := s.count + 1 }
  | .failure :: rest => .failed (raise .errIo { s with inp := rest })

/-- The bit at position 0 of the bit cache, taken (20_memory.md R63). -/
def takeBit (s : State) : Got Bool :=
  .got (s.bcache.getLsbD 0) { s with bcache := s.bcache >>> 1, bcount := s.bcount - 1 }

/-- `NextBit()` (20_memory.md R63): a byte is fetched only when no bit is left, its bits in the configured order. -/
def nextBit (s : State) : Got Bool :=
  if s.bcount = 0 then
    match nextByte s with
    | .got b s' => takeBit { s' with bcache := config.bitOrder b, bcount := 8 }
    | .notYet => .notYet
    | .failed s' => .failed s'
  else takeBit s

/-- How many `NextBit` calls the cache and the waiting answers of the source can serve at most: the bound of every
loop over bits. -/
def bitsAvail (s : State) : Nat := s.bcount.toNat + 8 * s.inp.length

/-! ## Writing the sinks -/

/-- Room for one more byte, taken; `none` when the sink is not ready (20_memory.md R66). Log entry 8. -/
def takeRoom : Option Nat → Option (Option Nat)
  | none => some none
  | some 0 => none
  | some (n + 1) => some (some n)

/-- `EmitPcm` of a list of bytes in order, as far as the sink is ready; what is left over comes back (20_memory.md R66). -/
def emitPcm : List Byte → State → List Byte × State
  | [], s => ([], s)
  | b :: bs, s =>
    match takeRoom s.pcmRoom with
    | none => (b :: bs, s)
    | some r => emitPcm bs { s with pcm := s.pcm ++ [b], pcmRoom := r }

/-- `EmitRaw(b)`; `none` when the sink is not ready (20_memory.md R66, R75). -/
def emitRaw (b : Byte) (s : State) : Option State :=
  (takeRoom s.rawRoom).map fun r => { s with rawOut := s.rawOut ++ [b], rawRoom := r }

/-! ## The command port -/

/-- The next command word, taken from `CMD` (20_memory.md R60, R71(a)); `none` when the host has supplied none. -/
def fetchCommand (s : State) : Option (Word × State) :=
  match s.cmd with
  | [] => none
  | w :: rest => some (w, { s with cmd := rest })

/-- The word placed as the next one the block takes, with nothing in flight and no reset asked for. -/
def placeCommand (w : Word) (s : State) : State := { s with cmd := w :: s.cmd, inFlight := none, resetReq := false }

/-- The legality table (46_config_control.md R190). -/
def accepts : Instr → Phase → Bool
  | .nop, p => p != .halt
  | .cfgNch _, p | .cfgBps _, p | .cfgFmt _, p | .cfgKey _ _, p | .cfgFlen _, p => p == .idle
  | .frameInit, p => p != .halt
  | .decSample, p | .decStep _, p => p == .decoding
  | .decFrame, p => p == .decoding || p == .frameEnd
  | .verify, p => p == .idle || p == .frameEnd
  | .raw _, p => p == .idle
  | .rdReset, p => p != .halt
  | .softReset, _ => true

/-- The prologue of a legal word (46_config_control.md R190 steps 2 to 5): SOFT_RESET goes ahead; anything else in HALT, or
in a phase that does not accept it, raises `ERR_CMD` and does nothing more. -/
def prologue (i : Instr) (s : State) (own : Result) : Result :=
  if i = .softReset then own
  else if s.phase = .halt then .next (raise .errCmd s)
  else if accepts i s.phase then own
  else .next (raise .errCmd s)

end Sys2Proof.Machine
end

