-- ==== Sys2Proof/Machine/Configure.lean ====
section
/-! DEFINITION. NOP and the configuration commands (46_config_control.md R180 to R185). -/

namespace Sys2Proof.Machine

/-- `NOP` (46_config_control.md R180). -/
def execNop (s : State) : Result := prologue .nop s (.next s)

/-- `CFG_NCH n` (46_config_control.md R181). -/
def execCfgNch (n : Nat) (s : State) : Result :=
  prologue (.cfgNch n) s
    (if legalNch n then .next { s with nch := BitVec.ofNat 4 n } else .next (raise .errCfg s))

/-- `CFG_BPS b` (46_config_control.md R182). -/
def execCfgBps (b : Nat) (s : State) : Result :=
  prologue (.cfgBps b) s
    (if legalBps b then .next { s with bps := BitVec.ofNat 6 b } else .next (raise .errCfg s))

/-- `FMT <- 1` and the key discarded (46_config_control.md R183). -/
def setPlain (s : State) : State := { s with fmt := 1, key := Vector.ofFn fun _ => 0, keymask := 0 }

/-- `CFG_FMT f` (46_config_control.md R183). -/
def execCfgFmt (f : Nat) (s : State) : Result :=
  prologue (.cfgFmt f) s
    (if f = 1 then .next (setPlain s)
     else if f = 2 then .next { s with fmt := 2 }
     else .next (raise .errCfg s))

/-- `KEY[i] <- d` and `KEYMASK[i] <- 1` (46_config_control.md R184). -/
def setKey (i d : Nat) (s : State) : State :=
  { s with key := s.key.setIfInBounds i (BitVec.ofNat 8 d), keymask := s.keymask ||| BitVec.ofNat Config.keyLen (2 ^ i) }

/-- `CFG_KEY i, d` (46_config_control.md R184). -/
def execCfgKey (i d : Nat) (s : State) : Result := prologue (.cfgKey i d) s (.next (setKey i d s))

/-- `CFG_FLEN n` (46_config_control.md R185). -/
def execCfgFlen (n : Nat) (s : State) : Result :=
  prologue (.cfgFlen n) s
    (if legalFlen n then .next { s with flen := BitVec.ofNat Config.flenBits n } else .next (raise .errCfg s))

end Sys2Proof.Machine
end

