-- ==== Sys2Proof/Machine/Entropy.lean ====
section
/-! DEFINITION. The bit reader and the adaptive entropy decoder (40_entropy_decoder.md R110 to R120). -/

namespace Sys2Proof.Machine

/-- `ReadUnary()` with `u` run symbols already counted (40_entropy_decoder.md R110). The first argument bounds the loop;
`bitsAvail s + 1` is always enough. -/
def readUnary : Nat → Word → State → Run Point Word
  | 0, u, s => .wait (.unary u) s
  | n + 1, u, s =>
    match nextBit s with
    | .got b s' => if b = config.unaryRun then readUnary n (u + 1) s' else .done u s'
    | .notYet => .wait (.unary u) s
    | .failed s' => .failed s'

/-- The last `left` rounds of `ReadBits(k)`, from bit position `i` with `acc` gathered (40_entropy_decoder.md R111); the bits
from the 33rd on are dropped. `level` and `a` are only kept for the place at which it may wait. -/
def readBits (level : Level) (a : Word) : (left i : Nat) → Word → State → Run Point Word
  | 0, _, acc, s => .done acc s
  | left + 1, i, acc, s =>
    match nextBit s with
    | .got b s' =>
      let j := config.fieldPosition (i + left + 1) i
      readBits level a left (i + 1)
        (if j < Config.wordBits then acc + BitVec.ofNat Config.wordBits (b.toNat * 2 ^ j) else acc) s'
    | .notYet => .wait (.suffix level a (left + 1) i acc) s
    | .failed s' => .failed s'

/-- The suffix of a codeword: `(shl(a, k) + ReadBits(k)) mod 2^32`, from wherever the read stands; `a` is `shl(a, k)`
(40_entropy_decoder.md R114). -/
def readSuffix (level : Level) (a : Word) (left i : Nat) (acc : Word) (s : State) : Run Point (Level × Word) :=
  (readBits level a left i acc s).bind fun f s' => .done (level, a + f) s'

/-- The code parameter of a level (40_entropy_decoder.md R114). -/
def parameterOf (ch : Channel) (level : Level) : Word := config.code.parameter level ch.k0 ch.k1

/-- `DecodeValue(c)` after the unary count `u` (40_entropy_decoder.md R114): the level, and the suffix if the level's
parameter is not zero. -/
def afterUnary (ch : Channel) (u : Word) (s : State) : Run Point (Level × Word) :=
  let level := config.code.level u
  let k := parameterOf ch level
  let a := config.code.high u
  if k = 0 then .done (level, a) s else readSuffix level (config.code.scaled a k.toNat) k.toNat 0 0 s

/-- `DecodeValue(c)` with `u` one-bits already counted (40_entropy_decoder.md R114). -/
def decodeValue (ch : Channel) (u : Word) (s : State) : Run Point (Level × Word) :=
  (readUnary (bitsAvail s + 1) u s).bind fun u' s' => afterUnary ch u' s'

/-- The entropy coder's part of a channel (10_state.md R23). -/
def Channel.entropy (ch : Channel) : EntropyState := { k0 := ch.k0, k1 := ch.k1, sum0 := ch.sum0, sum1 := ch.sum1 }

/-- The channel with its entropy coder's part replaced. -/
def Channel.withEntropy (e : EntropyState) (ch : Channel) : Channel :=
  { ch with k0 := e.k0, k1 := e.k1, sum0 := e.sum0, sum1 := e.sum1 }

/-- One adaptation: the running sum takes in `v`, and the parameter moves against the watermarks of its value before
(40_entropy_decoder.md R115, R116). Answers the new parameter and the new sum. -/
def adapt (k sum v : Word) : Word × Word :=
  let sum' := config.sumUpdate config.sumDecay sum v
  (config.moveParameter config.watermark k sum', sum')

/-- The code value of a decoded level and suffix value, and the entropy state after it (40_entropy_decoder.md R115, R116,
R118). -/
def adaptValue (ch : Channel) (v : Level × Word) : Word × EntropyState :=
  config.updateOrder adapt config.code.offset v ch.entropy

/-- The code value of a decoded level and suffix value (40_entropy_decoder.md R115, R118). -/
def codeValue (ch : Channel) (v : Level × Word) : Word := (adaptValue ch v).1

/-- `Unmap(v)`: the sign map (40_entropy_decoder.md R117). -/
def unmap (v : Word) : Word := config.signMap v

/-- `EntropyDecode(c)` after `DecodeValue(c)`: the residual and the channel's new state (40_entropy_decoder.md R118). -/
def entropyUpdate (ch : Channel) (v : Level × Word) : Word × Channel :=
  (unmap (adaptValue ch v).1, ch.withEntropy (adaptValue ch v).2)

/-- `EntropyInit(c)` (40_entropy_decoder.md R112). -/
def entropyInit (ch : Channel) : Channel :=
  ch.withEntropy {
    k0 := config.kInit
    k1 := config.kInit
    sum0 := config.initialSum config.watermark config.kInit
    sum1 := config.initialSum config.watermark config.kInit }

end Sys2Proof.Machine
end

