-- ==== Sys2Proof/Machine/Filter.lean ====
section
/-! DEFINITION. The adaptive hybrid filter, stage 1, on a channel (42_hybrid_filter.md R140 to R147): the configured
`FilterInit` and `FilterStep`; the spec's values of both are in FilterRules.lean. -/

namespace Sys2Proof.Machine

/-- The filter's part of a channel (10_state.md R23). -/
def Channel.filter (ch : Channel) : FilterState := { coef := ch.coef, hist := ch.hist, extra := ch.extra }

/-- The channel with its filter's part replaced. -/
def Channel.withFilter (f : FilterState) (ch : Channel) : Channel :=
  { ch with coef := f.coef, hist := f.hist, extra := f.extra }

/-- `FilterStep(c, r)` at shift `shift`: the stage-1 output and the channel's new state (42_hybrid_filter.md R142, R147). -/
def filterStep (shift : Nat) (r : Word) (ch : Channel) : Word × Channel :=
  let out := config.filterStep config.toFilterParameters shift r ch.filter
  (out.1, ch.withFilter out.2)

/-- `FilterInit(c)`: from the key material when `FMT` = 2 (42_hybrid_filter.md R141). -/
def filterInit (s : State) (ch : Channel) : Channel :=
  ch.withFilter (config.filterInit config.toFilterParameters (s.fmt == 2) s.key)

end Sys2Proof.Machine
end

