-- ==== Sys2Proof/Machine/Predictor.lean ====
section
/-! DEFINITION. The fixed order-1 predictor, stage 2 (43_fixed_predictor.md R150 to R153; 90_conflicts.md C1). -/

namespace Sys2Proof.Machine

/-- `sar(PREV·31, 5)`, the shift on the product only (43_fixed_predictor.md R151). -/
def predictorTerm (prev : Word) : Word := sar (prev * 31) 5

/-- `PredStep(c, y)`: the reconstructed value and the channel's new state (43_fixed_predictor.md R151). -/
def predStep (y : Word) (ch : Channel) : Word × Channel :=
  let x := y + predictorTerm ch.prev
  (x, { ch with prev := x })

/-- `PredInit(c)` (43_fixed_predictor.md R150). -/
def predInit (ch : Channel) : Channel := { ch with prev := 0 }

end Sys2Proof.Machine
end

