-- ==== Sys2Proof/Machine/Control.lean ====
section
/-! DEFINITION. FRAME_INIT, RD_RESET, SOFT_RESET and RAW (46_config_control.md R186 to R189). -/

namespace Sys2Proof.Machine

/-- A channel as FRAME_INIT leaves it: `EntropyInit`, `FilterInit`, `PredInit` (46_config_control.md R186). -/
def initChannel (s : State) (ch : Channel) : Channel := predInit (filterInit s (entropyInit ch))

/-- The effect of FRAME_INIT when the configuration is complete (46_config_control.md R186, 10_state.md R45). -/
def openFrame (s : State) : State :=
  let s1 := { s with
    chan := Vector.ofFn fun c => initChannel s s.chan[c]
    cache := Vector.ofFn fun _ => 0
    chanValid := true
    pos := 0
    ch := 0
    count := 0 }
  { clearChecksumFlags (readerReset s1) with phase := .decoding }

/-- `FRAME_INIT` (46_config_control.md R186). -/
def execFrameInit (s : State) : Result :=
  prologue .frameInit s (if configComplete s then .next (openFrame s) else .next (raise .errCfg s))

/-- The effect of RD_RESET (46_config_control.md R187). -/
def restartReader (s : State) : State :=
  { clearChecksumFlags (readerReset s) with count := 0, pos := 0, ch := 0, phase := .idle }

/-- `RD_RESET` (46_config_control.md R187). -/
def execRdReset (s : State) : Result := prologue .rdReset s (.next (restartReader s))

/-- `SOFT_RESET` (46_config_control.md R188). -/
def execSoftReset (s : State) : Result := prologue .softReset s (.next (resetBlock s))

/-- RAW with `left` bytes still to be read (46_config_control.md R189). -/
def passBytes : Nat → State → Run Job Unit
  | 0, s => .done () s
  | left + 1, s =>
    match nextByte s with
    | .notYet => .wait (.raw (left + 1) none) s
    | .failed s' => .failed s'
    | .got b s' =>
      match emitRaw b s' with
      | none => .wait (.raw left (some b)) s'
      | some s'' => passBytes left s''

/-- RAW from wherever it stands: a byte read and not yet emitted goes first (46_config_control.md R189, 20_memory.md R66). -/
def rawFrom (left : Nat) (held : Option Byte) (s : State) : Run Job Unit :=
  match held with
  | none => passBytes left s
  | some b =>
    match emitRaw b s with
    | none => .wait (.raw left (some b)) s
    | some s' => passBytes left s'

/-- `RAW n` (46_config_control.md R189). -/
def execRaw (n : Nat) (s : State) : Result := prologue (.raw n) s (settle (rawFrom n none s))

end Sys2Proof.Machine
end

