-- ==== Sys2Proof/Machine/Checksum.lean ====
section
/-! DEFINITION. The checksum verifier: VERIFY (41_checksum.md R132 to R134). -/

namespace Sys2Proof.Machine

/-- Bytes, least significant first, as one word (20_memory.md R64, 41_checksum.md R132). -/
def littleEndian : List Byte → Word
  | [] => 0
  | b :: bs => b.setWidth Config.wordBits + 256 * littleEndian bs

/-- The trailer byte that the fetched byte gives, with the bit cache after it (20_memory.md R68, 41_checksum.md R132). -/
def trailerByte (fetched : Byte) (s : State) : Byte × State :=
  let read := config.trailerByte s.bcache s.bcount fetched
  (read.1, { s with bcache := read.2.1, bcount := read.2.2 })

/-- The last `left` of the four trailer reads (41_checksum.md R132, 20_memory.md
R68). It waits as the VERIFY of `sum` (the pseudocode's `calc`) that has `got` so far. -/
def readTrailer (sum : Word) : Nat → List Byte → State → Run Job (List Byte)
  | 0, got, s => .done got s
  | left + 1, got, s =>
    match nextByte s with
    | .got b s' => readTrailer sum left (got ++ [(trailerByte b s').1]) (trailerByte b s').2
    | .notYet => .wait (.verify sum got) s
    | .failed s' => .failed s'

/-- The end of VERIFY: the comparison reported, the reader reset, IDLE (41_checksum.md R132, R133). -/
def concludeVerify (sum stored : Word) (s : State) : State :=
  { readerReset (reportChecksum sum stored s) with phase := .idle }

/-- VERIFY with the checksum `sum` taken and the trailer bytes `got` read (41_checksum.md R132). -/
def verifyFrom (sum : Word) (got : List Byte) (s : State) : Run Job Unit :=
  (readTrailer sum (4 - got.length) got s).bind fun bytes s' =>
    .done () (concludeVerify sum (littleEndian (config.trailerOrder bytes)) s')

/-- The operation VERIFY performs, also as the tail of DEC_FRAME: `sum` is taken before the trailer is read
(41_checksum.md R132). -/
def verifyRun (s : State) : Run Job Unit := verifyFrom (s.crc ^^^ config.crcXorOut) [] s

/-- `VERIFY` (41_checksum.md R132). -/
def execVerify (s : State) : Result := prologue .verify s (settle (verifyRun s))

end Sys2Proof.Machine
end

