-- ==== Sys2Proof/Machine/Decorrelator.lean ====
section
/-! DEFINITION. The channel decorrelator and the PCM packer (44_decorrelator_output.md R155 to R161, 20_memory.md R67). -/

namespace Sys2Proof.Machine

/-- `x[k]`, an entry of the step cache (44_decorrelator_output.md R155). The decode commands ask only for entries below
`NCH` ≤ 6 (log entry 10). -/
def cacheAt (x : Vector Word Config.maxNch) (k : Nat) : Word := x[k]?.getD 0

/-- `x[k] <- v` (44_decorrelator_output.md R155). -/
def cacheSet (x : Vector Word Config.maxNch) (k : Nat) (v : Word) : Vector Word Config.maxNch := x.setIfInBounds k v

/-- The loop of `Decorrelate()` for `k` = `n` - 1 down to 0; `x[k+1]` is already updated (44_decorrelator_output.md R156). -/
def differenceDown : Nat → Vector Word Config.maxNch → Vector Word Config.maxNch
  | 0, x => x
  | k + 1, x => differenceDown k (cacheSet x k (cacheAt x (k + 1) - cacheAt x k))

/-- `Decorrelate()` with `N` = `NCH` (44_decorrelator_output.md R156, R157). -/
def decorrelate (n : Nat) (x : Vector Word Config.maxNch) : Vector Word Config.maxNch :=
  if 1 < n then
    differenceDown (n - 1) (cacheSet x (n - 1) (cacheAt x (n - 1) + tdiv2 (cacheAt x (n - 2))))
  else x

/-- The forward transform that `Decorrelate()` inverts (44_decorrelator_output.md R161). Not part of the decoder. -/
def correlate (n : Nat) (x : Vector Word Config.maxNch) : Vector Word Config.maxNch :=
  Vector.ofFn fun k =>
    if k.val + 1 < n then cacheAt x (k.val + 1) - cacheAt x k.val
    else if k.val + 1 = n ∧ 1 < n then cacheAt x k.val - tdiv2 (cacheAt x k.val - cacheAt x (k.val - 1))
    else x[k]

/-- The bytes of `EmitSample(v)`: the low `DEPTH` bytes of the configured fit, in the configured order (20_memory.md R67). -/
def sampleBytes (depth : Nat) (v : Word) : List Byte :=
  config.pcmOrder ((List.range depth).map fun j => (config.pcmFit depth v).extractLsb' (8 * j) 8)

/-- The bytes of `EmitStep()`: the samples of channels 0 to `NCH` - 1 in that order (44_decorrelator_output.md R158). -/
def stepBytes (n depth : Nat) (x : Vector Word Config.maxNch) : List Byte :=
  (List.range n).flatMap fun c => sampleBytes depth (cacheAt x c)

end Sys2Proof.Machine
end

