-- ==== Sys2Proof/Machine/Decoding.lean ====
section
/-! DEFINITION. The decode commands DEC_SAMPLE, DEC_STEP and DEC_FRAME (45_frame_sequencing.md R166 to R173). -/

namespace Sys2Proof.Machine

/-- The state of channel `c` (10_state.md R23). The decode commands ask only for channels below `NCH` ≤ 6 (log entry 10). -/
def channelAt (s : State) (c : Nat) : Channel := s.chan[c]?.getD Channel.atReset

/-- The three stages on one channel: entropy update, filter, predictor; answers the stage-2 output and the channel's new
state (45_frame_sequencing.md R166). -/
def sampleStages (shift : Nat) (v : Level × Word) (ch : Channel) : Word × Channel :=
  let stage0 := entropyUpdate ch v
  let stage1 := filterStep shift stage0.1 stage0.2
  predStep stage1.1 stage1.2

/-- The channel's new state and its cache entry, written (45_frame_sequencing.md R166, 44_decorrelator_output.md R155). -/
def storeSample (v : Level × Word) (s : State) : State :=
  let c := s.ch.toNat
  let out := sampleStages (shiftOf s) v (channelAt s c)
  { s with chan := s.chan.setIfInBounds c out.2, cache := cacheSet s.cache c out.1 }

/-- The end of a completed time-step: `CH <- 0`, `POS <- POS + 1`, FRAME_END when `POS` = `FLEN`
(45_frame_sequencing.md R166). -/
def closeTimeStep (s : State) : State :=
  { s with ch := 0, pos := s.pos + 1, phase := if s.pos + 1 = s.flen then .frameEnd else s.phase }

/-- The bytes of the time-step emitted, then the time-step closed (45_frame_sequencing.md R166). -/
def emitAndClose (bytes : List Byte) (s : State) : Run Point Unit :=
  match emitPcm bytes s with
  | ([], s') => .done () (closeTimeStep s')
  | (b :: rest, s') => .wait (.emit (b :: rest)) s'

/-- `CACHE` decorrelated over the `NCH` channels (44_decorrelator_output.md R156). -/
def decorrelateCache (s : State) : State := { s with cache := decorrelate s.nch.toNat s.cache }

/-- DEC_SAMPLE after `DecodeValue`: the stages, then the next channel or the end of the time-step
(45_frame_sequencing.md R166). -/
def afterValue (v : Level × Word) (s : State) : Run Point Unit :=
  let s1 := storeSample v s
  if s.ch.toNat + 1 < s.nch.toNat then .done () { s1 with ch := s1.ch + 1 }
  else
    let s2 := decorrelateCache s1
    emitAndClose (stepBytes s2.nch.toNat (depthOf s2) s2.cache) s2

/-- The body of DEC_SAMPLE from the place `p` (45_frame_sequencing.md R166); a fresh body starts at `.unary 0`. -/
def decBody (p : Point) (s : State) : Run Point Unit :=
  if geometryOk s then
    match p with
    | .unary u => (decodeValue (channelAt s s.ch.toNat) u s).bind afterValue
    | .suffix level a left i acc => (readSuffix level a left i acc s).bind afterValue
    | .emit rest => emitAndClose rest s
  else .stuck .noSuchGeometry

/-- The time-steps still to be completed after a DEC_SAMPLE body: one fewer when it completed one
(45_frame_sequencing.md R167). `none`: no bound but the end of the frame (R168). -/
def countStep (bound : Option Nat) (s : State) : Option Nat := if s.ch = 0 then bound.map (· - 1) else bound

/-- The loop of DEC_STEP and DEC_FRAME, "one parameterized inner loop taking a termination predicate"
(44_decorrelator_output.md R159, 45_frame_sequencing.md R167, R168). The first argument bounds it; every body takes at least
one bit, so `bitsAvail s + 1` is always enough. -/
def decLoop : Nat → Option Nat → State → Run (Option Nat × Point) Unit
  | 0, bound, s => .wait (bound, .unary 0) s
  | n + 1, bound, s =>
    if bound = some 0 ∨ s.phase ≠ .decoding then .done () s
    else ((decBody (.unary 0) s).mapWait fun p => (bound, p)).bind fun _ s' => decLoop n (countStep bound s') s'

/-- The decode loop of a command, from its start (45_frame_sequencing.md R167, R168). -/
def decRun (bound : Option Nat) (s : State) : Run (Option Nat × Point) Unit := decLoop (bitsAvail s + 1) bound s

/-- The decode loop of a command that waited at `p` inside a body (20_memory.md R61(b)). -/
def decResume (bound : Option Nat) (p : Point) (s : State) : Run (Option Nat × Point) Unit :=
  ((decBody p s).mapWait fun q => (bound, q)).bind fun _ s' => decRun (countStep bound s') s'

/-- The place of a waiting decode loop: in DEC_STEP when the loop is bounded, in DEC_FRAME when not. -/
def loopJob : Option Nat × Point → Job
  | (some left, p) => .steps left p
  | (none, p) => .frame p

/-- DEC_FRAME's decode loop, then its VERIFY (45_frame_sequencing.md R168). -/
def thenVerify (r : Run (Option Nat × Point) Unit) : Run Job Unit := (r.mapWait loopJob).bind fun _ s' => verifyRun s'

/-- `DEC_SAMPLE` (45_frame_sequencing.md R166). -/
def execDecSample (s : State) : Result := prologue .decSample s (settle ((decBody (.unary 0) s).mapWait .sample))

/-- `DEC_STEP n` (45_frame_sequencing.md R167). -/
def execDecStep (n : Nat) (s : State) : Result := prologue (.decStep n) s (settle ((decRun (some n) s).mapWait loopJob))

/-- `DEC_FRAME` (45_frame_sequencing.md R168). -/
def execDecFrame (s : State) : Result := prologue .decFrame s (settle (thenVerify (decRun none s)))

end Sys2Proof.Machine
end

