-- ==== Sys2Proof/Machine/Dispatch.lean ====
section
/-! DEFINITION. One arm per command (30_encoding.md R82). -/

namespace Sys2Proof.Machine

def exec (i : Instr) (s : State) : Host.Outcome State Fault Refusal :=
  match i with
  | .nop => Sys2Proof.Machine.execNop s
  | .cfgNch n => Sys2Proof.Machine.execCfgNch n s
  | .cfgBps b => Sys2Proof.Machine.execCfgBps b s
  | .cfgFmt f => Sys2Proof.Machine.execCfgFmt f s
  | .cfgKey k d => Sys2Proof.Machine.execCfgKey k d s
  | .cfgFlen n => Sys2Proof.Machine.execCfgFlen n s
  | .frameInit => Sys2Proof.Machine.execFrameInit s
  | .decSample => Sys2Proof.Machine.execDecSample s
  | .decStep n => Sys2Proof.Machine.execDecStep n s
  | .decFrame => Sys2Proof.Machine.execDecFrame s
  | .verify => Sys2Proof.Machine.execVerify s
  | .raw n => Sys2Proof.Machine.execRaw n s
  | .rdReset => Sys2Proof.Machine.execRdReset s
  | .softReset => Sys2Proof.Machine.execSoftReset s

end Sys2Proof.Machine
end

