-- ==== Sys2Proof/Machine/Resume.lean ====
section
/-! DEFINITION. A command in flight, taken up again where it waits (20_memory.md R61(b), R66). -/

namespace Sys2Proof.Machine

/-- The rest of the command that waits at `j`; if what it waits for is still missing, it waits at the same place with all
state as it was (20_memory.md R61(b)). -/
def resume (j : Job) (s : State) : Result :=
  match j with
  | .sample p => settle ((decBody p s).mapWait .sample)
  | .steps left p => settle ((decResume (some left) p s).mapWait loopJob)
  | .frame p => settle (thenVerify (decResume none p s))
  | .verify sum got => settle (verifyFrom sum got s)
  | .raw left held => settle (rawFrom left held s)

end Sys2Proof.Machine
end

