-- ==== Sys2Proof/Machine/Step.lean ====
section
/-! DEFINITION. One step of the block: the execution of one command word to completion (00_scope.md R5), or up to a wait. -/

namespace Sys2Proof.Machine

/-- One step, in this order: an asserted hardware reset (70_reset_and_hazards.md R230); the rest of a command in flight
(20_memory.md R61(b)); the next command word, an illegal one raising `ERR_CMD` (46_config_control.md R190 step 1). With
nothing to do the state stays as it is (log entry 6). -/
def step (s : State) : Host.Outcome State Fault Refusal :=
  if s.resetReq then .next (hardwareReset s)
  else
    match s.inFlight with
    | some j => resume j { s with inFlight := none }
    | none =>
      match fetchCommand s with
      | none => .next s
      | some (w, s') =>
        match decode w with
        | .command i => exec i s'
        | .illegal _ => .next (raise .errCmd s')

/-- The 32-bit command word `w` placed where the next step takes it (log entry 12). -/
def State.withFetchWord (s : State) (nbits w : Nat) : State := placeCommand (BitVec.ofNat 32 (w % 2 ^ nbits)) s

end Sys2Proof.Machine
end

