-- ==== Sys2Proof/Machine/HostPort.lean ====
section
/-! DEFINITION. What the host can do between steps (00_scope.md R5, 20_memory.md R60, R74). None of these is a step of the
block. -/

namespace Sys2Proof.Machine

/-- A command word supplied, after those already supplied (20_memory.md R60, R71(a)). -/
def hostCommand (w : Word) (s : State) : State := { s with cmd := s.cmd ++ [w] }

/-- The byte source's next answers become available (20_memory.md R61). -/
def hostSupply (items : List SrcItem) (s : State) : State := { s with inp := s.inp ++ items }

/-- The byte source repositioned, or bytes taken from it: only between commands (20_memory.md R74,
70_reset_and_hazards.md R241). -/
def hostReposition (items : List SrcItem) (s : State) : Option State :=
  if s.inFlight = none then some { s with inp := items } else none

/-- The oldest `n` bytes of `PCM` drained (00_scope.md R5). -/
def hostDrainPcm (n : Nat) (s : State) : State := { s with pcm := s.pcm.drop n }

/-- The oldest `n` bytes of `RAWOUT` drained (00_scope.md R5). -/
def hostDrainRaw (n : Nat) (s : State) : State := { s with rawOut := s.rawOut.drop n }

/-- How many more bytes the sinks take; `none`: always ready (20_memory.md R66). Log entry 8. -/
def hostGrant (pcmRoom rawRoom : Option Nat) (s : State) : State := { s with pcmRoom := pcmRoom, rawRoom := rawRoom }

/-- The hardware reset input asserted (70_reset_and_hazards.md R230). Log entry 9. -/
def hostAssertReset (s : State) : State := { s with resetReq := true }

end Sys2Proof.Machine
end

