-- ==== Sys2Proof/Machine/RegisterMap.lean ====
section
/-! DEFINITION. The register read port (10_state.md R41, R42). It has no side effect and no write path; the key and the bit
cache are not in it (10_state.md R34, R36). -/

namespace Sys2Proof.Machine

/-- An element that a reset leaves unspecified: its value once FRAME_INIT has written it, any value before, not necessarily the
same for two reads (10_state.md R42, R45). `serial` numbers the reads. Log entry 4. -/
def unspecifiedUntilInit (serial ix : Nat) (s : State) (v : Word) : Word :=
  if s.chanValid then v else Config.freeRead serial ix

/-- The words of channel `c`'s block of the map, at offset `off`; `none` at a reserved offset (10_state.md R41). -/
def channelWord (ch : Channel) (off : Nat) : Option Word :=
  if off = 0 then some ch.k0
  else if off = 1 then some ch.k1
  else if off = 2 then some ch.sum0
  else if off = 3 then some ch.sum1
  else if off = 4 then some ch.prev
  else if off < 0x08 then none
  else if off < 0x10 then ch.coef[off - 0x08]?
  else if off < 0x18 then ch.hist[off - 0x10]?
  else none

/-- The word at map index `ix`; reserved indices read as 0 (10_state.md R41). -/
def registerWord (serial ix : Nat) (s : State) : Word :=
  if ix = 0x00 then statusWord s
  else if ix = 0x01 then s.nch.setWidth 32
  else if ix = 0x02 then s.bps.setWidth 32
  else if ix = 0x03 then s.fmt.setWidth 32
  else if ix = 0x04 then s.flen.setWidth 32
  else if ix = 0x05 then s.pos.setWidth 32
  else if ix = 0x06 then s.ch.setWidth 32
  else if ix = 0x07 then s.count
  else if ix = 0x08 then s.crc
  else if ix = 0x09 then s.crcCalc
  else if ix = 0x0A then s.crcStored
  else if ix = 0x0B then BitVec.ofNat 32 (depthOf s)
  else if ix = 0x0C then (if legalBps s.bps.toNat then BitVec.ofNat 32 (shiftOf s) else 0)
  else if ix < 0x10 then 0
  else if ix < 0x16 then unspecifiedUntilInit serial ix s (cacheAt s.cache (ix - 0x10))
  else if ix < 0x40 then 0
  else if ix < 0x100 then
    match channelWord (channelAt s ((ix - 0x40) / 0x20)) ((ix - 0x40) % 0x20) with
    | some v => unspecifiedUntilInit serial ix s v
    | none => 0
  else 0

/-- A register read: answered only between commands (10_state.md R42, 70_reset_and_hazards.md R246). Log entry 11. -/
def registerRead (serial ix : Nat) (s : State) : Option Word :=
  if s.inFlight = none then some (registerWord serial ix s) else none

end Sys2Proof.Machine
end

