-- ==== Sys2Proof/Safety.lean ====
section
/-! DEFINITION. What the claims are stated in: the invariant of every run, the bits a stream spells, and the pieces of a
command's frame. Nothing in the machine uses these. -/

namespace Sys2Proof.Machine

/-! ## The invariant -/

/-- Where a DEC_SAMPLE body can wait in state `s`: in its emission only on the last channel of a time-step
(45_frame_sequencing.md R166). -/
def pointFits (p : Point) (s : State) : Prop :=
  match p with
  | .unary _ => True
  | .suffix _ _ _ _ _ => True
  | .emit _ => s.ch.toNat + 1 = s.nch.toNat

/-- A command that can be waiting in state `s`: in a phase that accepts it, at a place its pseudocode has
(46_config_control.md R190). -/
def jobFits (j : Job) (s : State) : Prop :=
  match j with
  | .sample p => s.phase = .decoding ∧ pointFits p s
  | .steps _ p => s.phase = .decoding ∧ pointFits p s
  | .frame p => s.phase = .decoding ∧ pointFits p s
  | .verify _ got => (s.phase = .idle ∨ s.phase = .frameEnd) ∧ got.length ≤ 3
  | .raw _ _ => s.phase = .idle

/-- What holds in every state a run reaches (10_state.md R28 to R36, 45_frame_sequencing.md R165). -/
structure Inv (s : State) : Prop where
  /-- `NCH` is 0 or legal (10_state.md R31). -/
  nch_legal : s.nch = 0 ∨ (1 ≤ s.nch.toNat ∧ s.nch.toNat ≤ 6)
  /-- `BPS` is 0 or legal (10_state.md R32). -/
  bps_legal : s.bps = 0 ∨ (16 ≤ s.bps.toNat ∧ s.bps.toNat ≤ 24)
  /-- `FMT` is 0 or legal (10_state.md R33). -/
  fmt_legal : s.fmt ≠ 3
  /-- A key byte not written since the last reset or `CFG_FMT 1` is 0 (10_state.md R34). -/
  key_masked : ∀ i : Fin 8, s.keymask.getLsbD i.val = false → s.key[i] = 0
  /-- `BCOUNT` is 0 to 7 between operations (10_state.md R36). -/
  bits_left : s.bcount.toNat ≤ 7
  /-- `BCACHE[BCOUNT-1:0]` are the unread bits and nothing lies above them (10_state.md R36, 20_memory.md R63). -/
  cache_bits : s.bcache.toNat < 2 ^ s.bcount.toNat
  /-- `BCOUNT` = 0 whenever `PHASE` = IDLE (10_state.md R36). -/
  idle_aligned : s.phase = .idle → s.bcount = 0
  /-- An open frame has a complete configuration (45_frame_sequencing.md R165). -/
  open_configured : s.phase = .decoding ∨ s.phase = .frameEnd → configComplete s = true ∧ s.chanValid = true
  /-- In DECODING, `CH` < `NCH` and `POS` < `FLEN` (10_state.md R28, R29). -/
  decoding_inside : s.phase = .decoding → s.ch.toNat < s.nch.toNat ∧ s.pos.toNat < s.flen.toNat
  /-- In FRAME_END all `FLEN` time-steps are done (10_state.md R29). -/
  frame_end_at_end : s.phase = .frameEnd → s.ch = 0 ∧ s.pos = s.flen
  /-- HALT is entered only with `ERR_IO` (60_exceptions.md R205). -/
  halt_reported : s.phase = .halt → s.errIo = true
  /-- At most one of `CRC_OK`, `CRC_ERR` (10_state.md R30). -/
  one_result : ¬(s.crcOk = true ∧ s.crcErr = true)
  /-- A command in flight is one that can be waiting here. -/
  flight_fits : ∀ j, s.inFlight = some j → jobFits j s

/-- How far a code parameter of channel `c` can have risen in the open frame: one for each value of that channel decoded since
FRAME_INIT (10_state.md R27). -/
def valuesDecoded (c : Nat) (s : State) : Nat :=
  s.pos.toNat
    + (match s.inFlight with
       | some (.sample (.emit _)) | some (.steps _ (.emit _)) | some (.frame (.emit _)) => 1
       | _ => if c < s.ch.toNat then 1 else 0)

/-- In an open frame no code parameter exceeds 10 plus the number of values decoded for its channel (10_state.md R27). -/
def ParametersBounded (s : State) : Prop :=
  s.phase = .decoding ∨ s.phase = .frameEnd →
    ∀ c : Fin 6, s.chan[c].k0.toNat ≤ 10 + valuesDecoded c.val s ∧ s.chan[c].k1.toNat ≤ 10 + valuesDecoded c.val s

/-! ## The bits of the stream -/

/-- The `n` low bits of a byte in the order the reader takes them, bit 0 first (20_memory.md R63). -/
def lowBits (n : Nat) (b : Byte) : List Bool := (List.range n).map b.getLsbD

/-- The bits the waiting answers of the source hold, up to its first failure (20_memory.md R61, R63). -/
def sourceBits : List SrcItem → List Bool
  | [] => []
  | .byte b :: rest => lowBits 8 b ++ sourceBits rest
  | .failure :: _ => []

/-- The bits that `NextBit` can still deliver (20_memory.md R63, 10_state.md R36). -/
def unreadBits (s : State) : List Bool := lowBits s.bcount.toNat s.bcache ++ sourceBits s.inp

/-- The value of a binary field, first bit lowest (30_encoding.md R90, 40_entropy_decoder.md R111). -/
def fieldValue : List Bool → Nat
  | [] => 0
  | b :: bs => b.toNat + 2 * fieldValue bs

/-- The level of a codeword with `u` one-bits in its prefix (30_encoding.md R90, R91). -/
def levelOf (u : Nat) : Level := if u = 0 then .zero else .one

/-- The width of the suffix of a codeword with `u` one-bits in its prefix (30_encoding.md R90, R91). -/
def suffixWidth (ch : Channel) (u : Nat) : Nat := if u = 0 then ch.k0.toNat else ch.k1.toNat

/-- A codeword: `u` one-bits, a zero-bit, a suffix (30_encoding.md R90, R91). -/
def codeword (u : Nat) (suffix : List Bool) : List Bool := List.replicate u true ++ false :: suffix

/-- The value a codeword spells before the `2^K0` offset: `(u-1)·2^k + suffix`, modulo 2^32 (30_encoding.md R90, R91). -/
def spelled (u : Nat) (suffix : List Bool) : Word :=
  BitVec.ofNat 32 ((u - 1) * 2 ^ suffix.length + fieldValue suffix)

/-- Bits that stop inside a codeword of channel `ch` (30_encoding.md R92). -/
def shortOfCodeword (ch : Channel) (bits : List Bool) : Prop :=
  (∃ u, bits = List.replicate u true) ∨
    ∃ u suffix, bits = codeword u suffix ∧ u < 2 ^ 32 ∧ suffix.length < suffixWidth ch u

/-! ## Pieces of a frame -/

/-- Bytes as the source delivers them. -/
def delivered (bytes : List Byte) : List SrcItem := bytes.map .byte

/-- `CRC` after the bytes have been consumed (20_memory.md R61(a)). -/
def crcAfter (crc : Word) (bytes : List Byte) : Word := bytes.foldl crcStep crc

/-- `t` is `s` after `bytes` have been read from `IN`, with what the bit cache then holds; nothing else differs
(20_memory.md R61(a), R62, R63). -/
def readFrom (s t : State) (bytes : List Byte) : Prop :=
  s.inp = delivered bytes ++ t.inp ∧
    t = { s with
          inp := t.inp, crc := crcAfter s.crc bytes, count := s.count + BitVec.ofNat 32 bytes.length,
          bcache := t.bcache, bcount := t.bcount }

/-- The sink takes `n` more bytes without a wait, and has `room'` left (20_memory.md R66). -/
def roomFor (room : Option Nat) (n : Nat) (room' : Option Nat) : Prop :=
  (room = none ∧ room' = none) ∨ ∃ r, room = some (r + n) ∧ room' = some r

/-- A sink's room when the host makes more: `n` bytes more, or (`none`) always ready from now on (20_memory.md R66). -/
def moreRoom (more room : Option Nat) : Option Nat :=
  match more, room with
  | some n, some r => some (r + n)
  | _, _ => none

/-- The host makes more room in both sinks and supplies more answers of the source (20_memory.md R61(b), R66). -/
def hostProvides (pcmMore rawMore : Option Nat) (items : List SrcItem) (s : State) : State :=
  hostSupply items (hostGrant (moreRoom pcmMore s.pcmRoom) (moreRoom rawMore s.rawRoom) s)

/-- The bytes of the time-step that the value `v` completes (45_frame_sequencing.md R166). -/
def timeStepBytes (v : Level × Word) (s : State) : List Byte :=
  stepBytes s.nch.toNat (depthOf s) (decorrelate s.nch.toNat (storeSample v s).cache)

/-- `s` after the rest of a DEC_SAMPLE body on the value `v`, its emission included: the stages on channel `CH`, then the
next channel, or the time-step decorrelated, emitted and closed (45_frame_sequencing.md R166). -/
def afterSample (v : Level × Word) (s : State) : State :=
  if s.ch.toNat + 1 < s.nch.toNat then { storeSample v s with ch := s.ch + 1 }
  else
    closeTimeStep { storeSample v s with
      cache := decorrelate s.nch.toNat (storeSample v s).cache, pcm := s.pcm ++ timeStepBytes v s }

/-- `s` after DEC_SAMPLE bodies on these codewords in turn, each given as its count of one-bits and its suffix
(45_frame_sequencing.md R166). -/
def afterCodewords : List (Nat × List Bool) → State → State
  | [], s => s
  | (u, suffix) :: rest, s => afterCodewords rest (afterSample (levelOf u, spelled u suffix) s)

/-- Each of these codewords has the suffix width of the channel whose turn it is, at the parameters the codewords before it
leave (30_encoding.md R90 to R93). -/
def codewordsFit : List (Nat × List Bool) → State → Prop
  | [], _ => True
  | (u, suffix) :: rest, s =>
    (u < 2 ^ 32 ∧ suffix.length = suffixWidth (channelAt s s.ch.toNat) u) ∧
      codewordsFit rest (afterSample (levelOf u, spelled u suffix) s)

/-- The bits of these codewords, one after another (30_encoding.md R93). -/
def codewordBits (cws : List (Nat × List Bool)) : List Bool := cws.flatMap fun c => codeword c.1 c.2

/-- Where a code parameter `k` stands after a running sum `sum`: one lower below its low watermark `2^min(k+4,31)`, one higher
above its high watermark `2^min(k+5,31)`, never below zero (40_entropy_decoder.md R113, R115, R116). -/
def parameterAfter (k sum : Nat) : Nat :=
  if 0 < k ∧ sum < 2 ^ min (k + 4) 31 then k - 1
  else if 2 ^ min (k + 5) 31 < sum then (k + 1) % 2 ^ 32
  else k

/-- A running sum after it has taken in `v`: `sum + v - floor(sum / 16)`, modulo 2^32 (40_entropy_decoder.md R115, R116). -/
def sumAfter (sum v : Word) : Word := BitVec.ofNat 32 (sum.toNat + v.toNat + 2 ^ 32 - sum.toNat / 16)

/-- What a step in coefficient `i` is: +1 where the residual and the history entry have the same non-zero sign, -1 where they
have opposite ones, 0 where either is zero (42_hybrid_filter.md R143(b)). -/
def coefficientMove (r h : Word) : Word :=
  if (0 < r.toInt ∧ 0 < h.toInt) ∨ (r.toInt < 0 ∧ h.toInt < 0) then 1
  else if (0 < r.toInt ∧ h.toInt < 0) ∨ (r.toInt < 0 ∧ 0 < h.toInt) then -1
  else 0

/-- The configuration FRAME_INIT asks for, register by register (46_config_control.md R186). -/
def completeConfiguration (s : State) : Prop :=
  (1 ≤ s.nch.toNat ∧ s.nch.toNat ≤ 6) ∧ (16 ≤ s.bps.toNat ∧ s.bps.toNat ≤ 24) ∧ (s.fmt = 1 ∨ s.fmt = 2) ∧
    1 ≤ s.flen.toNat ∧ (s.fmt = 1 ∨ s.keymask = 0xFF)

/-- `NCH`, `CH` and `BPS` as they are in every open frame (45_frame_sequencing.md R165). -/
def insideFrame (s : State) : Prop :=
  s.ch.toNat < s.nch.toNat ∧ s.nch.toNat ≤ 6 ∧ (16 ≤ s.bps.toNat ∧ s.bps.toNat ≤ 24)

/-- The next step is no reset: none is asked for, and a SOFT_RESET word is not what is taken up
(70_reset_and_hazards.md R230). -/
def noResetNext (s : State) : Prop :=
  s.resetReq = false ∧ (s.inFlight = none → ∀ rest, s.cmd ≠ 0xF0000000 :: rest)

/-- The six configuration registers are the same (46_config_control.md R190). -/
def sameConfig (s t : State) : Prop :=
  s.nch = t.nch ∧ s.bps = t.bps ∧ s.fmt = t.fmt ∧ s.flen = t.flen ∧ s.key = t.key ∧ s.keymask = t.keymask

end Sys2Proof.Machine
end

