-- ==== Sys2Proof/Certificates/Slice0/Obligations.lean ====
section
/-! DEFINITION. The statements for the provers. -/

open Sys2Proof Sys2Proof.Machine

/-! ## Encoding -/

/-- The decoder inverts the encoder on every well-formed command (30_encoding.md R80, R81, R82). -/
def Obligations.DecodeInvertsEncode : Prop :=
  ∀ i : Instr, i.wellFormed = true → decode (encode i) = .command i

/-- The encoder inverts the decoder on every legal word, so no two words are one command (30_encoding.md R80, R82). -/
def Obligations.EncodeInvertsDecode : Prop :=
  ∀ (w : Word) (i : Instr), decode w = .command i → i.wellFormed = true ∧ encode i = w

/-- A word is legal exactly when it matches a row of the opcode map, it is then that row's command, and no word matches two
rows (30_encoding.md R82, R84). -/
def Obligations.LegalExactlyWhenARowMatches : Prop :=
  ∀ w : Word,
    (∀ i, decode w = .command i → ∃ r ∈ opcodeMap, r.matchesWord w = true ∧ r.mnemonic = i.mnemonic) ∧
    (∀ r ∈ opcodeMap, r.matchesWord w = true → ∃ i, decode w = .command i ∧ i.mnemonic = r.mnemonic) ∧
    (∀ r ∈ opcodeMap, ∀ r' ∈ opcodeMap, r.matchesWord w = true → r'.matchesWord w = true → r = r')

/-- The example words of 30_encoding.md R86 are the commands it prints. -/
def Obligations.PrintedWordsDecode : Prop :=
  decode 0x10000002 = .command (.cfgNch 2) ∧ decode 0x20000018 = .command (.cfgBps 24) ∧
    decode 0x40000380 = .command (.cfgKey 3 0x80) ∧ decode 0x5000B400 = .command (.cfgFlen 46080) ∧
    decode 0x80000005 = .command (.decStep 5) ∧ decode 0xB0000012 = .command (.raw 18)

/-! ## The step -/

/-- A step with no reset asked for and nothing in flight takes the next command word off `CMD` and is its meaning (00_scope.md
R5, 20_memory.md R71). `CMD` as a list, the command in flight and the reset input are the model's form (log entries 5, 7, 9).
-/
def Obligations.StepRunsTheDecodedCommand : Prop :=
  ∀ (s : State) (w : Word) (rest : List Word) (i : Instr),
    s.resetReq = false → s.inFlight = none → s.cmd = w :: rest → decode w = .command i →
      step s = exec i { s with cmd := rest }

/-- A word that matches no row sets `ERR_CMD` and changes nothing else, in every phase (30_encoding.md R85). `CMD` as a list,
the command in flight and the reset input are the model's form (log entries 5, 7, 9). -/
def Obligations.IllegalWordOnlySetsErrCmd : Prop :=
  ∀ (s : State) (w : Word) (rest : List Word),
    s.resetReq = false → s.inFlight = none → s.cmd = w :: rest → (∀ r ∈ opcodeMap, r.matchesWord w = false) →
      step s = .next { s with cmd := rest, errCmd := true }

/-- A command that waits keeps all state as it was until the host acts (20_memory.md R61(b), 60_exceptions.md R206). That a
wait is a step that changes nothing is the model's form of it (log entry 5). -/
def Obligations.WaitingKeepsAllState : Prop :=
  ∀ s t : State, s.resetReq = false → step s = .next t → t.inFlight ≠ none → step t = .next t

/-- A command that waits, for a byte or for room in a sink, and then gets bytes, room or both goes on as if they had been
there from the start: how the source times its bytes and when a sink is ready changes no result, and no byte is dropped or
repeated by a wait (20_memory.md R61(b), R66). That a wait is a step, and room as a count, are the model's form of it (log
entries 5, 8). -/
def Obligations.WaitingChangesNoResult : Prop :=
  ∀ (s t : State) (pcmMore rawMore : Option Nat) (items : List SrcItem),
    s.resetReq = false → step s = .next t → t.inFlight ≠ none →
      step (hostProvides pcmMore rawMore items t) = step (hostProvides pcmMore rawMore items s)

/-- A hardware reset abandons the command in flight and has the effect of SOFT_RESET; bytes consumed and emitted stay so
(70_reset_and_hazards.md R230). How the reset input is answered is the model's choice (log entry 9). -/
def Obligations.HardwareResetIsSoftReset : Prop :=
  ∀ s : State, s.resetReq = true →
    ∃ t, step s = .next { t with resetReq := false } ∧ exec .softReset s = .next t ∧ t.inFlight = none ∧
      t.inp = s.inp ∧ t.pcm = s.pcm ∧ t.rawOut = s.rawOut

/-! ## The prologue -/

/-- In HALT every command but SOFT_RESET sets `ERR_CMD` and does nothing more (46_config_control.md R190 step 3). -/
def Obligations.HaltAcceptsOnlySoftReset : Prop :=
  ∀ (i : Instr) (s : State), s.phase = .halt → i ≠ .softReset → exec i s = .next { s with errCmd := true }

/-- In a phase whose column of the legality table says `ERR_CMD` a command sets that flag and does nothing more, whatever its
operand (46_config_control.md R190 step 4). -/
def Obligations.RefusedPhaseOnlySetsErrCmd : Prop :=
  ∀ s : State,
    (s.phase ≠ .idle → ∀ n k : Nat, ∀ i ∈ [Instr.raw n, .cfgNch n, .cfgBps n, .cfgFmt n, .cfgKey k n, .cfgFlen n],
      exec i s = .next { s with errCmd := true }) ∧
    (s.phase ≠ .decoding → ∀ n : Nat, ∀ i ∈ [Instr.decSample, .decStep n],
      exec i s = .next { s with errCmd := true }) ∧
    (s.phase ≠ .decoding → s.phase ≠ .frameEnd → exec .decFrame s = .next { s with errCmd := true }) ∧
    (s.phase ≠ .idle → s.phase ≠ .frameEnd → exec .verify s = .next { s with errCmd := true }) ∧
    (s.phase = .halt → ∀ i ∈ [Instr.nop, .frameInit, .rdReset], exec i s = .next { s with errCmd := true })

/-! ## Configuration commands -/

/-- NOP changes no state in IDLE, DECODING and FRAME_END, and raises `ERR_CMD` in HALT (46_config_control.md R180). -/
def Obligations.NopChangesNothing : Prop :=
  decode 0x00000000 = .command .nop ∧
  ∀ s : State, (s.phase ≠ .halt → exec .nop s = .next s) ∧
    (s.phase = .halt → exec .nop s = .next { s with errCmd := true })

/-- CFG_NCH writes `NCH` with a legal value, or only sets `ERR_CFG` (46_config_control.md R181). -/
def Obligations.CfgNchWritesLegalCounts : Prop :=
  (∀ n < 2 ^ 4, decode (BitVec.ofNat 32 (0x10000000 + n)) = .command (.cfgNch n)) ∧
  ∀ (n : Nat) (s : State),
    (s.phase = .idle → 1 ≤ n → n ≤ 6 →
      ∃ t, exec (.cfgNch n) s = .next t ∧ t.nch.toNat = n ∧ t = { s with nch := t.nch }) ∧
    (s.phase = .idle → n = 0 ∨ 7 ≤ n → exec (.cfgNch n) s = .next { s with errCfg := true }) ∧
    (s.phase ≠ .idle → exec (.cfgNch n) s = .next { s with errCmd := true })

/-- CFG_BPS writes `BPS` with a legal value, `DEPTH` and `SHIFT` following at once, or only sets `ERR_CFG`
(46_config_control.md R182, 10_state.md R21). -/
def Obligations.CfgBpsWritesLegalWidths : Prop :=
  (∀ b < 2 ^ 6, decode (BitVec.ofNat 32 (0x20000000 + b)) = .command (.cfgBps b)) ∧
  ∀ (b : Nat) (s : State),
    (s.phase = .idle → 16 ≤ b → b ≤ 24 →
      ∃ t, exec (.cfgBps b) s = .next t ∧ t.bps.toNat = b ∧ t = { s with bps := t.bps } ∧
        depthOf t = (b + 7) / 8 ∧ shiftOf t = if depthOf t = 2 then 9 else 10) ∧
    (s.phase = .idle → b ≤ 15 ∨ 25 ≤ b → exec (.cfgBps b) s = .next { s with errCfg := true }) ∧
    (s.phase ≠ .idle → exec (.cfgBps b) s = .next { s with errCmd := true })

/-- CFG_FMT 1 clears the key, CFG_FMT 2 keeps it, any other value only sets `ERR_CFG` (46_config_control.md R183). -/
def Obligations.CfgFmtSelectsTheFormat : Prop :=
  (∀ f < 2 ^ 2, decode (BitVec.ofNat 32 (0x30000000 + f)) = .command (.cfgFmt f)) ∧
  ∀ s : State,
    (s.phase = .idle →
      ∃ t, exec (.cfgFmt 1) s = .next t ∧ (∀ i : Fin 8, t.key[i] = 0) ∧
        t = { s with fmt := 1, key := t.key, keymask := 0 }) ∧
    (s.phase = .idle → exec (.cfgFmt 2) s = .next { s with fmt := 2 }) ∧
    (s.phase = .idle → ∀ f, f ≠ 1 → f ≠ 2 → exec (.cfgFmt f) s = .next { s with errCfg := true }) ∧
    (s.phase ≠ .idle → ∀ f, exec (.cfgFmt f) s = .next { s with errCmd := true })

/-- CFG_KEY writes one key byte and sets one bit of `KEYMASK`, for every index and byte (46_config_control.md R184). -/
def Obligations.CfgKeyWritesOneByte : Prop :=
  (∀ k < 2 ^ 3, ∀ d < 2 ^ 8, decode (BitVec.ofNat 32 (0x40000000 + 256 * k + d)) = .command (.cfgKey k d)) ∧
  ∀ (k : Fin 8) (d : Nat) (s : State), d < 2 ^ 8 →
    (s.phase = .idle →
      ∃ t, exec (.cfgKey k.val d) s = .next t ∧
        (∀ i : Fin 8, t.key[i] = if i = k then BitVec.ofNat 8 d else s.key[i]) ∧
        (∀ i : Fin 8, t.keymask.getLsbD i.val = (s.keymask.getLsbD i.val || decide (i = k))) ∧
        t = { s with key := t.key, keymask := t.keymask }) ∧
    (s.phase ≠ .idle → exec (.cfgKey k.val d) s = .next { s with errCmd := true })

/-- CFG_FLEN writes `FLEN` with a value of at least 1, or only sets `ERR_CFG` (46_config_control.md R185). -/
def Obligations.CfgFlenWritesPositiveLengths : Prop :=
  (∀ n < 2 ^ 28, decode (BitVec.ofNat 32 (0x50000000 + n)) = .command (.cfgFlen n)) ∧
  ∀ (n : Nat) (s : State), n < 2 ^ 28 →
    (s.phase = .idle → 1 ≤ n →
      ∃ t, exec (.cfgFlen n) s = .next t ∧ t.flen.toNat = n ∧ t = { s with flen := t.flen }) ∧
    (s.phase = .idle → n = 0 → exec (.cfgFlen n) s = .next { s with errCfg := true }) ∧
    (s.phase ≠ .idle → exec (.cfgFlen n) s = .next { s with errCmd := true })

/-! ## Opening a frame, and the resets -/

/-- FRAME_INIT with a complete configuration gives every channel its initial state and opens the frame; with an incomplete one
it only sets `ERR_CFG`; in HALT it only sets `ERR_CMD` (46_config_control.md R186). `chanValid` is the model's own field (log
entry 4). -/
def Obligations.FrameInitOpensTheFrame : Prop :=
  decode 0x60000000 = .command .frameInit ∧
  ∀ s : State,
    (s.phase ≠ .halt → completeConfiguration s →
      ∃ t, exec .frameInit s = .next t ∧
        (∀ c : Fin 6,
          t.chan[c].k0 = 10 ∧ t.chan[c].k1 = 10 ∧ t.chan[c].sum0 = 16384 ∧ t.chan[c].sum1 = 16384 ∧
          t.chan[c].prev = 0 ∧ t.cache[c] = 0 ∧
          ∀ i : Fin 8, t.chan[c].hist[i] = 0 ∧
            t.chan[c].coef[i] = if s.fmt = 2 then BitVec.ofInt 32 s.key[i].toInt else 0) ∧
        t = { s with
              chan := t.chan, cache := t.cache, chanValid := true, pos := 0, ch := 0, count := 0, crc := 0xFFFFFFFF,
              bcache := 0, bcount := 0, crcOk := false, crcErr := false, phase := .decoding }) ∧
    (s.phase ≠ .halt → ¬completeConfiguration s → exec .frameInit s = .next { s with errCfg := true }) ∧
    (s.phase = .halt → exec .frameInit s = .next { s with errCmd := true })

/-- RD_RESET restarts the reader and drops the open frame (46_config_control.md R187). -/
def Obligations.RdResetRestartsTheReader : Prop :=
  decode 0xC0000000 = .command .rdReset ∧
  ∀ s : State,
    (s.phase ≠ .halt → exec .rdReset s = .next { s with
      crc := 0xFFFFFFFF, bcache := 0, bcount := 0, count := 0, crcOk := false, crcErr := false, pos := 0, ch := 0,
      phase := .idle }) ∧
    (s.phase = .halt → exec .rdReset s = .next { s with errCmd := true })

/-- SOFT_RESET, in every phase, puts every element that 10_state.md R45 gives a value at that value, and leaves the streams
alone; of the per-channel elements and `CACHE` nothing is known (46_config_control.md R188). The free values, `chanValid`, the
waiting command and the streams are the model's form (log entries 3, 4, 5, 7). -/
def Obligations.SoftResetRestoresResetValues : Prop :=
  decode 0xF0000000 = .command .softReset ∧
  ∀ s : State, ∃ t, exec .softReset s = .next t ∧ statusWord t = 0 ∧
    t = { s with
          nch := 0, bps := 0, fmt := 0, flen := 0, key := State.reset.key, keymask := 0, phase := .idle, ch := 0, pos := 0,
          bcache := 0, bcount := 0, crc := 0xFFFFFFFF, crcCalc := 0, crcStored := 0, count := 0, crcOk := false,
          crcErr := false, errCmd := false, errCfg := false, errIo := false, chan := t.chan, cache := t.cache,
          chanValid := false, freeCount := t.freeCount, inFlight := none }

/-- The values hardware reset gives (70_reset_and_hazards.md R231); of the unspecified elements nothing is said. -/
def Obligations.ResetStateHoldsTheResetValues : Prop :=
  State.reset.nch = 0 ∧ State.reset.bps = 0 ∧ State.reset.fmt = 0 ∧ State.reset.flen = 0 ∧
    (∀ i : Fin 8, State.reset.key[i] = 0) ∧ State.reset.keymask = 0 ∧ State.reset.phase = .idle ∧ State.reset.ch = 0 ∧
    State.reset.pos = 0 ∧ State.reset.count = 0 ∧ State.reset.crcCalc = 0 ∧ State.reset.crcStored = 0 ∧
    State.reset.crc = 0xFFFFFFFF ∧ State.reset.bcache = 0 ∧ State.reset.bcount = 0 ∧ statusWord State.reset = 0 ∧
    State.reset.crcOk = false ∧ State.reset.crcErr = false ∧ State.reset.errCmd = false ∧ State.reset.errCfg = false ∧
    State.reset.errIo = false

/-- After FRAME_INIT under one configuration, two frames of the same bytes decode alike, whatever was decoded before
(45_frame_sequencing.md R171). The streams as lists and the room of a sink are the model's form (log entries 7, 8). -/
def Obligations.FrameInitForgetsThePast : Prop :=
  ∀ s1 s2 a b a' : State,
    sameConfig s1 s2 → completeConfiguration s1 → s1.inp = s2.inp → s1.pcmRoom = s2.pcmRoom →
    s1.phase ≠ .halt → s2.phase ≠ .halt → exec .frameInit s1 = .next a → exec .frameInit s2 = .next b →
    exec .decFrame a = .next a' →
      ∃ b' bytes, exec .decFrame b = .next b' ∧ a'.pcm = s1.pcm ++ bytes ∧ b'.pcm = s2.pcm ++ bytes ∧
        a'.phase = b'.phase ∧ a'.ch = b'.ch ∧ a'.pos = b'.pos ∧ a'.inp = b'.inp ∧ a'.crc = b'.crc ∧
        a'.count = b'.count ∧ a'.bcount = b'.bcount ∧ a'.bcache = b'.bcache ∧ a'.crcOk = b'.crcOk ∧
        a'.crcErr = b'.crcErr ∧ a'.chan = b'.chan ∧ a'.cache = b'.cache

/-! ## RAW and VERIFY -/

/-- RAW passes its bytes through the checksum and the counter to `RAWOUT`, and changes nothing else (46_config_control.md
R189, 20_memory.md R61(a)). The streams as lists and the room of a sink are the model's form (log entries 7, 8). -/
def Obligations.RawPassesBytesThrough : Prop :=
  ∀ (s : State) (bytes : List Byte) (rest : List SrcItem) (room : Option Nat),
    s.phase = .idle → s.inp = delivered bytes ++ rest → roomFor s.rawRoom bytes.length room →
      exec (.raw bytes.length) s = .next { s with
        inp := rest, crc := crcAfter s.crc bytes, count := s.count + BitVec.ofNat 32 bytes.length,
        rawOut := s.rawOut ++ bytes, rawRoom := room }

/-- RAW with too few bytes or too little room keeps what it has passed: if the source fails it halts with `ERR_IO`; if the
source has no more yet it waits; if `RAWOUT` is not ready it waits with the byte it has read, counted and in `CRC`, still to
be emitted (46_config_control.md R189, 60_exceptions.md R205, 20_memory.md R61, R66). The wait as a step, the streams as
lists and the room of a sink are the model's form (log entries 5, 7, 8). -/
def Obligations.RawWithTooFewBytes : Prop :=
  ∀ (s : State) (n : Nat) (bytes : List Byte) (rest : List SrcItem),
    s.phase = .idle → bytes.length < n →
      (∀ room, roomFor s.rawRoom bytes.length room →
        (s.inp = delivered bytes ++ .failure :: rest →
          exec (.raw n) s = .next { s with
            inp := rest, crc := crcAfter s.crc bytes, count := s.count + BitVec.ofNat 32 bytes.length,
            rawOut := s.rawOut ++ bytes, rawRoom := room, errIo := true, phase := .halt }) ∧
        (s.inp = delivered bytes →
          exec (.raw n) s = .next { s with
            inp := [], crc := crcAfter s.crc bytes, count := s.count + BitVec.ofNat 32 bytes.length,
            rawOut := s.rawOut ++ bytes, rawRoom := room, inFlight := some (.raw (n - bytes.length) none) })) ∧
      ∀ b, s.rawRoom = some bytes.length → s.inp = delivered (bytes ++ [b]) ++ rest →
        exec (.raw n) s = .next { s with
          inp := rest, crc := crcAfter s.crc (bytes ++ [b]), count := s.count + BitVec.ofNat 32 (bytes.length + 1),
          rawOut := s.rawOut ++ bytes, rawRoom := some 0, inFlight := some (.raw (n - bytes.length - 1) (some b)) }

/-- VERIFY compares the finalised checksum taken before the trailer with the little-endian trailer, reports which of the two
it was, resets the reader and goes to IDLE, on a match and on a mismatch alike (41_checksum.md R132, R133). `IN` as a list is
the model's form (log entry 7). -/
def Obligations.VerifyComparesTheTrailer : Prop :=
  ∀ (s : State) (b0 b1 b2 b3 : Byte) (rest : List SrcItem),
    s.phase = .idle ∨ s.phase = .frameEnd → s.inp = delivered [b0, b1, b2, b3] ++ rest →
      ∃ sum stored : Word, sum = s.crc ^^^ 0xFFFFFFFF ∧
        stored.toNat = b0.toNat + 2 ^ 8 * b1.toNat + 2 ^ 16 * b2.toNat + 2 ^ 24 * b3.toNat ∧
        exec .verify s = .next { s with
          inp := rest, count := s.count + 4, crcCalc := sum, crcStored := stored, crcOk := decide (sum = stored),
          crcErr := decide (sum ≠ stored), crc := 0xFFFFFFFF, bcache := 0, bcount := 0, phase := .idle }

/-- VERIFY with fewer than four bytes reports nothing: if the source then fails it halts with `ERR_IO`, the result registers
and flags keeping their values; if the source has no more yet it waits (41_checksum.md R132, 60_exceptions.md R205). The wait
as a step and `IN` as a list are the model's form (log entries 5, 7). -/
def Obligations.VerifyWithTooFewBytes : Prop :=
  ∀ (s : State) (bytes : List Byte) (rest : List SrcItem),
    s.phase = .idle ∨ s.phase = .frameEnd → bytes.length < 4 →
      (s.inp = delivered bytes ++ .failure :: rest →
        exec .verify s = .next { s with
          inp := rest, crc := crcAfter s.crc bytes, count := s.count + BitVec.ofNat 32 bytes.length, errIo := true,
          phase := .halt }) ∧
      (s.inp = delivered bytes →
        exec .verify s = .next { s with
          inp := [], crc := crcAfter s.crc bytes, count := s.count + BitVec.ofNat 32 bytes.length,
          inFlight := some (.verify (s.crc ^^^ 0xFFFFFFFF) bytes) })

/-- The header and seek-table check: RD_RESET, RAW over the unit's bytes, VERIFY; `CRC_OK` says whether the trailer is the
finalised checksum of exactly those bytes (41_checksum.md R135). The streams as lists and the room of a sink are the model's
form (log entries 7, 8). -/
def Obligations.UnitCheckComparesExactlyItsBytes : Prop :=
  ∀ (s : State) (bytes : List Byte) (b0 b1 b2 b3 : Byte) (rest : List SrcItem),
    s.phase ≠ .halt → s.rawRoom = none → s.inp = delivered (bytes ++ [b0, b1, b2, b3]) ++ rest →
      ∃ s1 s2 s3, exec .rdReset s = .next s1 ∧ exec (.raw bytes.length) s1 = .next s2 ∧ exec .verify s2 = .next s3 ∧
        s3.inp = rest ∧ s3.rawOut = s.rawOut ++ bytes ∧ s3.crcErr = !s3.crcOk ∧ s3.phase = .idle ∧
        (s3.crcOk = true ↔ (crcAfter 0xFFFFFFFF bytes ^^^ 0xFFFFFFFF).toNat =
          b0.toNat + 2 ^ 8 * b1.toNat + 2 ^ 16 * b2.toNat + 2 ^ 24 * b3.toNat)

/-- The check value of the checksum (41_checksum.md R136). -/
def Obligations.ChecksumCheckValue : Prop :=
  crcAfter 0xFFFFFFFF [0x31, 0x32, 0x33, 0x34, 0x35, 0x36, 0x37, 0x38, 0x39] ^^^ 0xFFFFFFFF = 0xCBF43926

/-- `CrcStep` loses nothing: two accumulators, or two bytes, that give the same result are the same (41_checksum.md R130). -/
def Obligations.ChecksumStepLosesNothing : Prop :=
  (∀ (crc crc' : Word) (b : Byte), crcStep crc b = crcStep crc' b → crc = crc') ∧
    ∀ (crc : Word) (b b' : Byte), crcStep crc b = crcStep crc b' → b = b'

/-! ## The datapath units -/

/-- `sar` is division by a power of two rounding toward minus infinity, and the sign for shifts of 32 or more
(00_scope.md R8). -/
def Obligations.SarFloors : Prop :=
  ∀ (v : Word) (n : Nat),
    (n < 32 → (sar v n).toInt = v.toInt / 2 ^ n) ∧
    (32 ≤ n → (sar v n).toInt = if v.toInt < 0 then -1 else 0)

/-- `tdiv2` halves toward zero, and differs from `sar(v, 1)` exactly at negative odd values (00_scope.md R10). -/
def Obligations.Tdiv2TruncatesTowardZero : Prop :=
  ∀ v : Word,
    (0 ≤ v.toInt → (tdiv2 v).toInt = v.toInt / 2) ∧ (v.toInt < 0 → (tdiv2 v).toInt = -(-v.toInt / 2)) ∧
    (tdiv2 v ≠ sar v 1 ↔ v.toInt < 0 ∧ v.toInt % 2 = 1)

/-- The sign map on every code value (40_entropy_decoder.md R117). -/
def Obligations.UnmapIsTheSignMap : Prop :=
  ∀ v : Word,
    (v.toNat % 2 = 1 → (unmap v).toInt = (v + 1).toInt / 2) ∧ (v.toNat % 2 = 0 → (unmap v).toInt = (-v).toInt / 2) ∧
    (v.toNat ≤ 0x7FFFFFFE → v.toNat % 2 = 1 → (unmap v).toInt = ((v.toNat : Int) + 1) / 2) ∧
    (v.toNat ≤ 0x7FFFFFFE → v.toNat % 2 = 0 → (unmap v).toInt = -((v.toNat : Int) / 2)) ∧
    (unmap 0x7FFFFFFF).toInt = -1073741824 ∧ (unmap 0x80000000).toInt = -1073741824 ∧
    (unmap 0xFFFFFFFE).toInt = 1 ∧ (unmap 0xFFFFFFFF).toInt = 0

/-- Every code value has a codeword, at every state of the parameters (30_encoding.md R90, R91). -/
def Obligations.EveryCodeValueHasACodeword : Prop :=
  ∀ (ch : Channel) (v : Word), ∃ (u : Nat) (suffix : List Bool),
    u < 2 ^ 32 ∧ suffix.length = suffixWidth ch u ∧ codeValue ch (levelOf u, spelled u suffix) = v

/-- The adaptation of a channel: at level 1 first `SUM1` and `K1` take in the value before the offset, then at both levels
`SUM0` and `K0` take in the code value; nothing else of the channel changes (40_entropy_decoder.md R115, R116, R118). -/
def Obligations.EntropyUpdateAdapts : Prop :=
  ∀ (ch : Channel) (a : Word),
    (entropyUpdate ch (.zero, a)).1 = unmap a ∧
    (entropyUpdate ch (.zero, a)).2 = { ch with
      sum0 := sumAfter ch.sum0 a, k0 := BitVec.ofNat 32 (parameterAfter ch.k0.toNat (sumAfter ch.sum0 a).toNat) } ∧
    ∀ v : Word, v = BitVec.ofNat 32 (a.toNat + 2 ^ ch.k0.toNat) →
      (entropyUpdate ch (.one, a)).1 = unmap v ∧
      (entropyUpdate ch (.one, a)).2 = { ch with
        sum1 := sumAfter ch.sum1 a, k1 := BitVec.ofNat 32 (parameterAfter ch.k1.toNat (sumAfter ch.sum1 a).toNat),
        sum0 := sumAfter ch.sum0 v, k0 := BitVec.ofNat 32 (parameterAfter ch.k0.toNat (sumAfter ch.sum0 v).toNat) }

/-- One step of the hybrid filter: the prediction is the weighted sum shifted down flooring, it is added to the residual, each
coefficient moves by sign agreement, and the result is shifted into the history (42_hybrid_filter.md R142, R143). -/
def Obligations.FilterStepPredictsAndAdapts : Prop :=
  ∀ (shift : Nat) (r : Word) (ch : Channel), shift < 32 →
    (filterStep shift r ch).1 =
      r + BitVec.ofInt 32 ((∑ i : Fin 8, ch.hist[i] * ch.coef[i] : Word).toInt / 2 ^ shift) ∧
    (∀ i : Fin 8, (filterStep shift r ch).2.coef[i] = ch.coef[i] + coefficientMove r ch.hist[i]) ∧
    (∀ i j : Fin 8, j.val = i.val + 1 → (filterStep shift r ch).2.hist[i] = ch.hist[j]) ∧
    (filterStep shift r ch).2.hist[7] = (filterStep shift r ch).1 ∧
    (filterStep shift r ch).2 =
      { ch with coef := (filterStep shift r ch).2.coef, hist := (filterStep shift r ch).2.hist }

/-- One step of the fixed predictor: 31/32 of the previous value, the product wrapped and the shift flooring, added to the input
(43_fixed_predictor.md R151). -/
def Obligations.PredictorAddsThirtyOneThirtySeconds : Prop :=
  ∀ (y : Word) (ch : Channel),
    (predStep y ch).1 = y + BitVec.ofInt 32 ((ch.prev * 31).toInt / 32) ∧
    (predStep y ch).2 = { ch with prev := (predStep y ch).1 }

/-- The decorrelator inverts the forward transform, and the forward transform the decorrelator, for every channel count; entries
from `NCH` on are not touched (44_decorrelator_output.md R156, R161). -/
def Obligations.DecorrelateInvertsTheForwardTransform : Prop :=
  ∀ (n : Nat) (x : Vector Word 6), 1 ≤ n → n ≤ 6 →
    decorrelate n (correlate n x) = x ∧ correlate n (decorrelate n x) = x ∧
      ∀ k : Fin 6, n ≤ k.val → (decorrelate n x)[k] = x[k]

/-- The decorrelator on one channel and on two (44_decorrelator_output.md R157, R161). -/
def Obligations.DecorrelateMonoAndStereo : Prop :=
  ∀ x : Vector Word 6,
    decorrelate 1 x = x ∧
    (decorrelate 2 x)[0] = x[1] + tdiv2 x[0] - x[0] ∧ (decorrelate 2 x)[1] = x[1] + tdiv2 x[0]

/-- A sample is emitted as its low `DEPTH` bytes, least significant first, without saturation, and a time-step as `NCH × DEPTH`
bytes, channel `c`'s at places `c × DEPTH` to `c × DEPTH + DEPTH - 1` (20_memory.md R67, 44_decorrelator_output.md R158). -/
def Obligations.SamplesArePackedLittleEndian : Prop :=
  (∀ (depth : Nat) (v : Word), depth ≤ 4 →
    (sampleBytes depth v).length = depth ∧
    (sampleBytes depth v).foldr (fun b acc => b.toNat + 256 * acc) 0 = v.toNat % 256 ^ depth) ∧
  ∀ (n depth : Nat) (x : Vector Word 6),
    (stepBytes n depth x).length = n * depth ∧
    ∀ c : Fin 6, c.val < n → ((stepBytes n depth x).drop (c.val * depth)).take depth = sampleBytes depth x[c]

/-! ## The decode commands -/

/-- DEC_SAMPLE on a channel that is not the last: with a whole codeword unread it takes exactly that codeword, runs on the
channel `CH` the entropy update, then the filter on the residual `r`, then the predictor on the filter's output `y`, stores
the predictor's output `out` in `CACHE[CH]` and goes to the next channel; nothing else changes (45_frame_sequencing.md R166,
30_encoding.md R90, R91). `IN` as a list is the model's form (log entry 7). -/
def Obligations.DecSampleDecodesOneChannel : Prop :=
  ∀ (s : State) (u : Nat) (suffix rest : List Bool) (r y out : Word) (ch0 ch1 ch2 : Channel),
    s.phase = .decoding → insideFrame s → s.ch.toNat + 1 < s.nch.toNat → u < 2 ^ 32 →
    suffix.length = suffixWidth (channelAt s s.ch.toNat) u → unreadBits s = codeword u suffix ++ rest →
    entropyUpdate (channelAt s s.ch.toNat) (levelOf u, spelled u suffix) = (r, ch0) →
    filterStep (shiftOf s) r ch0 = (y, ch1) → predStep y ch1 = (out, ch2) →
      ∃ t m bytes, exec .decSample s = .next t ∧ readFrom s m bytes ∧ unreadBits t = rest ∧
        t = { m with
              ch := s.ch + 1, chan := s.chan.setIfInBounds s.ch.toNat ch2,
              cache := s.cache.setIfInBounds s.ch.toNat out }

/-- DEC_SAMPLE on the last channel of a time-step: with a whole codeword unread it runs the three stages in their order and
decorrelates the cache. With room in the sink it then emits the time-step's bytes, sets `CH` to 0, advances `POS`, and leaves
DECODING when `POS` reaches `FLEN`; with room for `k` of the bytes only, it emits those and waits with the rest, `CH`, `POS`
and `PHASE` not yet moved (45_frame_sequencing.md R166, 20_memory.md R66). The wait as a step, the streams as lists and the
room of a sink are the model's form (log entries 5, 7, 8). -/
def Obligations.DecSampleCompletesATimeStep : Prop :=
  ∀ (s : State) (u : Nat) (suffix rest : List Bool) (r y out : Word) (ch0 ch1 ch2 : Channel) (x : Vector Word 6),
    s.phase = .decoding → insideFrame s → s.ch.toNat + 1 = s.nch.toNat → u < 2 ^ 32 →
    suffix.length = suffixWidth (channelAt s s.ch.toNat) u → unreadBits s = codeword u suffix ++ rest →
    entropyUpdate (channelAt s s.ch.toNat) (levelOf u, spelled u suffix) = (r, ch0) →
    filterStep (shiftOf s) r ch0 = (y, ch1) → predStep y ch1 = (out, ch2) →
    x = decorrelate s.nch.toNat (s.cache.setIfInBounds s.ch.toNat out) →
      (∀ room, roomFor s.pcmRoom (s.nch.toNat * depthOf s) room →
        ∃ t m bytes, exec .decSample s = .next t ∧ readFrom s m bytes ∧ unreadBits t = rest ∧
          t = { m with
                ch := 0,
                pos := s.pos + 1,
                phase := if s.pos + 1 = s.flen then .frameEnd else .decoding,
                chan := s.chan.setIfInBounds s.ch.toNat ch2,
                cache := x,
                pcm := s.pcm ++ stepBytes s.nch.toNat (depthOf s) x,
                pcmRoom := room }) ∧
      ∀ k, s.pcmRoom = some k → k < s.nch.toNat * depthOf s →
        ∃ t m bytes, exec .decSample s = .next t ∧ readFrom s m bytes ∧ unreadBits t = rest ∧
          t = { m with
                chan := s.chan.setIfInBounds s.ch.toNat ch2,
                cache := x,
                pcm := s.pcm ++ (stepBytes s.nch.toNat (depthOf s) x).take k,
                pcmRoom := some 0,
                inFlight := some (.sample (.emit ((stepBytes s.nch.toNat (depthOf s) x).drop k))) }

/-- DEC_SAMPLE when the source fails inside the codeword: `ERR_IO` and HALT, the bytes delivered counted and in `CRC`, the
bits of the partly read codeword lost, and nothing else changed (45_frame_sequencing.md R172). `IN` as a list is the model's
form (log entry 7). -/
def Obligations.DecSampleReadFailureChangesNoChannel : Prop :=
  ∀ (s : State) (bytes : List Byte) (rest : List SrcItem),
    s.phase = .decoding → insideFrame s → s.inp = delivered bytes ++ .failure :: rest →
    shortOfCodeword (channelAt s s.ch.toNat) (unreadBits s) →
      ∃ t, exec .decSample s = .next t ∧
        t = { s with
              inp := rest, crc := crcAfter s.crc bytes, count := s.count + BitVec.ofNat 32 bytes.length,
              bcache := if bytes = [] then s.bcache >>> s.bcount.toNat else 0, bcount := 0, errIo := true, phase := .halt }

/-- DEC_SAMPLE when the source has no more bytes yet inside the codeword waits there, the bytes taken counted and in `CRC`, and
nothing else changed (20_memory.md R61(b)). Where it stands is kept in the model's own field (log entry 5). -/
def Obligations.DecSampleWaitsInsideACodeword : Prop :=
  ∀ (s : State) (bytes : List Byte),
    s.phase = .decoding → insideFrame s → s.inp = delivered bytes →
    shortOfCodeword (channelAt s s.ch.toNat) (unreadBits s) →
      ∃ t p, exec .decSample s = .next t ∧
        t = { s with
              inp := [], crc := crcAfter s.crc bytes, count := s.count + BitVec.ofNat 32 bytes.length,
              bcache := if bytes = [] then s.bcache >>> s.bcount.toNat else 0, bcount := 0,
              inFlight := some (.sample p) }

/-- A DEC_SAMPLE changes the state of no channel but `CH` (10_state.md R24). -/
def Obligations.OtherChannelsAreUntouched : Prop :=
  ∀ (s t : State) (c : Fin 6), exec .decSample s = .next t → c.val ≠ s.ch.toNat → t.chan[c] = s.chan[c]

/-- DEC_STEP n on the codewords of `n` time-steps, a time-step begun before counting as one, or of those the frame has left if
they are fewer: it takes exactly their bits and is the DEC_SAMPLE bodies on them in turn (45_frame_sequencing.md R167). The
streams as lists and the room of a sink are the model's form (log entries 7, 8). -/
def Obligations.DecStepDecodesItsTimeSteps : Prop :=
  ∀ (s : State) (n todo : Nat) (cws : List (Nat × List Bool)) (rest : List Bool) (room : Option Nat),
    s.phase = .decoding → insideFrame s → s.pos.toNat < s.flen.toNat → todo = min n (s.flen.toNat - s.pos.toNat) →
    cws.length = todo * s.nch.toNat - s.ch.toNat → codewordsFit cws s → unreadBits s = codewordBits cws ++ rest →
    roomFor s.pcmRoom (todo * (s.nch.toNat * depthOf s)) room →
      ∃ t m bytes, exec (.decStep n) s = .next t ∧ readFrom s m bytes ∧ unreadBits t = rest ∧
        t = { afterCodewords cws m with pcmRoom := room } ∧
        (1 ≤ n → t.ch = 0 ∧ t.pos.toNat = s.pos.toNat + todo ∧
          t.phase = if t.pos = s.flen then .frameEnd else .decoding)

/-- DEC_FRAME on a whole frame, or on what is left of one: bytes that hold its codewords and fewer than eight bits of padding,
then the trailer. It is the DEC_SAMPLE bodies on the codewords in turn and then VERIFY: the samples go out, the checksum is
that of the frame's bytes, and the reader stands at the byte after the trailer (45_frame_sequencing.md R168, R169,
41_checksum.md R132, 20_memory.md R68). The streams as lists and the room of a sink are the model's form (log entries 7, 8).
-/
def Obligations.DecFrameDecodesTheFrameAndVerifies : Prop :=
  ∀ (s : State) (cws : List (Nat × List Bool)) (bytes : List Byte) (pad : List Bool) (b0 b1 b2 b3 : Byte)
    (rest : List SrcItem) (room : Option Nat),
    s.phase = .decoding → insideFrame s → s.pos.toNat < s.flen.toNat →
    cws.length = (s.flen.toNat - s.pos.toNat) * s.nch.toNat - s.ch.toNat → codewordsFit cws s →
    s.inp = delivered (bytes ++ [b0, b1, b2, b3]) ++ rest →
    lowBits s.bcount.toNat s.bcache ++ sourceBits (delivered bytes) = codewordBits cws ++ pad → pad.length < 8 →
    roomFor s.pcmRoom ((s.flen.toNat - s.pos.toNat) * (s.nch.toNat * depthOf s)) room →
      ∃ sum stored : Word, sum = crcAfter s.crc bytes ^^^ 0xFFFFFFFF ∧
        stored.toNat = b0.toNat + 2 ^ 8 * b1.toNat + 2 ^ 16 * b2.toNat + 2 ^ 24 * b3.toNat ∧
        exec .decFrame s = .next { afterCodewords cws s with
          inp := rest, count := s.count + BitVec.ofNat 32 (bytes.length + 4), crcCalc := sum, crcStored := stored,
          crcOk := decide (sum = stored), crcErr := decide (sum ≠ stored), crc := 0xFFFFFFFF, bcache := 0, bcount := 0,
          ch := 0, pos := s.flen, phase := .idle, pcmRoom := room }

/-- In FRAME_END, DEC_FRAME is VERIFY (45_frame_sequencing.md R168). -/
def Obligations.DecFrameInFrameEndIsVerify : Prop :=
  ∀ s : State, s.phase = .frameEnd → exec .decFrame s = exec .verify s

/-- The resumption law: a DEC_SAMPLE first and then the command gives what the command gives at once, for DEC_FRAME and for
DEC_STEP, which counts the time-step if the DEC_SAMPLE completed it; and they fail and wait where it does
(45_frame_sequencing.md R170). The wait as a step is the model's form (log entry 5). -/
def Obligations.DecodingResumesWhereItLeftOff : Prop :=
  ∀ s t : State, s.phase = .decoding → s.inFlight = none → exec .decSample s = .next t →
    (t.inFlight = none → t.phase ≠ .halt → exec .decFrame s = exec .decFrame t) ∧
    (t.inFlight = none → t.phase = .decoding → ∀ n,
      exec (.decStep (n + 1)) s = exec (.decStep (if t.ch = 0 then n else n + 1)) t) ∧
    (t.inFlight = none → t.phase = .frameEnd → ∀ n, exec (.decStep (n + 1)) s = .next t) ∧
    (t.phase = .halt → exec .decFrame s = .next t ∧ ∀ n, exec (.decStep (n + 1)) s = .next t) ∧
    (∀ p, t.inFlight = some (.sample p) →
      exec .decFrame s = .next { t with inFlight := some (.frame p) } ∧
      ∀ n, exec (.decStep (n + 1)) s = .next { t with inFlight := some (.steps (n + 1) p) })

/-- What the filter, the predictor, the key and the cache hold does not reach the stream: the frame's bytes are consumed, its
codewords cut and its checksum verified alike (70_reset_and_hazards.md R243, 41_checksum.md R134(d)). `IN` as a list is the
model's form (log entry 7). -/
def Obligations.TheChecksumCannotSeeTheFilter : Prop :=
  ∀ a b a' : State,
    b = { a with key := b.key, keymask := b.keymask, fmt := b.fmt, chan := b.chan, cache := b.cache, pcm := b.pcm } →
    (∀ c : Fin 6, b.chan[c].k0 = a.chan[c].k0 ∧ b.chan[c].k1 = a.chan[c].k1 ∧ b.chan[c].sum0 = a.chan[c].sum0 ∧
      b.chan[c].sum1 = a.chan[c].sum1) →
    a.phase = .decoding → exec .decFrame a = .next a' →
      ∃ b', exec .decFrame b = .next b' ∧ b'.inp = a'.inp ∧ b'.crc = a'.crc ∧ b'.count = a'.count ∧
        b'.bcount = a'.bcount ∧ b'.phase = a'.phase ∧ b'.pos = a'.pos ∧ b'.ch = a'.ch ∧ b'.crcOk = a'.crcOk ∧
        b'.crcErr = a'.crcErr ∧ b'.crcCalc = a'.crcCalc ∧ b'.crcStored = a'.crcStored ∧
        ∀ c : Fin 6, b'.chan[c].k0 = a'.chan[c].k0 ∧ b'.chan[c].k1 = a'.chan[c].k1

/-! ## The whole machine -/

/-- The invariant and the bound on the code parameters hold after reset. -/
def Obligations.ResetMeetsTheInvariant : Prop := Inv State.reset ∧ ParametersBounded State.reset

/-- Every step keeps the invariant (10_state.md R28 to R36, 45_frame_sequencing.md R165). What it says of a command in flight
and of `chanValid` is the model's form (log entries 4, 5). -/
def Obligations.StepKeepsTheInvariant : Prop := ∀ s t : State, Inv s → step s = .next t → Inv t

/-- From a state that meets the invariant a step always answers a next state: nothing stops the block (60_exceptions.md R200,
R209). That a wait and an idle step are next states is the model's form (log entries 5, 6). -/
def Obligations.InvariantStatesNeverStop : Prop := ∀ s : State, Inv s → ∃ t, step s = .next t

/-- In an open frame a code parameter rises by at most one for each value decoded for its channel, so it cannot wrap
(10_state.md R27). Where a waiting command stands is the model's form (log entry 5). -/
def Obligations.StepKeepsParametersBounded : Prop :=
  ∀ s t : State, Inv s → ParametersBounded s → step s = .next t → ParametersBounded t

/-- Only SOFT_RESET and hardware reset leave HALT (46_config_control.md R188, 60_exceptions.md R210). How the reset input is
answered is the model's choice (log entry 9). -/
def Obligations.OnlyResetsLeaveHalt : Prop :=
  ∀ s t : State, s.phase = .halt → s.inFlight = none → noResetNext s → step s = .next t → t.phase = .halt

/-- `ERR_CMD`, `ERR_CFG` and `ERR_IO` are sticky: no step but a reset clears them (10_state.md R30). How the reset input is
answered is the model's choice (log entry 9). -/
def Obligations.ErrorFlagsAreSticky : Prop :=
  ∀ s t : State, noResetNext s → step s = .next t →
    (s.errCmd = true → t.errCmd = true) ∧ (s.errCfg = true → t.errCfg = true) ∧ (s.errIo = true → t.errIo = true)

/-- One command raises at most one of `ERR_CMD`, `ERR_CFG`, `ERR_IO` (60_exceptions.md R208). -/
def Obligations.OneCommandRaisesAtMostOneError : Prop :=
  ∀ (i : Instr) (s t : State), exec i s = .next t → s.errCmd = false → s.errCfg = false → s.errIo = false →
    ¬(t.errCmd = true ∧ t.errCfg = true) ∧ ¬(t.errCmd = true ∧ t.errIo = true) ∧ ¬(t.errCfg = true ∧ t.errIo = true)

/-- While a frame is open no step but a reset changes the configuration (46_config_control.md R190). How the reset input is
answered is the model's choice (log entry 9). -/
def Obligations.ConfigurationIsFrozenWhileAFrameIsOpen : Prop :=
  ∀ s t : State, s.phase = .decoding ∨ s.phase = .frameEnd → noResetNext s → step s = .next t → sameConfig s t

/-! ## The register map -/

/-- STATUS, bit by bit (10_state.md R40). -/
def Obligations.StatusLayout : Prop :=
  ∀ s : State,
    slice (statusWord s) 1 0 = (match s.phase with | .idle => 0 | .decoding => 1 | .frameEnd => 2 | .halt => 3) ∧
    (statusWord s).getLsbD 2 = s.crcOk ∧ (statusWord s).getLsbD 3 = s.crcErr ∧ (statusWord s).getLsbD 4 = s.errCmd ∧
    (statusWord s).getLsbD 5 = s.errCfg ∧ (statusWord s).getLsbD 6 = s.errIo ∧
    (statusWord s).getLsbD 7 = decide (s.keymask = 0xFF) ∧ slice (statusWord s) 31 8 = 0

/-- The register map, entry by entry; the per-channel elements and `CACHE` once FRAME_INIT has written them (10_state.md R41,
R42). `chanValid` and the unanswered read are the model's form (log entries 4, 11). -/
def Obligations.RegisterMapEntries : Prop :=
  ∀ (s : State) (serial : Nat), s.inFlight = none →
    registerRead serial 0x00 s = some (statusWord s) ∧
    registerRead serial 0x01 s = some (BitVec.ofNat 32 s.nch.toNat) ∧
    registerRead serial 0x02 s = some (BitVec.ofNat 32 s.bps.toNat) ∧
    registerRead serial 0x03 s = some (BitVec.ofNat 32 s.fmt.toNat) ∧
    registerRead serial 0x04 s = some (BitVec.ofNat 32 s.flen.toNat) ∧
    registerRead serial 0x05 s = some (BitVec.ofNat 32 s.pos.toNat) ∧
    registerRead serial 0x06 s = some (BitVec.ofNat 32 s.ch.toNat) ∧
    registerRead serial 0x07 s = some s.count ∧ registerRead serial 0x08 s = some s.crc ∧
    registerRead serial 0x09 s = some s.crcCalc ∧ registerRead serial 0x0A s = some s.crcStored ∧
    registerRead serial 0x0B s = some (BitVec.ofNat 32 ((s.bps.toNat + 7) / 8)) ∧
    (s.bps.toNat = 16 → registerRead serial 0x0C s = some 9) ∧
    (17 ≤ s.bps.toNat → s.bps.toNat ≤ 24 → registerRead serial 0x0C s = some 10) ∧
    (s.bps.toNat ≤ 15 ∨ 25 ≤ s.bps.toNat → registerRead serial 0x0C s = some 0) ∧
    (s.chanValid = true → ∀ c : Fin 6,
      registerRead serial (0x10 + c.val) s = some s.cache[c] ∧
      registerRead serial (0x40 + 0x20 * c.val + 0x00) s = some s.chan[c].k0 ∧
      registerRead serial (0x40 + 0x20 * c.val + 0x01) s = some s.chan[c].k1 ∧
      registerRead serial (0x40 + 0x20 * c.val + 0x02) s = some s.chan[c].sum0 ∧
      registerRead serial (0x40 + 0x20 * c.val + 0x03) s = some s.chan[c].sum1 ∧
      registerRead serial (0x40 + 0x20 * c.val + 0x04) s = some s.chan[c].prev ∧
      (∀ i : Fin 8, registerRead serial (0x40 + 0x20 * c.val + 0x08 + i.val) s = some s.chan[c].coef[i] ∧
        registerRead serial (0x40 + 0x20 * c.val + 0x10 + i.val) s = some s.chan[c].hist[i])) ∧
    (∀ c : Fin 6, ∀ off, (0x05 ≤ off ∧ off ≤ 0x07) ∨ (0x18 ≤ off ∧ off ≤ 0x1F) →
        registerRead serial (0x40 + 0x20 * c.val + off) s = some 0) ∧
    ∀ ix, (0x0D ≤ ix ∧ ix ≤ 0x0F) ∨ (0x16 ≤ ix ∧ ix ≤ 0x3F) ∨ 0x100 ≤ ix → registerRead serial ix s = some 0

/-- No read returns the key or the bit cache, and none is answered while a command is in flight (10_state.md R34, R36, R42).
The unanswered read is the model's form (log entry 11). -/
def Obligations.KeyAndBitCacheAreNotReadable : Prop :=
  ∀ (s t : State) (serial ix : Nat),
    (t = { s with key := t.key, bcache := t.bcache, bcount := t.bcount } →
      registerRead serial ix t = registerRead serial ix s) ∧
    (s.inFlight ≠ none → registerRead serial ix s = none)
end

