-- ==== Sys2Proof/Laws/Params.lean ====
section
/-! SUPPORT. The configuration record, field by field (00_scope.md R6). -/

namespace Sys2Proof.Machine

@[simp] theorem config_wordBits : config.wordBits = 32 := rfl
@[simp] theorem config_maxNch : config.maxNch = 6 := rfl
@[simp] theorem config_minBps : config.minBps = 16 := rfl
@[simp] theorem config_maxBps : config.maxBps = 24 := rfl
@[simp] theorem config_depth (bps : Nat) : config.depth bps = (bps + 7) / 8 := rfl
@[simp] theorem config_flenBits : config.flenBits = 28 := rfl
@[simp] theorem config_bitOrder (b : Byte) : config.bitOrder b = b := rfl
@[simp] theorem config_unaryRun : config.unaryRun = true := rfl
@[simp] theorem config_fieldPosition (k i : Nat) : config.fieldPosition k i = i := rfl
@[simp] theorem config_code : config.code = twoLevelCode := rfl
@[simp] theorem config_signMap (v : Word) : config.signMap v = oddPositive v := rfl
@[simp] theorem config_kInit : config.kInit = 10 := rfl
@[simp] theorem config_watermark : config.watermark = powerWatermark := rfl
@[simp] theorem config_initialSum (T : Nat → Word) (k : Word) : config.initialSum T k = T k.toNat := rfl
@[simp] theorem config_sumDecay : config.sumDecay = 4 := rfl
@[simp] theorem config_sumUpdate (n : Nat) (sum v : Word) : config.sumUpdate n sum v = sum + v - shr sum n := rfl
@[simp] theorem config_moveParameter (T : Nat → Word) (k sum : Word) : config.moveParameter T k sum = moveByOne T k sum := rfl
@[simp] theorem config_updateOrder : config.updateOrder = levelOneFirst := rfl
@[simp] theorem config_crcPoly : config.crcPoly = 0xEDB88320 := rfl
@[simp] theorem config_crcInit : config.crcInit = 0xFFFFFFFF := rfl
@[simp] theorem config_crcXorOut : config.crcXorOut = 0xFFFFFFFF := rfl
@[simp] theorem config_crcFold (poly crc : Word) (b : Byte) : config.crcFold poly crc b = reflectedFold poly crc b := rfl
@[simp] theorem config_trailerByte (cache : Byte) (n : BitVec 4) (b : Byte) :
    config.trailerByte cache n b = (b, cache, n) := rfl
@[simp] theorem config_trailerOrder (bytes : List Byte) : config.trailerOrder bytes = bytes := rfl
@[simp] theorem config_pcmFit (depth : Nat) (v : Word) : config.pcmFit depth v = v := rfl
@[simp] theorem config_pcmOrder (bytes : List Byte) : config.pcmOrder bytes = bytes := rfl
@[simp] theorem config_taps : config.taps = 8 := rfl
@[simp] theorem config_shiftTab (d : Nat) : config.shiftTab d = shiftByDepth d := rfl
@[simp] theorem config_keyLen : config.keyLen = 8 := rfl
@[simp] theorem config_keySeed (key : Vector Byte 8) : config.keySeed key = signedKeyBytes key := rfl
@[simp] theorem config_neutralSeed : config.neutralSeed = Vector.replicate 8 0 := rfl
@[simp] theorem config_historySeed : config.historySeed = Vector.replicate 8 0 := rfl
@[simp] theorem config_sgnH0 : config.sgnH0 = 0 := rfl
@[simp] theorem config_errorTerm (r y : Word) : config.errorTerm r y = r := rfl
@[simp] theorem config_filterExtra : config.filterExtra = 0 := rfl
@[simp] theorem config_filterInit : config.filterInit = sourceFilterInit := rfl
@[simp] theorem config_filterStep : config.filterStep = sourceFilterStep := rfl

@[simp] theorem twoLevelCode_level (u : Word) : twoLevelCode.level u = if u = 0 then .zero else .one := rfl
@[simp] theorem twoLevelCode_high (u : Word) : twoLevelCode.high u = if u = 0 then 0 else u - 1 := rfl
@[simp] theorem twoLevelCode_parameter_zero (k0 k1 : Word) : twoLevelCode.parameter .zero k0 k1 = k0 := rfl
@[simp] theorem twoLevelCode_parameter_one (k0 k1 : Word) : twoLevelCode.parameter .one k0 k1 = k1 := rfl
@[simp] theorem twoLevelCode_scaled (a : Word) (k : Nat) : twoLevelCode.scaled a k = shl a k := rfl
@[simp] theorem twoLevelCode_offset (k0 : Word) : twoLevelCode.offset k0 = shl 1 k0.toNat := rfl

end Sys2Proof.Machine
end

