-- ==== Sys2Proof/Laws/State.lean ====
section
/-! SUPPORT. One lemma per field per named update of the state, each true by rfl: what every update writes and what it leaves
alone. -/

namespace Sys2Proof.Machine

/-! ### `raise .errCmd s` -/

@[simp] theorem raiseCmd_nch (s : State) : (raise .errCmd s).nch = s.nch := rfl
@[simp] theorem raiseCmd_bps (s : State) : (raise .errCmd s).bps = s.bps := rfl
@[simp] theorem raiseCmd_fmt (s : State) : (raise .errCmd s).fmt = s.fmt := rfl
@[simp] theorem raiseCmd_flen (s : State) : (raise .errCmd s).flen = s.flen := rfl
@[simp] theorem raiseCmd_key (s : State) : (raise .errCmd s).key = s.key := rfl
@[simp] theorem raiseCmd_keymask (s : State) : (raise .errCmd s).keymask = s.keymask := rfl
@[simp] theorem raiseCmd_phase (s : State) : (raise .errCmd s).phase = s.phase := rfl
@[simp] theorem raiseCmd_ch (s : State) : (raise .errCmd s).ch = s.ch := rfl
@[simp] theorem raiseCmd_pos (s : State) : (raise .errCmd s).pos = s.pos := rfl
@[simp] theorem raiseCmd_bcache (s : State) : (raise .errCmd s).bcache = s.bcache := rfl
@[simp] theorem raiseCmd_bcount (s : State) : (raise .errCmd s).bcount = s.bcount := rfl
@[simp] theorem raiseCmd_crc (s : State) : (raise .errCmd s).crc = s.crc := rfl
@[simp] theorem raiseCmd_crcCalc (s : State) : (raise .errCmd s).crcCalc = s.crcCalc := rfl
@[simp] theorem raiseCmd_crcStored (s : State) : (raise .errCmd s).crcStored = s.crcStored := rfl
@[simp] theorem raiseCmd_count (s : State) : (raise .errCmd s).count = s.count := rfl
@[simp] theorem raiseCmd_crcOk (s : State) : (raise .errCmd s).crcOk = s.crcOk := rfl
@[simp] theorem raiseCmd_crcErr (s : State) : (raise .errCmd s).crcErr = s.crcErr := rfl
@[simp] theorem raiseCmd_errCmd (s : State) : (raise .errCmd s).errCmd = true := rfl
@[simp] theorem raiseCmd_errCfg (s : State) : (raise .errCmd s).errCfg = s.errCfg := rfl
@[simp] theorem raiseCmd_errIo (s : State) : (raise .errCmd s).errIo = s.errIo := rfl
@[simp] theorem raiseCmd_chan (s : State) : (raise .errCmd s).chan = s.chan := rfl
@[simp] theorem raiseCmd_cache (s : State) : (raise .errCmd s).cache = s.cache := rfl
@[simp] theorem raiseCmd_chanValid (s : State) : (raise .errCmd s).chanValid = s.chanValid := rfl
@[simp] theorem raiseCmd_freeCount (s : State) : (raise .errCmd s).freeCount = s.freeCount := rfl
@[simp] theorem raiseCmd_cmd (s : State) : (raise .errCmd s).cmd = s.cmd := rfl
@[simp] theorem raiseCmd_inp (s : State) : (raise .errCmd s).inp = s.inp := rfl
@[simp] theorem raiseCmd_pcm (s : State) : (raise .errCmd s).pcm = s.pcm := rfl
@[simp] theorem raiseCmd_rawOut (s : State) : (raise .errCmd s).rawOut = s.rawOut := rfl
@[simp] theorem raiseCmd_pcmRoom (s : State) : (raise .errCmd s).pcmRoom = s.pcmRoom := rfl
@[simp] theorem raiseCmd_rawRoom (s : State) : (raise .errCmd s).rawRoom = s.rawRoom := rfl
@[simp] theorem raiseCmd_inFlight (s : State) : (raise .errCmd s).inFlight = s.inFlight := rfl
@[simp] theorem raiseCmd_resetReq (s : State) : (raise .errCmd s).resetReq = s.resetReq := rfl

/-! ### `raise .errCfg s` -/

@[simp] theorem raiseCfg_nch (s : State) : (raise .errCfg s).nch = s.nch := rfl
@[simp] theorem raiseCfg_bps (s : State) : (raise .errCfg s).bps = s.bps := rfl
@[simp] theorem raiseCfg_fmt (s : State) : (raise .errCfg s).fmt = s.fmt := rfl
@[simp] theorem raiseCfg_flen (s : State) : (raise .errCfg s).flen = s.flen := rfl
@[simp] theorem raiseCfg_key (s : State) : (raise .errCfg s).key = s.key := rfl
@[simp] theorem raiseCfg_keymask (s : State) : (raise .errCfg s).keymask = s.keymask := rfl
@[simp] theorem raiseCfg_phase (s : State) : (raise .errCfg s).phase = s.phase := rfl
@[simp] theorem raiseCfg_ch (s : State) : (raise .errCfg s).ch = s.ch := rfl
@[simp] theorem raiseCfg_pos (s : State) : (raise .errCfg s).pos = s.pos := rfl
@[simp] theorem raiseCfg_bcache (s : State) : (raise .errCfg s).bcache = s.bcache := rfl
@[simp] theorem raiseCfg_bcount (s : State) : (raise .errCfg s).bcount = s.bcount := rfl
@[simp] theorem raiseCfg_crc (s : State) : (raise .errCfg s).crc = s.crc := rfl
@[simp] theorem raiseCfg_crcCalc (s : State) : (raise .errCfg s).crcCalc = s.crcCalc := rfl
@[simp] theorem raiseCfg_crcStored (s : State) : (raise .errCfg s).crcStored = s.crcStored := rfl
@[simp] theorem raiseCfg_count (s : State) : (raise .errCfg s).count = s.count := rfl
@[simp] theorem raiseCfg_crcOk (s : State) : (raise .errCfg s).crcOk = s.crcOk := rfl
@[simp] theorem raiseCfg_crcErr (s : State) : (raise .errCfg s).crcErr = s.crcErr := rfl
@[simp] theorem raiseCfg_errCmd (s : State) : (raise .errCfg s).errCmd = s.errCmd := rfl
@[simp] theorem raiseCfg_errCfg (s : State) : (raise .errCfg s).errCfg = true := rfl
@[simp] theorem raiseCfg_errIo (s : State) : (raise .errCfg s).errIo = s.errIo := rfl
@[simp] theorem raiseCfg_chan (s : State) : (raise .errCfg s).chan = s.chan := rfl
@[simp] theorem raiseCfg_cache (s : State) : (raise .errCfg s).cache = s.cache := rfl
@[simp] theorem raiseCfg_chanValid (s : State) : (raise .errCfg s).chanValid = s.chanValid := rfl
@[simp] theorem raiseCfg_freeCount (s : State) : (raise .errCfg s).freeCount = s.freeCount := rfl
@[simp] theorem raiseCfg_cmd (s : State) : (raise .errCfg s).cmd = s.cmd := rfl
@[simp] theorem raiseCfg_inp (s : State) : (raise .errCfg s).inp = s.inp := rfl
@[simp] theorem raiseCfg_pcm (s : State) : (raise .errCfg s).pcm = s.pcm := rfl
@[simp] theorem raiseCfg_rawOut (s : State) : (raise .errCfg s).rawOut = s.rawOut := rfl
@[simp] theorem raiseCfg_pcmRoom (s : State) : (raise .errCfg s).pcmRoom = s.pcmRoom := rfl
@[simp] theorem raiseCfg_rawRoom (s : State) : (raise .errCfg s).rawRoom = s.rawRoom := rfl
@[simp] theorem raiseCfg_inFlight (s : State) : (raise .errCfg s).inFlight = s.inFlight := rfl
@[simp] theorem raiseCfg_resetReq (s : State) : (raise .errCfg s).resetReq = s.resetReq := rfl

/-! ### `raise .errIo s` -/

@[simp] theorem raiseIo_nch (s : State) : (raise .errIo s).nch = s.nch := rfl
@[simp] theorem raiseIo_bps (s : State) : (raise .errIo s).bps = s.bps := rfl
@[simp] theorem raiseIo_fmt (s : State) : (raise .errIo s).fmt = s.fmt := rfl
@[simp] theorem raiseIo_flen (s : State) : (raise .errIo s).flen = s.flen := rfl
@[simp] theorem raiseIo_key (s : State) : (raise .errIo s).key = s.key := rfl
@[simp] theorem raiseIo_keymask (s : State) : (raise .errIo s).keymask = s.keymask := rfl
@[simp] theorem raiseIo_phase (s : State) : (raise .errIo s).phase = .halt := rfl
@[simp] theorem raiseIo_ch (s : State) : (raise .errIo s).ch = s.ch := rfl
@[simp] theorem raiseIo_pos (s : State) : (raise .errIo s).pos = s.pos := rfl
@[simp] theorem raiseIo_bcache (s : State) : (raise .errIo s).bcache = s.bcache := rfl
@[simp] theorem raiseIo_bcount (s : State) : (raise .errIo s).bcount = s.bcount := rfl
@[simp] theorem raiseIo_crc (s : State) : (raise .errIo s).crc = s.crc := rfl
@[simp] theorem raiseIo_crcCalc (s : State) : (raise .errIo s).crcCalc = s.crcCalc := rfl
@[simp] theorem raiseIo_crcStored (s : State) : (raise .errIo s).crcStored = s.crcStored := rfl
@[simp] theorem raiseIo_count (s : State) : (raise .errIo s).count = s.count := rfl
@[simp] theorem raiseIo_crcOk (s : State) : (raise .errIo s).crcOk = s.crcOk := rfl
@[simp] theorem raiseIo_crcErr (s : State) : (raise .errIo s).crcErr = s.crcErr := rfl
@[simp] theorem raiseIo_errCmd (s : State) : (raise .errIo s).errCmd = s.errCmd := rfl
@[simp] theorem raiseIo_errCfg (s : State) : (raise .errIo s).errCfg = s.errCfg := rfl
@[simp] theorem raiseIo_errIo (s : State) : (raise .errIo s).errIo = true := rfl
@[simp] theorem raiseIo_chan (s : State) : (raise .errIo s).chan = s.chan := rfl
@[simp] theorem raiseIo_cache (s : State) : (raise .errIo s).cache = s.cache := rfl
@[simp] theorem raiseIo_chanValid (s : State) : (raise .errIo s).chanValid = s.chanValid := rfl
@[simp] theorem raiseIo_freeCount (s : State) : (raise .errIo s).freeCount = s.freeCount := rfl
@[simp] theorem raiseIo_cmd (s : State) : (raise .errIo s).cmd = s.cmd := rfl
@[simp] theorem raiseIo_inp (s : State) : (raise .errIo s).inp = s.inp := rfl
@[simp] theorem raiseIo_pcm (s : State) : (raise .errIo s).pcm = s.pcm := rfl
@[simp] theorem raiseIo_rawOut (s : State) : (raise .errIo s).rawOut = s.rawOut := rfl
@[simp] theorem raiseIo_pcmRoom (s : State) : (raise .errIo s).pcmRoom = s.pcmRoom := rfl
@[simp] theorem raiseIo_rawRoom (s : State) : (raise .errIo s).rawRoom = s.rawRoom := rfl
@[simp] theorem raiseIo_inFlight (s : State) : (raise .errIo s).inFlight = s.inFlight := rfl
@[simp] theorem raiseIo_resetReq (s : State) : (raise .errIo s).resetReq = s.resetReq := rfl

/-! ### `readerReset s` -/

@[simp] theorem readerReset_nch (s : State) : (readerReset s).nch = s.nch := rfl
@[simp] theorem readerReset_bps (s : State) : (readerReset s).bps = s.bps := rfl
@[simp] theorem readerReset_fmt (s : State) : (readerReset s).fmt = s.fmt := rfl
@[simp] theorem readerReset_flen (s : State) : (readerReset s).flen = s.flen := rfl
@[simp] theorem readerReset_key (s : State) : (readerReset s).key = s.key := rfl
@[simp] theorem readerReset_keymask (s : State) : (readerReset s).keymask = s.keymask := rfl
@[simp] theorem readerReset_phase (s : State) : (readerReset s).phase = s.phase := rfl
@[simp] theorem readerReset_ch (s : State) : (readerReset s).ch = s.ch := rfl
@[simp] theorem readerReset_pos (s : State) : (readerReset s).pos = s.pos := rfl
@[simp] theorem readerReset_bcache (s : State) : (readerReset s).bcache = 0 := rfl
@[simp] theorem readerReset_bcount (s : State) : (readerReset s).bcount = 0 := rfl
@[simp] theorem readerReset_crc (s : State) : (readerReset s).crc = config.crcInit := rfl
@[simp] theorem readerReset_crcCalc (s : State) : (readerReset s).crcCalc = s.crcCalc := rfl
@[simp] theorem readerReset_crcStored (s : State) : (readerReset s).crcStored = s.crcStored := rfl
@[simp] theorem readerReset_count (s : State) : (readerReset s).count = s.count := rfl
@[simp] theorem readerReset_crcOk (s : State) : (readerReset s).crcOk = s.crcOk := rfl
@[simp] theorem readerReset_crcErr (s : State) : (readerReset s).crcErr = s.crcErr := rfl
@[simp] theorem readerReset_errCmd (s : State) : (readerReset s).errCmd = s.errCmd := rfl
@[simp] theorem readerReset_errCfg (s : State) : (readerReset s).errCfg = s.errCfg := rfl
@[simp] theorem readerReset_errIo (s : State) : (readerReset s).errIo = s.errIo := rfl
@[simp] theorem readerReset_chan (s : State) : (readerReset s).chan = s.chan := rfl
@[simp] theorem readerReset_cache (s : State) : (readerReset s).cache = s.cache := rfl
@[simp] theorem readerReset_chanValid (s : State) : (readerReset s).chanValid = s.chanValid := rfl
@[simp] theorem readerReset_freeCount (s : State) : (readerReset s).freeCount = s.freeCount := rfl
@[simp] theorem readerReset_cmd (s : State) : (readerReset s).cmd = s.cmd := rfl
@[simp] theorem readerReset_inp (s : State) : (readerReset s).inp = s.inp := rfl
@[simp] theorem readerReset_pcm (s : State) : (readerReset s).pcm = s.pcm := rfl
@[simp] theorem readerReset_rawOut (s : State) : (readerReset s).rawOut = s.rawOut := rfl
@[simp] theorem readerReset_pcmRoom (s : State) : (readerReset s).pcmRoom = s.pcmRoom := rfl
@[simp] theorem readerReset_rawRoom (s : State) : (readerReset s).rawRoom = s.rawRoom := rfl
@[simp] theorem readerReset_inFlight (s : State) : (readerReset s).inFlight = s.inFlight := rfl
@[simp] theorem readerReset_resetReq (s : State) : (readerReset s).resetReq = s.resetReq := rfl

/-! ### `reportChecksum sum stored s` -/

@[simp] theorem reportChecksum_nch (sum stored : Word) (s : State) : (reportChecksum sum stored s).nch = s.nch := rfl
@[simp] theorem reportChecksum_bps (sum stored : Word) (s : State) : (reportChecksum sum stored s).bps = s.bps := rfl
@[simp] theorem reportChecksum_fmt (sum stored : Word) (s : State) : (reportChecksum sum stored s).fmt = s.fmt := rfl
@[simp] theorem reportChecksum_flen (sum stored : Word) (s : State) : (reportChecksum sum stored s).flen = s.flen := rfl
@[simp] theorem reportChecksum_key (sum stored : Word) (s : State) : (reportChecksum sum stored s).key = s.key := rfl
@[simp] theorem reportChecksum_keymask (sum stored : Word) (s : State) : (reportChecksum sum stored s).keymask = s.keymask := rfl
@[simp] theorem reportChecksum_phase (sum stored : Word) (s : State) : (reportChecksum sum stored s).phase = s.phase := rfl
@[simp] theorem reportChecksum_ch (sum stored : Word) (s : State) : (reportChecksum sum stored s).ch = s.ch := rfl
@[simp] theorem reportChecksum_pos (sum stored : Word) (s : State) : (reportChecksum sum stored s).pos = s.pos := rfl
@[simp] theorem reportChecksum_bcache (sum stored : Word) (s : State) : (reportChecksum sum stored s).bcache = s.bcache := rfl
@[simp] theorem reportChecksum_bcount (sum stored : Word) (s : State) : (reportChecksum sum stored s).bcount = s.bcount := rfl
@[simp] theorem reportChecksum_crc (sum stored : Word) (s : State) : (reportChecksum sum stored s).crc = s.crc := rfl
@[simp] theorem reportChecksum_crcCalc (sum stored : Word) (s : State) : (reportChecksum sum stored s).crcCalc = sum := rfl
@[simp] theorem reportChecksum_crcStored (sum stored : Word) (s : State) : (reportChecksum sum stored s).crcStored = stored := rfl
@[simp] theorem reportChecksum_count (sum stored : Word) (s : State) : (reportChecksum sum stored s).count = s.count := rfl
@[simp] theorem reportChecksum_crcOk (sum stored : Word) (s : State) : (reportChecksum sum stored s).crcOk = (sum == stored) := rfl
@[simp] theorem reportChecksum_crcErr (sum stored : Word) (s : State) : (reportChecksum sum stored s).crcErr = (sum != stored) := rfl
@[simp] theorem reportChecksum_errCmd (sum stored : Word) (s : State) : (reportChecksum sum stored s).errCmd = s.errCmd := rfl
@[simp] theorem reportChecksum_errCfg (sum stored : Word) (s : State) : (reportChecksum sum stored s).errCfg = s.errCfg := rfl
@[simp] theorem reportChecksum_errIo (sum stored : Word) (s : State) : (reportChecksum sum stored s).errIo = s.errIo := rfl
@[simp] theorem reportChecksum_chan (sum stored : Word) (s : State) : (reportChecksum sum stored s).chan = s.chan := rfl
@[simp] theorem reportChecksum_cache (sum stored : Word) (s : State) : (reportChecksum sum stored s).cache = s.cache := rfl
@[simp] theorem reportChecksum_chanValid (sum stored : Word) (s : State) : (reportChecksum sum stored s).chanValid = s.chanValid := rfl
@[simp] theorem reportChecksum_freeCount (sum stored : Word) (s : State) : (reportChecksum sum stored s).freeCount = s.freeCount := rfl
@[simp] theorem reportChecksum_cmd (sum stored : Word) (s : State) : (reportChecksum sum stored s).cmd = s.cmd := rfl
@[simp] theorem reportChecksum_inp (sum stored : Word) (s : State) : (reportChecksum sum stored s).inp = s.inp := rfl
@[simp] theorem reportChecksum_pcm (sum stored : Word) (s : State) : (reportChecksum sum stored s).pcm = s.pcm := rfl
@[simp] theorem reportChecksum_rawOut (sum stored : Word) (s : State) : (reportChecksum sum stored s).rawOut = s.rawOut := rfl
@[simp] theorem reportChecksum_pcmRoom (sum stored : Word) (s : State) : (reportChecksum sum stored s).pcmRoom = s.pcmRoom := rfl
@[simp] theorem reportChecksum_rawRoom (sum stored : Word) (s : State) : (reportChecksum sum stored s).rawRoom = s.rawRoom := rfl
@[simp] theorem reportChecksum_inFlight (sum stored : Word) (s : State) : (reportChecksum sum stored s).inFlight = s.inFlight := rfl
@[simp] theorem reportChecksum_resetReq (sum stored : Word) (s : State) : (reportChecksum sum stored s).resetReq = s.resetReq := rfl

/-! ### `clearChecksumFlags s` -/

@[simp] theorem clearChecksumFlags_nch (s : State) : (clearChecksumFlags s).nch = s.nch := rfl
@[simp] theorem clearChecksumFlags_bps (s : State) : (clearChecksumFlags s).bps = s.bps := rfl
@[simp] theorem clearChecksumFlags_fmt (s : State) : (clearChecksumFlags s).fmt = s.fmt := rfl
@[simp] theorem clearChecksumFlags_flen (s : State) : (clearChecksumFlags s).flen = s.flen := rfl
@[simp] theorem clearChecksumFlags_key (s : State) : (clearChecksumFlags s).key = s.key := rfl
@[simp] theorem clearChecksumFlags_keymask (s : State) : (clearChecksumFlags s).keymask = s.keymask := rfl
@[simp] theorem clearChecksumFlags_phase (s : State) : (clearChecksumFlags s).phase = s.phase := rfl
@[simp] theorem clearChecksumFlags_ch (s : State) : (clearChecksumFlags s).ch = s.ch := rfl
@[simp] theorem clearChecksumFlags_pos (s : State) : (clearChecksumFlags s).pos = s.pos := rfl
@[simp] theorem clearChecksumFlags_bcache (s : State) : (clearChecksumFlags s).bcache = s.bcache := rfl
@[simp] theorem clearChecksumFlags_bcount (s : State) : (clearChecksumFlags s).bcount = s.bcount := rfl
@[simp] theorem clearChecksumFlags_crc (s : State) : (clearChecksumFlags s).crc = s.crc := rfl
@[simp] theorem clearChecksumFlags_crcCalc (s : State) : (clearChecksumFlags s).crcCalc = s.crcCalc := rfl
@[simp] theorem clearChecksumFlags_crcStored (s : State) : (clearChecksumFlags s).crcStored = s.crcStored := rfl
@[simp] theorem clearChecksumFlags_count (s : State) : (clearChecksumFlags s).count = s.count := rfl
@[simp] theorem clearChecksumFlags_crcOk (s : State) : (clearChecksumFlags s).crcOk = false := rfl
@[simp] theorem clearChecksumFlags_crcErr (s : State) : (clearChecksumFlags s).crcErr = false := rfl
@[simp] theorem clearChecksumFlags_errCmd (s : State) : (clearChecksumFlags s).errCmd = s.errCmd := rfl
@[simp] theorem clearChecksumFlags_errCfg (s : State) : (clearChecksumFlags s).errCfg = s.errCfg := rfl
@[simp] theorem clearChecksumFlags_errIo (s : State) : (clearChecksumFlags s).errIo = s.errIo := rfl
@[simp] theorem clearChecksumFlags_chan (s : State) : (clearChecksumFlags s).chan = s.chan := rfl
@[simp] theorem clearChecksumFlags_cache (s : State) : (clearChecksumFlags s).cache = s.cache := rfl
@[simp] theorem clearChecksumFlags_chanValid (s : State) : (clearChecksumFlags s).chanValid = s.chanValid := rfl
@[simp] theorem clearChecksumFlags_freeCount (s : State) : (clearChecksumFlags s).freeCount = s.freeCount := rfl
@[simp] theorem clearChecksumFlags_cmd (s : State) : (clearChecksumFlags s).cmd = s.cmd := rfl
@[simp] theorem clearChecksumFlags_inp (s : State) : (clearChecksumFlags s).inp = s.inp := rfl
@[simp] theorem clearChecksumFlags_pcm (s : State) : (clearChecksumFlags s).pcm = s.pcm := rfl
@[simp] theorem clearChecksumFlags_rawOut (s : State) : (clearChecksumFlags s).rawOut = s.rawOut := rfl
@[simp] theorem clearChecksumFlags_pcmRoom (s : State) : (clearChecksumFlags s).pcmRoom = s.pcmRoom := rfl
@[simp] theorem clearChecksumFlags_rawRoom (s : State) : (clearChecksumFlags s).rawRoom = s.rawRoom := rfl
@[simp] theorem clearChecksumFlags_inFlight (s : State) : (clearChecksumFlags s).inFlight = s.inFlight := rfl
@[simp] theorem clearChecksumFlags_resetReq (s : State) : (clearChecksumFlags s).resetReq = s.resetReq := rfl

/-! ### `resetBlock s` -/

@[simp] theorem resetBlock_nch (s : State) : (resetBlock s).nch = 0 := rfl
@[simp] theorem resetBlock_bps (s : State) : (resetBlock s).bps = 0 := rfl
@[simp] theorem resetBlock_fmt (s : State) : (resetBlock s).fmt = 0 := rfl
@[simp] theorem resetBlock_flen (s : State) : (resetBlock s).flen = 0 := rfl
@[simp] theorem resetBlock_key (s : State) : (resetBlock s).key = Vector.replicate Config.taps 0 := rfl
@[simp] theorem resetBlock_keymask (s : State) : (resetBlock s).keymask = 0 := rfl
@[simp] theorem resetBlock_phase (s : State) : (resetBlock s).phase = .idle := rfl
@[simp] theorem resetBlock_ch (s : State) : (resetBlock s).ch = 0 := rfl
@[simp] theorem resetBlock_pos (s : State) : (resetBlock s).pos = 0 := rfl
@[simp] theorem resetBlock_bcache (s : State) : (resetBlock s).bcache = 0 := rfl
@[simp] theorem resetBlock_bcount (s : State) : (resetBlock s).bcount = 0 := rfl
@[simp] theorem resetBlock_crc (s : State) : (resetBlock s).crc = 0xFFFFFFFF := rfl
@[simp] theorem resetBlock_crcCalc (s : State) : (resetBlock s).crcCalc = 0 := rfl
@[simp] theorem resetBlock_crcStored (s : State) : (resetBlock s).crcStored = 0 := rfl
@[simp] theorem resetBlock_count (s : State) : (resetBlock s).count = 0 := rfl
@[simp] theorem resetBlock_crcOk (s : State) : (resetBlock s).crcOk = false := rfl
@[simp] theorem resetBlock_crcErr (s : State) : (resetBlock s).crcErr = false := rfl
@[simp] theorem resetBlock_errCmd (s : State) : (resetBlock s).errCmd = false := rfl
@[simp] theorem resetBlock_errCfg (s : State) : (resetBlock s).errCfg = false := rfl
@[simp] theorem resetBlock_errIo (s : State) : (resetBlock s).errIo = false := rfl
@[simp] theorem resetBlock_chan (s : State) : (resetBlock s).chan =
      Vector.ofFn fun c => Channel.unspecified (s.freeCount + unspecifiedPerChannel * c.val) := rfl
@[simp] theorem resetBlock_cache (s : State) : (resetBlock s).cache = Vector.ofFn fun c => Config.freeWord (s.freeCount + unspecifiedPerChannel * c.val + 5) := rfl
@[simp] theorem resetBlock_chanValid (s : State) : (resetBlock s).chanValid = false := rfl
@[simp] theorem resetBlock_freeCount (s : State) : (resetBlock s).freeCount = s.freeCount + unspecifiedWords := rfl
@[simp] theorem resetBlock_cmd (s : State) : (resetBlock s).cmd = s.cmd := rfl
@[simp] theorem resetBlock_inp (s : State) : (resetBlock s).inp = s.inp := rfl
@[simp] theorem resetBlock_pcm (s : State) : (resetBlock s).pcm = s.pcm := rfl
@[simp] theorem resetBlock_rawOut (s : State) : (resetBlock s).rawOut = s.rawOut := rfl
@[simp] theorem resetBlock_pcmRoom (s : State) : (resetBlock s).pcmRoom = s.pcmRoom := rfl
@[simp] theorem resetBlock_rawRoom (s : State) : (resetBlock s).rawRoom = s.rawRoom := rfl
@[simp] theorem resetBlock_inFlight (s : State) : (resetBlock s).inFlight = none := rfl
@[simp] theorem resetBlock_resetReq (s : State) : (resetBlock s).resetReq = s.resetReq := rfl

/-! ### `hardwareReset s` -/

@[simp] theorem hardwareReset_nch (s : State) : (hardwareReset s).nch = 0 := rfl
@[simp] theorem hardwareReset_bps (s : State) : (hardwareReset s).bps = 0 := rfl
@[simp] theorem hardwareReset_fmt (s : State) : (hardwareReset s).fmt = 0 := rfl
@[simp] theorem hardwareReset_flen (s : State) : (hardwareReset s).flen = 0 := rfl
@[simp] theorem hardwareReset_key (s : State) : (hardwareReset s).key = Vector.replicate Config.taps 0 := rfl
@[simp] theorem hardwareReset_keymask (s : State) : (hardwareReset s).keymask = 0 := rfl
@[simp] theorem hardwareReset_phase (s : State) : (hardwareReset s).phase = .idle := rfl
@[simp] theorem hardwareReset_ch (s : State) : (hardwareReset s).ch = 0 := rfl
@[simp] theorem hardwareReset_pos (s : State) : (hardwareReset s).pos = 0 := rfl
@[simp] theorem hardwareReset_bcache (s : State) : (hardwareReset s).bcache = 0 := rfl
@[simp] theorem hardwareReset_bcount (s : State) : (hardwareReset s).bcount = 0 := rfl
@[simp] theorem hardwareReset_crc (s : State) : (hardwareReset s).crc = 0xFFFFFFFF := rfl
@[simp] theorem hardwareReset_crcCalc (s : State) : (hardwareReset s).crcCalc = 0 := rfl
@[simp] theorem hardwareReset_crcStored (s : State) : (hardwareReset s).crcStored = 0 := rfl
@[simp] theorem hardwareReset_count (s : State) : (hardwareReset s).count = 0 := rfl
@[simp] theorem hardwareReset_crcOk (s : State) : (hardwareReset s).crcOk = false := rfl
@[simp] theorem hardwareReset_crcErr (s : State) : (hardwareReset s).crcErr = false := rfl
@[simp] theorem hardwareReset_errCmd (s : State) : (hardwareReset s).errCmd = false := rfl
@[simp] theorem hardwareReset_errCfg (s : State) : (hardwareReset s).errCfg = false := rfl
@[simp] theorem hardwareReset_errIo (s : State) : (hardwareReset s).errIo = false := rfl
@[simp] theorem hardwareReset_chan (s : State) : (hardwareReset s).chan =
      Vector.ofFn fun c => Channel.unspecified (s.freeCount + unspecifiedPerChannel * c.val) := rfl
@[simp] theorem hardwareReset_cache (s : State) : (hardwareReset s).cache = Vector.ofFn fun c => Config.freeWord (s.freeCount + unspecifiedPerChannel * c.val + 5) := rfl
@[simp] theorem hardwareReset_chanValid (s : State) : (hardwareReset s).chanValid = false := rfl
@[simp] theorem hardwareReset_freeCount (s : State) : (hardwareReset s).freeCount = s.freeCount + unspecifiedWords := rfl
@[simp] theorem hardwareReset_cmd (s : State) : (hardwareReset s).cmd = s.cmd := rfl
@[simp] theorem hardwareReset_inp (s : State) : (hardwareReset s).inp = s.inp := rfl
@[simp] theorem hardwareReset_pcm (s : State) : (hardwareReset s).pcm = s.pcm := rfl
@[simp] theorem hardwareReset_rawOut (s : State) : (hardwareReset s).rawOut = s.rawOut := rfl
@[simp] theorem hardwareReset_pcmRoom (s : State) : (hardwareReset s).pcmRoom = s.pcmRoom := rfl
@[simp] theorem hardwareReset_rawRoom (s : State) : (hardwareReset s).rawRoom = s.rawRoom := rfl
@[simp] theorem hardwareReset_inFlight (s : State) : (hardwareReset s).inFlight = none := rfl
@[simp] theorem hardwareReset_resetReq (s : State) : (hardwareReset s).resetReq = false := rfl

/-! ### `placeCommand w s` -/

@[simp] theorem placeCommand_nch (w : Word) (s : State) : (placeCommand w s).nch = s.nch := rfl
@[simp] theorem placeCommand_bps (w : Word) (s : State) : (placeCommand w s).bps = s.bps := rfl
@[simp] theorem placeCommand_fmt (w : Word) (s : State) : (placeCommand w s).fmt = s.fmt := rfl
@[simp] theorem placeCommand_flen (w : Word) (s : State) : (placeCommand w s).flen = s.flen := rfl
@[simp] theorem placeCommand_key (w : Word) (s : State) : (placeCommand w s).key = s.key := rfl
@[simp] theorem placeCommand_keymask (w : Word) (s : State) : (placeCommand w s).keymask = s.keymask := rfl
@[simp] theorem placeCommand_phase (w : Word) (s : State) : (placeCommand w s).phase = s.phase := rfl
@[simp] theorem placeCommand_ch (w : Word) (s : State) : (placeCommand w s).ch = s.ch := rfl
@[simp] theorem placeCommand_pos (w : Word) (s : State) : (placeCommand w s).pos = s.pos := rfl
@[simp] theorem placeCommand_bcache (w : Word) (s : State) : (placeCommand w s).bcache = s.bcache := rfl
@[simp] theorem placeCommand_bcount (w : Word) (s : State) : (placeCommand w s).bcount = s.bcount := rfl
@[simp] theorem placeCommand_crc (w : Word) (s : State) : (placeCommand w s).crc = s.crc := rfl
@[simp] theorem placeCommand_crcCalc (w : Word) (s : State) : (placeCommand w s).crcCalc = s.crcCalc := rfl
@[simp] theorem placeCommand_crcStored (w : Word) (s : State) : (placeCommand w s).crcStored = s.crcStored := rfl
@[simp] theorem placeCommand_count (w : Word) (s : State) : (placeCommand w s).count = s.count := rfl
@[simp] theorem placeCommand_crcOk (w : Word) (s : State) : (placeCommand w s).crcOk = s.crcOk := rfl
@[simp] theorem placeCommand_crcErr (w : Word) (s : State) : (placeCommand w s).crcErr = s.crcErr := rfl
@[simp] theorem placeCommand_errCmd (w : Word) (s : State) : (placeCommand w s).errCmd = s.errCmd := rfl
@[simp] theorem placeCommand_errCfg (w : Word) (s : State) : (placeCommand w s).errCfg = s.errCfg := rfl
@[simp] theorem placeCommand_errIo (w : Word) (s : State) : (placeCommand w s).errIo = s.errIo := rfl
@[simp] theorem placeCommand_chan (w : Word) (s : State) : (placeCommand w s).chan = s.chan := rfl
@[simp] theorem placeCommand_cache (w : Word) (s : State) : (placeCommand w s).cache = s.cache := rfl
@[simp] theorem placeCommand_chanValid (w : Word) (s : State) : (placeCommand w s).chanValid = s.chanValid := rfl
@[simp] theorem placeCommand_freeCount (w : Word) (s : State) : (placeCommand w s).freeCount = s.freeCount := rfl
@[simp] theorem placeCommand_cmd (w : Word) (s : State) : (placeCommand w s).cmd = w :: s.cmd := rfl
@[simp] theorem placeCommand_inp (w : Word) (s : State) : (placeCommand w s).inp = s.inp := rfl
@[simp] theorem placeCommand_pcm (w : Word) (s : State) : (placeCommand w s).pcm = s.pcm := rfl
@[simp] theorem placeCommand_rawOut (w : Word) (s : State) : (placeCommand w s).rawOut = s.rawOut := rfl
@[simp] theorem placeCommand_pcmRoom (w : Word) (s : State) : (placeCommand w s).pcmRoom = s.pcmRoom := rfl
@[simp] theorem placeCommand_rawRoom (w : Word) (s : State) : (placeCommand w s).rawRoom = s.rawRoom := rfl
@[simp] theorem placeCommand_inFlight (w : Word) (s : State) : (placeCommand w s).inFlight = none := rfl
@[simp] theorem placeCommand_resetReq (w : Word) (s : State) : (placeCommand w s).resetReq = false := rfl

/-! ### `concludeVerify sum stored s` -/

@[simp] theorem concludeVerify_nch (sum stored : Word) (s : State) : (concludeVerify sum stored s).nch = s.nch := rfl
@[simp] theorem concludeVerify_bps (sum stored : Word) (s : State) : (concludeVerify sum stored s).bps = s.bps := rfl
@[simp] theorem concludeVerify_fmt (sum stored : Word) (s : State) : (concludeVerify sum stored s).fmt = s.fmt := rfl
@[simp] theorem concludeVerify_flen (sum stored : Word) (s : State) : (concludeVerify sum stored s).flen = s.flen := rfl
@[simp] theorem concludeVerify_key (sum stored : Word) (s : State) : (concludeVerify sum stored s).key = s.key := rfl
@[simp] theorem concludeVerify_keymask (sum stored : Word) (s : State) : (concludeVerify sum stored s).keymask = s.keymask := rfl
@[simp] theorem concludeVerify_phase (sum stored : Word) (s : State) : (concludeVerify sum stored s).phase = .idle := rfl
@[simp] theorem concludeVerify_ch (sum stored : Word) (s : State) : (concludeVerify sum stored s).ch = s.ch := rfl
@[simp] theorem concludeVerify_pos (sum stored : Word) (s : State) : (concludeVerify sum stored s).pos = s.pos := rfl
@[simp] theorem concludeVerify_bcache (sum stored : Word) (s : State) : (concludeVerify sum stored s).bcache = 0 := rfl
@[simp] theorem concludeVerify_bcount (sum stored : Word) (s : State) : (concludeVerify sum stored s).bcount = 0 := rfl
@[simp] theorem concludeVerify_crc (sum stored : Word) (s : State) : (concludeVerify sum stored s).crc = config.crcInit := rfl
@[simp] theorem concludeVerify_crcCalc (sum stored : Word) (s : State) : (concludeVerify sum stored s).crcCalc = sum := rfl
@[simp] theorem concludeVerify_crcStored (sum stored : Word) (s : State) : (concludeVerify sum stored s).crcStored = stored := rfl
@[simp] theorem concludeVerify_count (sum stored : Word) (s : State) : (concludeVerify sum stored s).count = s.count := rfl
@[simp] theorem concludeVerify_crcOk (sum stored : Word) (s : State) : (concludeVerify sum stored s).crcOk = (sum == stored) := rfl
@[simp] theorem concludeVerify_crcErr (sum stored : Word) (s : State) : (concludeVerify sum stored s).crcErr = (sum != stored) := rfl
@[simp] theorem concludeVerify_errCmd (sum stored : Word) (s : State) : (concludeVerify sum stored s).errCmd = s.errCmd := rfl
@[simp] theorem concludeVerify_errCfg (sum stored : Word) (s : State) : (concludeVerify sum stored s).errCfg = s.errCfg := rfl
@[simp] theorem concludeVerify_errIo (sum stored : Word) (s : State) : (concludeVerify sum stored s).errIo = s.errIo := rfl
@[simp] theorem concludeVerify_chan (sum stored : Word) (s : State) : (concludeVerify sum stored s).chan = s.chan := rfl
@[simp] theorem concludeVerify_cache (sum stored : Word) (s : State) : (concludeVerify sum stored s).cache = s.cache := rfl
@[simp] theorem concludeVerify_chanValid (sum stored : Word) (s : State) : (concludeVerify sum stored s).chanValid = s.chanValid := rfl
@[simp] theorem concludeVerify_freeCount (sum stored : Word) (s : State) : (concludeVerify sum stored s).freeCount = s.freeCount := rfl
@[simp] theorem concludeVerify_cmd (sum stored : Word) (s : State) : (concludeVerify sum stored s).cmd = s.cmd := rfl
@[simp] theorem concludeVerify_inp (sum stored : Word) (s : State) : (concludeVerify sum stored s).inp = s.inp := rfl
@[simp] theorem concludeVerify_pcm (sum stored : Word) (s : State) : (concludeVerify sum stored s).pcm = s.pcm := rfl
@[simp] theorem concludeVerify_rawOut (sum stored : Word) (s : State) : (concludeVerify sum stored s).rawOut = s.rawOut := rfl
@[simp] theorem concludeVerify_pcmRoom (sum stored : Word) (s : State) : (concludeVerify sum stored s).pcmRoom = s.pcmRoom := rfl
@[simp] theorem concludeVerify_rawRoom (sum stored : Word) (s : State) : (concludeVerify sum stored s).rawRoom = s.rawRoom := rfl
@[simp] theorem concludeVerify_inFlight (sum stored : Word) (s : State) : (concludeVerify sum stored s).inFlight = s.inFlight := rfl
@[simp] theorem concludeVerify_resetReq (sum stored : Word) (s : State) : (concludeVerify sum stored s).resetReq = s.resetReq := rfl

/-! ### `setPlain s` -/

@[simp] theorem setPlain_nch (s : State) : (setPlain s).nch = s.nch := rfl
@[simp] theorem setPlain_bps (s : State) : (setPlain s).bps = s.bps := rfl
@[simp] theorem setPlain_fmt (s : State) : (setPlain s).fmt = 1 := rfl
@[simp] theorem setPlain_flen (s : State) : (setPlain s).flen = s.flen := rfl
@[simp] theorem setPlain_key (s : State) : (setPlain s).key = Vector.ofFn fun _ => 0 := rfl
@[simp] theorem setPlain_keymask (s : State) : (setPlain s).keymask = 0 := rfl
@[simp] theorem setPlain_phase (s : State) : (setPlain s).phase = s.phase := rfl
@[simp] theorem setPlain_ch (s : State) : (setPlain s).ch = s.ch := rfl
@[simp] theorem setPlain_pos (s : State) : (setPlain s).pos = s.pos := rfl
@[simp] theorem setPlain_bcache (s : State) : (setPlain s).bcache = s.bcache := rfl
@[simp] theorem setPlain_bcount (s : State) : (setPlain s).bcount = s.bcount := rfl
@[simp] theorem setPlain_crc (s : State) : (setPlain s).crc = s.crc := rfl
@[simp] theorem setPlain_crcCalc (s : State) : (setPlain s).crcCalc = s.crcCalc := rfl
@[simp] theorem setPlain_crcStored (s : State) : (setPlain s).crcStored = s.crcStored := rfl
@[simp] theorem setPlain_count (s : State) : (setPlain s).count = s.count := rfl
@[simp] theorem setPlain_crcOk (s : State) : (setPlain s).crcOk = s.crcOk := rfl
@[simp] theorem setPlain_crcErr (s : State) : (setPlain s).crcErr = s.crcErr := rfl
@[simp] theorem setPlain_errCmd (s : State) : (setPlain s).errCmd = s.errCmd := rfl
@[simp] theorem setPlain_errCfg (s : State) : (setPlain s).errCfg = s.errCfg := rfl
@[simp] theorem setPlain_errIo (s : State) : (setPlain s).errIo = s.errIo := rfl
@[simp] theorem setPlain_chan (s : State) : (setPlain s).chan = s.chan := rfl
@[simp] theorem setPlain_cache (s : State) : (setPlain s).cache = s.cache := rfl
@[simp] theorem setPlain_chanValid (s : State) : (setPlain s).chanValid = s.chanValid := rfl
@[simp] theorem setPlain_freeCount (s : State) : (setPlain s).freeCount = s.freeCount := rfl
@[simp] theorem setPlain_cmd (s : State) : (setPlain s).cmd = s.cmd := rfl
@[simp] theorem setPlain_inp (s : State) : (setPlain s).inp = s.inp := rfl
@[simp] theorem setPlain_pcm (s : State) : (setPlain s).pcm = s.pcm := rfl
@[simp] theorem setPlain_rawOut (s : State) : (setPlain s).rawOut = s.rawOut := rfl
@[simp] theorem setPlain_pcmRoom (s : State) : (setPlain s).pcmRoom = s.pcmRoom := rfl
@[simp] theorem setPlain_rawRoom (s : State) : (setPlain s).rawRoom = s.rawRoom := rfl
@[simp] theorem setPlain_inFlight (s : State) : (setPlain s).inFlight = s.inFlight := rfl
@[simp] theorem setPlain_resetReq (s : State) : (setPlain s).resetReq = s.resetReq := rfl

/-! ### `setKey i d s` -/

@[simp] theorem setKey_nch (i d : Nat) (s : State) : (setKey i d s).nch = s.nch := rfl
@[simp] theorem setKey_bps (i d : Nat) (s : State) : (setKey i d s).bps = s.bps := rfl
@[simp] theorem setKey_fmt (i d : Nat) (s : State) : (setKey i d s).fmt = s.fmt := rfl
@[simp] theorem setKey_flen (i d : Nat) (s : State) : (setKey i d s).flen = s.flen := rfl
@[simp] theorem setKey_key (i d : Nat) (s : State) : (setKey i d s).key = s.key.setIfInBounds i (BitVec.ofNat 8 d) := rfl
@[simp] theorem setKey_keymask (i d : Nat) (s : State) : (setKey i d s).keymask = s.keymask ||| BitVec.ofNat 8 (2 ^ i) := rfl
@[simp] theorem setKey_phase (i d : Nat) (s : State) : (setKey i d s).phase = s.phase := rfl
@[simp] theorem setKey_ch (i d : Nat) (s : State) : (setKey i d s).ch = s.ch := rfl
@[simp] theorem setKey_pos (i d : Nat) (s : State) : (setKey i d s).pos = s.pos := rfl
@[simp] theorem setKey_bcache (i d : Nat) (s : State) : (setKey i d s).bcache = s.bcache := rfl
@[simp] theorem setKey_bcount (i d : Nat) (s : State) : (setKey i d s).bcount = s.bcount := rfl
@[simp] theorem setKey_crc (i d : Nat) (s : State) : (setKey i d s).crc = s.crc := rfl
@[simp] theorem setKey_crcCalc (i d : Nat) (s : State) : (setKey i d s).crcCalc = s.crcCalc := rfl
@[simp] theorem setKey_crcStored (i d : Nat) (s : State) : (setKey i d s).crcStored = s.crcStored := rfl
@[simp] theorem setKey_count (i d : Nat) (s : State) : (setKey i d s).count = s.count := rfl
@[simp] theorem setKey_crcOk (i d : Nat) (s : State) : (setKey i d s).crcOk = s.crcOk := rfl
@[simp] theorem setKey_crcErr (i d : Nat) (s : State) : (setKey i d s).crcErr = s.crcErr := rfl
@[simp] theorem setKey_errCmd (i d : Nat) (s : State) : (setKey i d s).errCmd = s.errCmd := rfl
@[simp] theorem setKey_errCfg (i d : Nat) (s : State) : (setKey i d s).errCfg = s.errCfg := rfl
@[simp] theorem setKey_errIo (i d : Nat) (s : State) : (setKey i d s).errIo = s.errIo := rfl
@[simp] theorem setKey_chan (i d : Nat) (s : State) : (setKey i d s).chan = s.chan := rfl
@[simp] theorem setKey_cache (i d : Nat) (s : State) : (setKey i d s).cache = s.cache := rfl
@[simp] theorem setKey_chanValid (i d : Nat) (s : State) : (setKey i d s).chanValid = s.chanValid := rfl
@[simp] theorem setKey_freeCount (i d : Nat) (s : State) : (setKey i d s).freeCount = s.freeCount := rfl
@[simp] theorem setKey_cmd (i d : Nat) (s : State) : (setKey i d s).cmd = s.cmd := rfl
@[simp] theorem setKey_inp (i d : Nat) (s : State) : (setKey i d s).inp = s.inp := rfl
@[simp] theorem setKey_pcm (i d : Nat) (s : State) : (setKey i d s).pcm = s.pcm := rfl
@[simp] theorem setKey_rawOut (i d : Nat) (s : State) : (setKey i d s).rawOut = s.rawOut := rfl
@[simp] theorem setKey_pcmRoom (i d : Nat) (s : State) : (setKey i d s).pcmRoom = s.pcmRoom := rfl
@[simp] theorem setKey_rawRoom (i d : Nat) (s : State) : (setKey i d s).rawRoom = s.rawRoom := rfl
@[simp] theorem setKey_inFlight (i d : Nat) (s : State) : (setKey i d s).inFlight = s.inFlight := rfl
@[simp] theorem setKey_resetReq (i d : Nat) (s : State) : (setKey i d s).resetReq = s.resetReq := rfl

/-! ### `openFrame s` -/

@[simp] theorem openFrame_nch (s : State) : (openFrame s).nch = s.nch := rfl
@[simp] theorem openFrame_bps (s : State) : (openFrame s).bps = s.bps := rfl
@[simp] theorem openFrame_fmt (s : State) : (openFrame s).fmt = s.fmt := rfl
@[simp] theorem openFrame_flen (s : State) : (openFrame s).flen = s.flen := rfl
@[simp] theorem openFrame_key (s : State) : (openFrame s).key = s.key := rfl
@[simp] theorem openFrame_keymask (s : State) : (openFrame s).keymask = s.keymask := rfl
@[simp] theorem openFrame_phase (s : State) : (openFrame s).phase = .decoding := rfl
@[simp] theorem openFrame_ch (s : State) : (openFrame s).ch = 0 := rfl
@[simp] theorem openFrame_pos (s : State) : (openFrame s).pos = 0 := rfl
@[simp] theorem openFrame_bcache (s : State) : (openFrame s).bcache = 0 := rfl
@[simp] theorem openFrame_bcount (s : State) : (openFrame s).bcount = 0 := rfl
@[simp] theorem openFrame_crc (s : State) : (openFrame s).crc = config.crcInit := rfl
@[simp] theorem openFrame_crcCalc (s : State) : (openFrame s).crcCalc = s.crcCalc := rfl
@[simp] theorem openFrame_crcStored (s : State) : (openFrame s).crcStored = s.crcStored := rfl
@[simp] theorem openFrame_count (s : State) : (openFrame s).count = 0 := rfl
@[simp] theorem openFrame_crcOk (s : State) : (openFrame s).crcOk = false := rfl
@[simp] theorem openFrame_crcErr (s : State) : (openFrame s).crcErr = false := rfl
@[simp] theorem openFrame_errCmd (s : State) : (openFrame s).errCmd = s.errCmd := rfl
@[simp] theorem openFrame_errCfg (s : State) : (openFrame s).errCfg = s.errCfg := rfl
@[simp] theorem openFrame_errIo (s : State) : (openFrame s).errIo = s.errIo := rfl
@[simp] theorem openFrame_chan (s : State) : (openFrame s).chan = Vector.ofFn fun c => initChannel s s.chan[c] := rfl
@[simp] theorem openFrame_cache (s : State) : (openFrame s).cache = Vector.ofFn fun _ => 0 := rfl
@[simp] theorem openFrame_chanValid (s : State) : (openFrame s).chanValid = true := rfl
@[simp] theorem openFrame_freeCount (s : State) : (openFrame s).freeCount = s.freeCount := rfl
@[simp] theorem openFrame_cmd (s : State) : (openFrame s).cmd = s.cmd := rfl
@[simp] theorem openFrame_inp (s : State) : (openFrame s).inp = s.inp := rfl
@[simp] theorem openFrame_pcm (s : State) : (openFrame s).pcm = s.pcm := rfl
@[simp] theorem openFrame_rawOut (s : State) : (openFrame s).rawOut = s.rawOut := rfl
@[simp] theorem openFrame_pcmRoom (s : State) : (openFrame s).pcmRoom = s.pcmRoom := rfl
@[simp] theorem openFrame_rawRoom (s : State) : (openFrame s).rawRoom = s.rawRoom := rfl
@[simp] theorem openFrame_inFlight (s : State) : (openFrame s).inFlight = s.inFlight := rfl
@[simp] theorem openFrame_resetReq (s : State) : (openFrame s).resetReq = s.resetReq := rfl

/-! ### `restartReader s` -/

@[simp] theorem restartReader_nch (s : State) : (restartReader s).nch = s.nch := rfl
@[simp] theorem restartReader_bps (s : State) : (restartReader s).bps = s.bps := rfl
@[simp] theorem restartReader_fmt (s : State) : (restartReader s).fmt = s.fmt := rfl
@[simp] theorem restartReader_flen (s : State) : (restartReader s).flen = s.flen := rfl
@[simp] theorem restartReader_key (s : State) : (restartReader s).key = s.key := rfl
@[simp] theorem restartReader_keymask (s : State) : (restartReader s).keymask = s.keymask := rfl
@[simp] theorem restartReader_phase (s : State) : (restartReader s).phase = .idle := rfl
@[simp] theorem restartReader_ch (s : State) : (restartReader s).ch = 0 := rfl
@[simp] theorem restartReader_pos (s : State) : (restartReader s).pos = 0 := rfl
@[simp] theorem restartReader_bcache (s : State) : (restartReader s).bcache = 0 := rfl
@[simp] theorem restartReader_bcount (s : State) : (restartReader s).bcount = 0 := rfl
@[simp] theorem restartReader_crc (s : State) : (restartReader s).crc = config.crcInit := rfl
@[simp] theorem restartReader_crcCalc (s : State) : (restartReader s).crcCalc = s.crcCalc := rfl
@[simp] theorem restartReader_crcStored (s : State) : (restartReader s).crcStored = s.crcStored := rfl
@[simp] theorem restartReader_count (s : State) : (restartReader s).count = 0 := rfl
@[simp] theorem restartReader_crcOk (s : State) : (restartReader s).crcOk = false := rfl
@[simp] theorem restartReader_crcErr (s : State) : (restartReader s).crcErr = false := rfl
@[simp] theorem restartReader_errCmd (s : State) : (restartReader s).errCmd = s.errCmd := rfl
@[simp] theorem restartReader_errCfg (s : State) : (restartReader s).errCfg = s.errCfg := rfl
@[simp] theorem restartReader_errIo (s : State) : (restartReader s).errIo = s.errIo := rfl
@[simp] theorem restartReader_chan (s : State) : (restartReader s).chan = s.chan := rfl
@[simp] theorem restartReader_cache (s : State) : (restartReader s).cache = s.cache := rfl
@[simp] theorem restartReader_chanValid (s : State) : (restartReader s).chanValid = s.chanValid := rfl
@[simp] theorem restartReader_freeCount (s : State) : (restartReader s).freeCount = s.freeCount := rfl
@[simp] theorem restartReader_cmd (s : State) : (restartReader s).cmd = s.cmd := rfl
@[simp] theorem restartReader_inp (s : State) : (restartReader s).inp = s.inp := rfl
@[simp] theorem restartReader_pcm (s : State) : (restartReader s).pcm = s.pcm := rfl
@[simp] theorem restartReader_rawOut (s : State) : (restartReader s).rawOut = s.rawOut := rfl
@[simp] theorem restartReader_pcmRoom (s : State) : (restartReader s).pcmRoom = s.pcmRoom := rfl
@[simp] theorem restartReader_rawRoom (s : State) : (restartReader s).rawRoom = s.rawRoom := rfl
@[simp] theorem restartReader_inFlight (s : State) : (restartReader s).inFlight = s.inFlight := rfl
@[simp] theorem restartReader_resetReq (s : State) : (restartReader s).resetReq = s.resetReq := rfl

/-! ### `storeSample v s` -/

@[simp] theorem storeSample_nch (v : Level × Word) (s : State) : (storeSample v s).nch = s.nch := rfl
@[simp] theorem storeSample_bps (v : Level × Word) (s : State) : (storeSample v s).bps = s.bps := rfl
@[simp] theorem storeSample_fmt (v : Level × Word) (s : State) : (storeSample v s).fmt = s.fmt := rfl
@[simp] theorem storeSample_flen (v : Level × Word) (s : State) : (storeSample v s).flen = s.flen := rfl
@[simp] theorem storeSample_key (v : Level × Word) (s : State) : (storeSample v s).key = s.key := rfl
@[simp] theorem storeSample_keymask (v : Level × Word) (s : State) : (storeSample v s).keymask = s.keymask := rfl
@[simp] theorem storeSample_phase (v : Level × Word) (s : State) : (storeSample v s).phase = s.phase := rfl
@[simp] theorem storeSample_ch (v : Level × Word) (s : State) : (storeSample v s).ch = s.ch := rfl
@[simp] theorem storeSample_pos (v : Level × Word) (s : State) : (storeSample v s).pos = s.pos := rfl
@[simp] theorem storeSample_bcache (v : Level × Word) (s : State) : (storeSample v s).bcache = s.bcache := rfl
@[simp] theorem storeSample_bcount (v : Level × Word) (s : State) : (storeSample v s).bcount = s.bcount := rfl
@[simp] theorem storeSample_crc (v : Level × Word) (s : State) : (storeSample v s).crc = s.crc := rfl
@[simp] theorem storeSample_crcCalc (v : Level × Word) (s : State) : (storeSample v s).crcCalc = s.crcCalc := rfl
@[simp] theorem storeSample_crcStored (v : Level × Word) (s : State) : (storeSample v s).crcStored = s.crcStored := rfl
@[simp] theorem storeSample_count (v : Level × Word) (s : State) : (storeSample v s).count = s.count := rfl
@[simp] theorem storeSample_crcOk (v : Level × Word) (s : State) : (storeSample v s).crcOk = s.crcOk := rfl
@[simp] theorem storeSample_crcErr (v : Level × Word) (s : State) : (storeSample v s).crcErr = s.crcErr := rfl
@[simp] theorem storeSample_errCmd (v : Level × Word) (s : State) : (storeSample v s).errCmd = s.errCmd := rfl
@[simp] theorem storeSample_errCfg (v : Level × Word) (s : State) : (storeSample v s).errCfg = s.errCfg := rfl
@[simp] theorem storeSample_errIo (v : Level × Word) (s : State) : (storeSample v s).errIo = s.errIo := rfl
@[simp] theorem storeSample_chan (v : Level × Word) (s : State) : (storeSample v s).chan = s.chan.setIfInBounds s.ch.toNat (sampleStages (shiftOf s) v (channelAt s s.ch.toNat)).2 := rfl
@[simp] theorem storeSample_cache (v : Level × Word) (s : State) : (storeSample v s).cache = cacheSet s.cache s.ch.toNat (sampleStages (shiftOf s) v (channelAt s s.ch.toNat)).1 := rfl
@[simp] theorem storeSample_chanValid (v : Level × Word) (s : State) : (storeSample v s).chanValid = s.chanValid := rfl
@[simp] theorem storeSample_freeCount (v : Level × Word) (s : State) : (storeSample v s).freeCount = s.freeCount := rfl
@[simp] theorem storeSample_cmd (v : Level × Word) (s : State) : (storeSample v s).cmd = s.cmd := rfl
@[simp] theorem storeSample_inp (v : Level × Word) (s : State) : (storeSample v s).inp = s.inp := rfl
@[simp] theorem storeSample_pcm (v : Level × Word) (s : State) : (storeSample v s).pcm = s.pcm := rfl
@[simp] theorem storeSample_rawOut (v : Level × Word) (s : State) : (storeSample v s).rawOut = s.rawOut := rfl
@[simp] theorem storeSample_pcmRoom (v : Level × Word) (s : State) : (storeSample v s).pcmRoom = s.pcmRoom := rfl
@[simp] theorem storeSample_rawRoom (v : Level × Word) (s : State) : (storeSample v s).rawRoom = s.rawRoom := rfl
@[simp] theorem storeSample_inFlight (v : Level × Word) (s : State) : (storeSample v s).inFlight = s.inFlight := rfl
@[simp] theorem storeSample_resetReq (v : Level × Word) (s : State) : (storeSample v s).resetReq = s.resetReq := rfl

/-! ### `decorrelateCache s` -/

@[simp] theorem decorrelateCache_nch (s : State) : (decorrelateCache s).nch = s.nch := rfl
@[simp] theorem decorrelateCache_bps (s : State) : (decorrelateCache s).bps = s.bps := rfl
@[simp] theorem decorrelateCache_fmt (s : State) : (decorrelateCache s).fmt = s.fmt := rfl
@[simp] theorem decorrelateCache_flen (s : State) : (decorrelateCache s).flen = s.flen := rfl
@[simp] theorem decorrelateCache_key (s : State) : (decorrelateCache s).key = s.key := rfl
@[simp] theorem decorrelateCache_keymask (s : State) : (decorrelateCache s).keymask = s.keymask := rfl
@[simp] theorem decorrelateCache_phase (s : State) : (decorrelateCache s).phase = s.phase := rfl
@[simp] theorem decorrelateCache_ch (s : State) : (decorrelateCache s).ch = s.ch := rfl
@[simp] theorem decorrelateCache_pos (s : State) : (decorrelateCache s).pos = s.pos := rfl
@[simp] theorem decorrelateCache_bcache (s : State) : (decorrelateCache s).bcache = s.bcache := rfl
@[simp] theorem decorrelateCache_bcount (s : State) : (decorrelateCache s).bcount = s.bcount := rfl
@[simp] theorem decorrelateCache_crc (s : State) : (decorrelateCache s).crc = s.crc := rfl
@[simp] theorem decorrelateCache_crcCalc (s : State) : (decorrelateCache s).crcCalc = s.crcCalc := rfl
@[simp] theorem decorrelateCache_crcStored (s : State) : (decorrelateCache s).crcStored = s.crcStored := rfl
@[simp] theorem decorrelateCache_count (s : State) : (decorrelateCache s).count = s.count := rfl
@[simp] theorem decorrelateCache_crcOk (s : State) : (decorrelateCache s).crcOk = s.crcOk := rfl
@[simp] theorem decorrelateCache_crcErr (s : State) : (decorrelateCache s).crcErr = s.crcErr := rfl
@[simp] theorem decorrelateCache_errCmd (s : State) : (decorrelateCache s).errCmd = s.errCmd := rfl
@[simp] theorem decorrelateCache_errCfg (s : State) : (decorrelateCache s).errCfg = s.errCfg := rfl
@[simp] theorem decorrelateCache_errIo (s : State) : (decorrelateCache s).errIo = s.errIo := rfl
@[simp] theorem decorrelateCache_chan (s : State) : (decorrelateCache s).chan = s.chan := rfl
@[simp] theorem decorrelateCache_cache (s : State) : (decorrelateCache s).cache = decorrelate s.nch.toNat s.cache := rfl
@[simp] theorem decorrelateCache_chanValid (s : State) : (decorrelateCache s).chanValid = s.chanValid := rfl
@[simp] theorem decorrelateCache_freeCount (s : State) : (decorrelateCache s).freeCount = s.freeCount := rfl
@[simp] theorem decorrelateCache_cmd (s : State) : (decorrelateCache s).cmd = s.cmd := rfl
@[simp] theorem decorrelateCache_inp (s : State) : (decorrelateCache s).inp = s.inp := rfl
@[simp] theorem decorrelateCache_pcm (s : State) : (decorrelateCache s).pcm = s.pcm := rfl
@[simp] theorem decorrelateCache_rawOut (s : State) : (decorrelateCache s).rawOut = s.rawOut := rfl
@[simp] theorem decorrelateCache_pcmRoom (s : State) : (decorrelateCache s).pcmRoom = s.pcmRoom := rfl
@[simp] theorem decorrelateCache_rawRoom (s : State) : (decorrelateCache s).rawRoom = s.rawRoom := rfl
@[simp] theorem decorrelateCache_inFlight (s : State) : (decorrelateCache s).inFlight = s.inFlight := rfl
@[simp] theorem decorrelateCache_resetReq (s : State) : (decorrelateCache s).resetReq = s.resetReq := rfl

/-! ### `closeTimeStep s` -/

@[simp] theorem closeTimeStep_nch (s : State) : (closeTimeStep s).nch = s.nch := rfl
@[simp] theorem closeTimeStep_bps (s : State) : (closeTimeStep s).bps = s.bps := rfl
@[simp] theorem closeTimeStep_fmt (s : State) : (closeTimeStep s).fmt = s.fmt := rfl
@[simp] theorem closeTimeStep_flen (s : State) : (closeTimeStep s).flen = s.flen := rfl
@[simp] theorem closeTimeStep_key (s : State) : (closeTimeStep s).key = s.key := rfl
@[simp] theorem closeTimeStep_keymask (s : State) : (closeTimeStep s).keymask = s.keymask := rfl
@[simp] theorem closeTimeStep_phase (s : State) : (closeTimeStep s).phase = if s.pos + 1 = s.flen then .frameEnd else s.phase := rfl
@[simp] theorem closeTimeStep_ch (s : State) : (closeTimeStep s).ch = 0 := rfl
@[simp] theorem closeTimeStep_pos (s : State) : (closeTimeStep s).pos = s.pos + 1 := rfl
@[simp] theorem closeTimeStep_bcache (s : State) : (closeTimeStep s).bcache = s.bcache := rfl
@[simp] theorem closeTimeStep_bcount (s : State) : (closeTimeStep s).bcount = s.bcount := rfl
@[simp] theorem closeTimeStep_crc (s : State) : (closeTimeStep s).crc = s.crc := rfl
@[simp] theorem closeTimeStep_crcCalc (s : State) : (closeTimeStep s).crcCalc = s.crcCalc := rfl
@[simp] theorem closeTimeStep_crcStored (s : State) : (closeTimeStep s).crcStored = s.crcStored := rfl
@[simp] theorem closeTimeStep_count (s : State) : (closeTimeStep s).count = s.count := rfl
@[simp] theorem closeTimeStep_crcOk (s : State) : (closeTimeStep s).crcOk = s.crcOk := rfl
@[simp] theorem closeTimeStep_crcErr (s : State) : (closeTimeStep s).crcErr = s.crcErr := rfl
@[simp] theorem closeTimeStep_errCmd (s : State) : (closeTimeStep s).errCmd = s.errCmd := rfl
@[simp] theorem closeTimeStep_errCfg (s : State) : (closeTimeStep s).errCfg = s.errCfg := rfl
@[simp] theorem closeTimeStep_errIo (s : State) : (closeTimeStep s).errIo = s.errIo := rfl
@[simp] theorem closeTimeStep_chan (s : State) : (closeTimeStep s).chan = s.chan := rfl
@[simp] theorem closeTimeStep_cache (s : State) : (closeTimeStep s).cache = s.cache := rfl
@[simp] theorem closeTimeStep_chanValid (s : State) : (closeTimeStep s).chanValid = s.chanValid := rfl
@[simp] theorem closeTimeStep_freeCount (s : State) : (closeTimeStep s).freeCount = s.freeCount := rfl
@[simp] theorem closeTimeStep_cmd (s : State) : (closeTimeStep s).cmd = s.cmd := rfl
@[simp] theorem closeTimeStep_inp (s : State) : (closeTimeStep s).inp = s.inp := rfl
@[simp] theorem closeTimeStep_pcm (s : State) : (closeTimeStep s).pcm = s.pcm := rfl
@[simp] theorem closeTimeStep_rawOut (s : State) : (closeTimeStep s).rawOut = s.rawOut := rfl
@[simp] theorem closeTimeStep_pcmRoom (s : State) : (closeTimeStep s).pcmRoom = s.pcmRoom := rfl
@[simp] theorem closeTimeStep_rawRoom (s : State) : (closeTimeStep s).rawRoom = s.rawRoom := rfl
@[simp] theorem closeTimeStep_inFlight (s : State) : (closeTimeStep s).inFlight = s.inFlight := rfl
@[simp] theorem closeTimeStep_resetReq (s : State) : (closeTimeStep s).resetReq = s.resetReq := rfl

/-! ### `hostProvides pcmMore rawMore items s` -/

@[simp] theorem hostProvides_nch (pcmMore rawMore : Option Nat) (items : List SrcItem) (s : State) :
    (hostProvides pcmMore rawMore items s).nch = s.nch := rfl
@[simp] theorem hostProvides_bps (pcmMore rawMore : Option Nat) (items : List SrcItem) (s : State) :
    (hostProvides pcmMore rawMore items s).bps = s.bps := rfl
@[simp] theorem hostProvides_fmt (pcmMore rawMore : Option Nat) (items : List SrcItem) (s : State) :
    (hostProvides pcmMore rawMore items s).fmt = s.fmt := rfl
@[simp] theorem hostProvides_flen (pcmMore rawMore : Option Nat) (items : List SrcItem) (s : State) :
    (hostProvides pcmMore rawMore items s).flen = s.flen := rfl
@[simp] theorem hostProvides_key (pcmMore rawMore : Option Nat) (items : List SrcItem) (s : State) :
    (hostProvides pcmMore rawMore items s).key = s.key := rfl
@[simp] theorem hostProvides_keymask (pcmMore rawMore : Option Nat) (items : List SrcItem) (s : State) :
    (hostProvides pcmMore rawMore items s).keymask = s.keymask := rfl
@[simp] theorem hostProvides_phase (pcmMore rawMore : Option Nat) (items : List SrcItem) (s : State) :
    (hostProvides pcmMore rawMore items s).phase = s.phase := rfl
@[simp] theorem hostProvides_ch (pcmMore rawMore : Option Nat) (items : List SrcItem) (s : State) :
    (hostProvides pcmMore rawMore items s).ch = s.ch := rfl
@[simp] theorem hostProvides_pos (pcmMore rawMore : Option Nat) (items : List SrcItem) (s : State) :
    (hostProvides pcmMore rawMore items s).pos = s.pos := rfl
@[simp] theorem hostProvides_bcache (pcmMore rawMore : Option Nat) (items : List SrcItem) (s : State) :
    (hostProvides pcmMore rawMore items s).bcache = s.bcache := rfl
@[simp] theorem hostProvides_bcount (pcmMore rawMore : Option Nat) (items : List SrcItem) (s : State) :
    (hostProvides pcmMore rawMore items s).bcount = s.bcount := rfl
@[simp] theorem hostProvides_crc (pcmMore rawMore : Option Nat) (items : List SrcItem) (s : State) :
    (hostProvides pcmMore rawMore items s).crc = s.crc := rfl
@[simp] theorem hostProvides_crcCalc (pcmMore rawMore : Option Nat) (items : List SrcItem) (s : State) :
    (hostProvides pcmMore rawMore items s).crcCalc = s.crcCalc := rfl
@[simp] theorem hostProvides_crcStored (pcmMore rawMore : Option Nat) (items : List SrcItem) (s : State) :
    (hostProvides pcmMore rawMore items s).crcStored = s.crcStored := rfl
@[simp] theorem hostProvides_count (pcmMore rawMore : Option Nat) (items : List SrcItem) (s : State) :
    (hostProvides pcmMore rawMore items s).count = s.count := rfl
@[simp] theorem hostProvides_crcOk (pcmMore rawMore : Option Nat) (items : List SrcItem) (s : State) :
    (hostProvides pcmMore rawMore items s).crcOk = s.crcOk := rfl
@[simp] theorem hostProvides_crcErr (pcmMore rawMore : Option Nat) (items : List SrcItem) (s : State) :
    (hostProvides pcmMore rawMore items s).crcErr = s.crcErr := rfl
@[simp] theorem hostProvides_errCmd (pcmMore rawMore : Option Nat) (items : List SrcItem) (s : State) :
    (hostProvides pcmMore rawMore items s).errCmd = s.errCmd := rfl
@[simp] theorem hostProvides_errCfg (pcmMore rawMore : Option Nat) (items : List SrcItem) (s : State) :
    (hostProvides pcmMore rawMore items s).errCfg = s.errCfg := rfl
@[simp] theorem hostProvides_errIo (pcmMore rawMore : Option Nat) (items : List SrcItem) (s : State) :
    (hostProvides pcmMore rawMore items s).errIo = s.errIo := rfl
@[simp] theorem hostProvides_chan (pcmMore rawMore : Option Nat) (items : List SrcItem) (s : State) :
    (hostProvides pcmMore rawMore items s).chan = s.chan := rfl
@[simp] theorem hostProvides_cache (pcmMore rawMore : Option Nat) (items : List SrcItem) (s : State) :
    (hostProvides pcmMore rawMore items s).cache = s.cache := rfl
@[simp] theorem hostProvides_chanValid (pcmMore rawMore : Option Nat) (items : List SrcItem) (s : State) :
    (hostProvides pcmMore rawMore items s).chanValid = s.chanValid := rfl
@[simp] theorem hostProvides_freeCount (pcmMore rawMore : Option Nat) (items : List SrcItem) (s : State) :
    (hostProvides pcmMore rawMore items s).freeCount = s.freeCount := rfl
@[simp] theorem hostProvides_cmd (pcmMore rawMore : Option Nat) (items : List SrcItem) (s : State) :
    (hostProvides pcmMore rawMore items s).cmd = s.cmd := rfl
@[simp] theorem hostProvides_inp (pcmMore rawMore : Option Nat) (items : List SrcItem) (s : State) :
    (hostProvides pcmMore rawMore items s).inp = s.inp ++ items := rfl
@[simp] theorem hostProvides_pcm (pcmMore rawMore : Option Nat) (items : List SrcItem) (s : State) :
    (hostProvides pcmMore rawMore items s).pcm = s.pcm := rfl
@[simp] theorem hostProvides_rawOut (pcmMore rawMore : Option Nat) (items : List SrcItem) (s : State) :
    (hostProvides pcmMore rawMore items s).rawOut = s.rawOut := rfl
@[simp] theorem hostProvides_pcmRoom (pcmMore rawMore : Option Nat) (items : List SrcItem) (s : State) :
    (hostProvides pcmMore rawMore items s).pcmRoom = moreRoom pcmMore s.pcmRoom := rfl
@[simp] theorem hostProvides_rawRoom (pcmMore rawMore : Option Nat) (items : List SrcItem) (s : State) :
    (hostProvides pcmMore rawMore items s).rawRoom = moreRoom rawMore s.rawRoom := rfl
@[simp] theorem hostProvides_inFlight (pcmMore rawMore : Option Nat) (items : List SrcItem) (s : State) :
    (hostProvides pcmMore rawMore items s).inFlight = s.inFlight := rfl
@[simp] theorem hostProvides_resetReq (pcmMore rawMore : Option Nat) (items : List SrcItem) (s : State) :
    (hostProvides pcmMore rawMore items s).resetReq = s.resetReq := rfl

end Sys2Proof.Machine
end

