-- ==== Sys2Proof/Laws/Units.lean ====
section
/-! SUPPORT. What each unit's operation is at the record `config`, said once; later proofs cite these and unfold neither the
record nor the rules behind it. -/

namespace Sys2Proof.Machine

/-! ## The parts of a channel -/

@[simp] theorem Channel.entropy_k0 (ch : Channel) : ch.entropy.k0 = ch.k0 := rfl
@[simp] theorem Channel.entropy_k1 (ch : Channel) : ch.entropy.k1 = ch.k1 := rfl
@[simp] theorem Channel.entropy_sum0 (ch : Channel) : ch.entropy.sum0 = ch.sum0 := rfl
@[simp] theorem Channel.entropy_sum1 (ch : Channel) : ch.entropy.sum1 = ch.sum1 := rfl
@[simp] theorem Channel.filter_coef (ch : Channel) : ch.filter.coef = ch.coef := rfl
@[simp] theorem Channel.filter_hist (ch : Channel) : ch.filter.hist = ch.hist := rfl
@[simp] theorem Channel.filter_extra (ch : Channel) : ch.filter.extra = ch.extra := rfl

@[simp] theorem Channel.withEntropy_k0 (e : EntropyState) (ch : Channel) : (ch.withEntropy e).k0 = e.k0 := rfl
@[simp] theorem Channel.withEntropy_k1 (e : EntropyState) (ch : Channel) : (ch.withEntropy e).k1 = e.k1 := rfl
@[simp] theorem Channel.withEntropy_sum0 (e : EntropyState) (ch : Channel) : (ch.withEntropy e).sum0 = e.sum0 := rfl
@[simp] theorem Channel.withEntropy_sum1 (e : EntropyState) (ch : Channel) : (ch.withEntropy e).sum1 = e.sum1 := rfl
@[simp] theorem Channel.withEntropy_coef (e : EntropyState) (ch : Channel) : (ch.withEntropy e).coef = ch.coef := rfl
@[simp] theorem Channel.withEntropy_hist (e : EntropyState) (ch : Channel) : (ch.withEntropy e).hist = ch.hist := rfl
@[simp] theorem Channel.withEntropy_prev (e : EntropyState) (ch : Channel) : (ch.withEntropy e).prev = ch.prev := rfl
@[simp] theorem Channel.withEntropy_extra (e : EntropyState) (ch : Channel) : (ch.withEntropy e).extra = ch.extra := rfl

@[simp] theorem Channel.withFilter_k0 (f : FilterState) (ch : Channel) : (ch.withFilter f).k0 = ch.k0 := rfl
@[simp] theorem Channel.withFilter_k1 (f : FilterState) (ch : Channel) : (ch.withFilter f).k1 = ch.k1 := rfl
@[simp] theorem Channel.withFilter_sum0 (f : FilterState) (ch : Channel) : (ch.withFilter f).sum0 = ch.sum0 := rfl
@[simp] theorem Channel.withFilter_sum1 (f : FilterState) (ch : Channel) : (ch.withFilter f).sum1 = ch.sum1 := rfl
@[simp] theorem Channel.withFilter_coef (f : FilterState) (ch : Channel) : (ch.withFilter f).coef = f.coef := rfl
@[simp] theorem Channel.withFilter_hist (f : FilterState) (ch : Channel) : (ch.withFilter f).hist = f.hist := rfl
@[simp] theorem Channel.withFilter_prev (f : FilterState) (ch : Channel) : (ch.withFilter f).prev = ch.prev := rfl
@[simp] theorem Channel.withFilter_extra (f : FilterState) (ch : Channel) : (ch.withFilter f).extra = f.extra := rfl

/-! ## Entropy decoder -/

/-- One adaptation: the sum decays and takes in the value, the parameter moves by at most one (40_entropy_decoder.md R115,
R116). -/
theorem adapt_eq (k sum v : Word) :
    adapt k sum v = (moveByOne powerWatermark k (sum + v - shr sum 4), sum + v - shr sum 4) := rfl

@[simp] theorem codeValue_zero (ch : Channel) (a : Word) : codeValue ch (.zero, a) = a := rfl
@[simp] theorem codeValue_one (ch : Channel) (a : Word) : codeValue ch (.one, a) = a + shl 1 ch.k0.toNat := rfl

/-- The residual is the sign map of the code value (40_entropy_decoder.md R118). -/
theorem entropyUpdate_residual (ch : Channel) (v : Level × Word) : (entropyUpdate ch v).1 = unmap (codeValue ch v) := rfl

/-- A level-0 value adapts `K0` and `SUM0` alone (40_entropy_decoder.md R116). -/
theorem entropyUpdate_zero (ch : Channel) (a : Word) :
    (entropyUpdate ch (.zero, a)).2 =
      { ch with k0 := (adapt ch.k0 ch.sum0 a).1, sum0 := (adapt ch.k0 ch.sum0 a).2 } := rfl

/-- A level-1 value adapts `K1` and `SUM1` with the value before the offset, and `K0` and `SUM0` with the code value
(40_entropy_decoder.md R115, R116). -/
theorem entropyUpdate_one (ch : Channel) (a : Word) :
    (entropyUpdate ch (.one, a)).2 =
      { ch with
        k0 := (adapt ch.k0 ch.sum0 (codeValue ch (.one, a))).1, sum0 := (adapt ch.k0 ch.sum0 (codeValue ch (.one, a))).2
        k1 := (adapt ch.k1 ch.sum1 a).1, sum1 := (adapt ch.k1 ch.sum1 a).2 } := rfl

/-- `EntropyInit` (40_entropy_decoder.md R112). -/
theorem entropyInit_eq (ch : Channel) :
    entropyInit ch = { ch with k0 := 10, k1 := 10, sum0 := powerWatermark 10, sum1 := powerWatermark 10 } := rfl

/-! ## Filter -/

/-- The stage-1 output (42_hybrid_filter.md R142). -/
theorem filterStep_output (shift : Nat) (r : Word) (ch : Channel) :
    (filterStep shift r ch).1 = r + prediction shift ch.filter := rfl

/-- The channel after a filter step: only coefficients and history change (42_hybrid_filter.md R142). -/
theorem filterStep_channel (shift : Nat) (r : Word) (ch : Channel) :
    (filterStep shift r ch).2 =
      { ch with
        coef := adaptCoefficients 0 r ch.filter
        hist := shiftIn (filterStep shift r ch).1 ch.hist } := rfl

/-- `FilterInit` (42_hybrid_filter.md R141). -/
theorem filterInit_eq (s : State) (ch : Channel) :
    filterInit s ch =
      { ch with
        coef := if s.fmt == 2 then signedKeyBytes s.key else Vector.replicate 8 0
        hist := Vector.replicate 8 0
        extra := Vector.replicate 0 0 } := rfl

/-! ## Checksum and packer -/

/-- `CrcStep` (41_checksum.md R130). -/
theorem crcStep_eq (crc : Word) (b : Byte) : crcStep crc b = reflectedRounds 0xEDB88320 8 (crc ^^^ b.setWidth 32) := rfl

/-- A trailer byte is the fetched byte, the bit cache not consulted (41_checksum.md R132). -/
@[simp] theorem trailerByte_eq (b : Byte) (s : State) : trailerByte b s = (b, s) := rfl

/-- `EmitSample` (20_memory.md R67). -/
theorem sampleBytes_eq (depth : Nat) (v : Word) :
    sampleBytes depth v = (List.range depth).map fun j => v.extractLsb' (8 * j) 8 := rfl

end Sys2Proof.Machine
end

