-- ==== Sys2Proof/Laws/Ops.lean ====
section
/-! SUPPORT. What each shared operation can do, said once: runs, reads of `IN`, the sinks, the prologue. -/

namespace Sys2Proof.Machine

/-! ## Runs -/

section
variable {π ρ α β : Type}

@[simp] theorem Run.bind_done (a : α) (s : State) (f : α → State → Run π β) : (Run.done a s).bind f = f a s := rfl
@[simp] theorem Run.bind_wait (p : π) (s : State) (f : α → State → Run π β) : (Run.wait p s).bind f = .wait p s := rfl
@[simp] theorem Run.bind_failed (s : State) (f : α → State → Run π β) : (Run.failed s).bind f = .failed s := rfl
@[simp] theorem Run.bind_stuck (e : Fault) (f : α → State → Run π β) : (Run.stuck e).bind f = .stuck e := rfl

@[simp] theorem Run.mapWait_done (g : π → ρ) (a : α) (s : State) : (Run.done a s).mapWait g = .done a s := rfl
@[simp] theorem Run.mapWait_wait (g : π → ρ) (p : π) (s : State) : (Run.wait p s : Run π α).mapWait g = .wait (g p) s := rfl
@[simp] theorem Run.mapWait_failed (g : π → ρ) (s : State) : (Run.failed s : Run π α).mapWait g = .failed s := rfl
@[simp] theorem Run.mapWait_stuck (g : π → ρ) (e : Fault) : (Run.stuck e : Run π α).mapWait g = .stuck e := rfl

theorem Run.bind_assoc {γ : Type} (r : Run π α) (f : α → State → Run π β) (g : β → State → Run π γ) :
    (r.bind f).bind g = r.bind fun a s => (f a s).bind g := by
  cases r <;> rfl

theorem Run.bind_mapWait (g : π → ρ) (r : Run π α) (f : α → State → Run π β) :
    (r.bind f).mapWait g = (r.mapWait g).bind fun a s => (f a s).mapWait g := by
  cases r <;> rfl

theorem Run.mapWait_mapWait {σ : Type} (g : π → ρ) (h : ρ → σ) (r : Run π α) :
    (r.mapWait g).mapWait h = r.mapWait (fun p => h (g p)) := by
  cases r <;> rfl

end

@[simp] theorem settle_done (a : Unit) (s : State) : settle (.done a s) = .next s := rfl
@[simp] theorem settle_wait (j : Job) (s : State) : settle (.wait j s) = .next { s with inFlight := some j } := rfl
@[simp] theorem settle_failed (s : State) : settle (.failed s) = .next s := rfl
@[simp] theorem settle_stuck (f : Fault) : settle (.stuck f) = .fault f := rfl

/-- What a settled run that answers a next state was. -/
theorem settle_next {r : Run Job Unit} {t : State} (h : settle r = .next t) :
    r = .done () t ∨ r = .failed t ∨ ∃ j s, r = .wait j s ∧ t = { s with inFlight := some j } := by
  cases r with
  | done a s => exact .inl (by cases a; simpa using h)
  | wait j s => exact .inr (.inr ⟨j, s, rfl, by simpa using h.symm⟩)
  | failed s => exact .inr (.inl (by simpa using h))
  | stuck f => simp at h

/-! ## The prologue -/

/-- In a phase that accepts the command the prologue adds nothing (46_config_control.md R190 step 5). -/
theorem prologue_accepted {i : Instr} {s : State} (h : accepts i s.phase = true) (own : Result) :
    prologue i s own = own := by
  unfold prologue
  by_cases hi : i = .softReset
  · simp [hi]
  · by_cases hp : s.phase = .halt
    · rw [hp] at h
      cases i <;> simp_all [accepts]
    · simp [hi, hp, h]

/-- In a phase that does not accept the command only `ERR_CMD` is set (46_config_control.md R190 steps 3 and 4). -/
theorem prologue_refused {i : Instr} {s : State} (h : accepts i s.phase = false) (own : Result) :
    prologue i s own = .next (raise .errCmd s) := by
  unfold prologue
  have hi : i ≠ .softReset := by
    rintro rfl
    simp [accepts] at h
  simp [hi, h]

/-- The two cases of the prologue. -/
theorem prologue_cases (i : Instr) (s : State) (own : Result) :
    (accepts i s.phase = true ∧ prologue i s own = own) ∨
      (accepts i s.phase = false ∧ prologue i s own = .next (raise .errCmd s)) := by
  cases h : accepts i s.phase
  · exact .inr ⟨rfl, prologue_refused h own⟩
  · exact .inl ⟨rfl, prologue_accepted h own⟩

/-! ## Reading `IN` -/

@[simp] theorem nextByte_nil {s : State} (h : s.inp = []) : nextByte s = .notYet := by
  simp [nextByte, h]

@[simp] theorem nextByte_byte {s : State} {b : Byte} {rest : List SrcItem} (h : s.inp = .byte b :: rest) :
    nextByte s = .got b { s with inp := rest, crc := crcStep s.crc b, count := s.count + 1 } := by
  simp [nextByte, h]

@[simp] theorem nextByte_failure {s : State} {rest : List SrcItem} (h : s.inp = .failure :: rest) :
    nextByte s = .failed (raise .errIo { s with inp := rest }) := by
  simp [nextByte, h]

theorem readFrom_refl (s : State) : readFrom s s [] := by
  refine ⟨rfl, ?_⟩
  simp [crcAfter]

theorem readFrom_trans {s t u : State} {bs cs : List Byte} (h1 : readFrom s t bs) (h2 : readFrom t u cs) :
    readFrom s u (bs ++ cs) := by
  obtain ⟨i1, e1⟩ := h1
  obtain ⟨i2, e2⟩ := h2
  refine ⟨by rw [i1, i2]; simp [delivered], ?_⟩
  rw [e2, e1]
  simp [crcAfter, List.foldl_append, BitVec.ofNat_add, BitVec.add_assoc]

theorem lowBits_succ (n : Nat) (b : Byte) : lowBits (n + 1) b = b.getLsbD 0 :: lowBits n (b >>> 1) := by
  simp only [lowBits, List.range_succ_eq_map, List.map_cons, List.map_map]
  congr 1
  refine List.map_congr_left fun i _ => ?_
  simp [BitVec.getLsbD_ushiftRight, Nat.add_comm]

/-- `NextBit` with a bit in the cache (20_memory.md R63). -/
theorem nextBit_cached {s : State} (h : s.bcount ≠ 0) :
    nextBit s = .got (s.bcache.getLsbD 0) { s with bcache := s.bcache >>> 1, bcount := s.bcount - 1 } := by
  unfold nextBit takeBit
  rw [if_neg h]

/-- `NextBit` with an empty cache and a byte to fetch (20_memory.md R63). -/
theorem nextBit_fetch {s : State} {c : Byte} {rest : List SrcItem} (h : s.bcount = 0) (hi : s.inp = .byte c :: rest) :
    nextBit s = .got (c.getLsbD 0)
      { s with inp := rest, crc := crcStep s.crc c, count := s.count + 1, bcache := c >>> 1, bcount := 7 } := by
  unfold nextBit takeBit
  rw [if_pos h, nextByte_byte hi]
  simp

/-- `NextBit` with an empty cache and no byte yet (20_memory.md R61(b)). -/
theorem nextBit_empty {s : State} (h : s.bcount = 0) (hi : s.inp = []) : nextBit s = .notYet := by
  unfold nextBit
  rw [if_pos h, nextByte_nil hi]

/-- `NextBit` with an empty cache and a failing source (20_memory.md R61(c)). -/
theorem nextBit_failing {s : State} {rest : List SrcItem} (h : s.bcount = 0) (hi : s.inp = .failure :: rest) :
    nextBit s = .failed (raise .errIo { s with inp := rest }) := by
  unfold nextBit
  rw [if_pos h, nextByte_failure hi]

/-- What `NextBit` does when it delivers a bit (20_memory.md R63): the first unread bit, at the cost of at most one byte. -/
theorem nextBit_got {s t : State} {b : Bool} (h : nextBit s = .got b t) :
    unreadBits s = b :: unreadBits t ∧ bitsAvail s = bitsAvail t + 1 ∧ ∃ bs, readFrom s t bs := by
  by_cases h0 : s.bcount = 0
  · cases hi : s.inp with
    | nil => simp [nextBit_empty h0 hi] at h
    | cons x rest =>
      cases x with
      | failure => simp [nextBit_failing h0 hi] at h
      | byte c =>
        rw [nextBit_fetch h0 hi, Got.got.injEq] at h
        obtain ⟨rfl, rfl⟩ := h
        refine ⟨?_, ?_, [c], ?_, ?_⟩
        · simp only [unreadBits, h0, hi, sourceBits, lowBits_succ 7]
          rfl
        · simp [bitsAvail, h0, hi]
          omega
        · simp [hi, delivered]
        · simp [crcAfter]
  · rw [nextBit_cached h0, Got.got.injEq] at h
    obtain ⟨rfl, rfl⟩ := h
    have hn : (s.bcount - 1).toNat + 1 = s.bcount.toNat := by
      have h1 : s.bcount.toNat ≠ 0 := fun e => h0 (BitVec.eq_of_toNat_eq (by simpa using e))
      bv_omega
    refine ⟨?_, ?_, [], ?_, ?_⟩
    · rw [unreadBits, ← hn, lowBits_succ]
      rfl
    · simp only [bitsAvail]
      omega
    · simp [delivered]
    · simp [crcAfter]

/-- When `NextBit` has nothing yet (20_memory.md R61(b)). -/
theorem nextBit_notYet {s : State} (h : nextBit s = .notYet) : s.bcount = 0 ∧ s.inp = [] := by
  by_cases h0 : s.bcount = 0
  · refine ⟨h0, ?_⟩
    cases hi : s.inp with
    | nil => rfl
    | cons x rest =>
      cases x with
      | byte c => simp [nextBit_fetch h0 hi] at h
      | failure => simp [nextBit_failing h0 hi] at h
  · simp [nextBit_cached h0] at h

/-- When `NextBit` fails, and what is left (20_memory.md R61(c), 45_frame_sequencing.md R172). -/
theorem nextBit_failed {s t : State} (h : nextBit s = .failed t) :
    s.bcount = 0 ∧ ∃ rest, s.inp = .failure :: rest ∧ t = raise .errIo { s with inp := rest } := by
  by_cases h0 : s.bcount = 0
  · refine ⟨h0, ?_⟩
    cases hi : s.inp with
    | nil => simp [nextBit_empty h0 hi] at h
    | cons x rest =>
      cases x with
      | byte c => simp [nextBit_fetch h0 hi] at h
      | failure =>
        rw [nextBit_failing h0 hi] at h
        exact ⟨rest, rfl, by simpa using h.symm⟩
  · simp [nextBit_cached h0] at h

/-! ## The sinks -/

/-- What an emission does: a first part of the bytes is appended, and what is left over waits for room
(20_memory.md R66). -/
theorem emitPcm_spec (bytes : List Byte) (s : State) :
    ∃ sent, bytes = sent ++ (emitPcm bytes s).1 ∧
      (emitPcm bytes s).2 = { s with pcm := s.pcm ++ sent, pcmRoom := (emitPcm bytes s).2.pcmRoom } ∧
      ((emitPcm bytes s).1 ≠ [] → (emitPcm bytes s).2.pcmRoom = some 0) := by
  induction bytes generalizing s with
  | nil => exact ⟨[], by simp [emitPcm]⟩
  | cons b bs ih =>
    cases hr : takeRoom s.pcmRoom with
    | none =>
      refine ⟨[], by simp [emitPcm, hr], by simp [emitPcm, hr], fun _ => ?_⟩
      simp only [emitPcm, hr]
      match hp : s.pcmRoom with
      | none => simp [hp, takeRoom] at hr
      | some 0 => rfl
      | some (n + 1) => simp [hp, takeRoom] at hr
    | some r =>
      obtain ⟨sent, h1, h2, h3⟩ := ih { s with pcm := s.pcm ++ [b], pcmRoom := r }
      refine ⟨b :: sent, ?_, ?_, ?_⟩
      · simp only [emitPcm, hr, List.cons_append]
        rw [← h1]
      · simp only [emitPcm, hr]
        rw [h2]
        simp
      · simpa [emitPcm, hr] using h3

/-- With room for all the bytes, all are appended (20_memory.md R66). -/
theorem emitPcm_room {bytes : List Byte} {s : State} {r : Option Nat} (h : roomFor s.pcmRoom bytes.length r) :
    emitPcm bytes s = ([], { s with pcm := s.pcm ++ bytes, pcmRoom := r }) := by
  induction bytes generalizing s with
  | nil =>
    rcases h with ⟨h1, rfl⟩ | ⟨n, h1, rfl⟩ <;> simp [emitPcm, ← h1]
    have : s.pcmRoom = some n := by simpa using h1
    rw [← this]
  | cons b bs ih =>
    rcases h with ⟨h1, rfl⟩ | ⟨n, h1, rfl⟩
    · simp only [emitPcm, h1, takeRoom]
      rw [ih (.inl ⟨rfl, rfl⟩)]
      simp
    · have e : s.pcmRoom = some ((n + bs.length) + 1) := by simpa [Nat.add_assoc] using h1
      simp only [emitPcm, e, takeRoom]
      rw [ih (.inr ⟨n, rfl, rfl⟩)]
      simp

/-- With room for `k` of the bytes only, those are appended and the rest comes back (20_memory.md R66). -/
theorem emitPcm_short {bytes : List Byte} {k : Nat} {s : State} (h : s.pcmRoom = some k) (hk : k < bytes.length) :
    emitPcm bytes s = (bytes.drop k, { s with pcm := s.pcm ++ bytes.take k, pcmRoom := some 0 }) := by
  induction bytes generalizing s k with
  | nil => simp at hk
  | cons b bs ih =>
    cases k with
    | zero =>
      simp only [emitPcm, h, takeRoom, List.drop_zero, List.take_zero, List.append_nil]
      rw [← h]
    | succ k =>
      simp only [emitPcm, h, takeRoom]
      rw [ih rfl (by simpa using hk)]
      simp

/-- With room for a byte it is appended to `RAWOUT` (20_memory.md R66, R75). -/
theorem emitRaw_room {b : Byte} {s : State} {r : Option Nat} (h : takeRoom s.rawRoom = some r) :
    emitRaw b s = some { s with rawOut := s.rawOut ++ [b], rawRoom := r } := by
  simp [emitRaw, h]

/-! ## The step -/

/-- A step takes up the next command word when no reset is asked for and nothing is in flight. -/
theorem step_command {s : State} {w : Word} {rest : List Word} {i : Instr} (hr : s.resetReq = false)
    (hf : s.inFlight = none) (hc : s.cmd = w :: rest) (hd : decode w = .command i) :
    step s = exec i { s with cmd := rest } := by
  simp [step, hr, hf, fetchCommand, hc, hd]

end Sys2Proof.Machine
end

