-- ==== Sys2Proof/Laws/Reader.lean ====
section
/-! SUPPORT. What the bit reads of a codeword can do (40_entropy_decoder.md R110, R111, R114), in both directions: from the
bits of the stream to the outcome, and from the outcome back to the bits. -/

namespace Sys2Proof.Machine

/-! ## One bit -/

/-- An unread bit is delivered (20_memory.md R63). -/
theorem nextBit_of_bits {s : State} {b : Bool} {rest : List Bool} (h : unreadBits s = b :: rest) :
    ∃ t, nextBit s = .got b t ∧ unreadBits t = rest := by
  have key : ∀ c t, nextBit s = .got c t → ∃ t, nextBit s = .got b t ∧ unreadBits t = rest := by
    intro c t ht
    obtain ⟨e, -, -⟩ := nextBit_got ht
    rw [h, List.cons.injEq] at e
    exact ⟨t, by rw [ht, e.1], e.2.symm⟩
  by_cases h0 : s.bcount = 0
  · cases hi : s.inp with
    | nil => simp [unreadBits, h0, hi, lowBits, sourceBits] at h
    | cons x xs =>
      cases x with
      | failure => simp [unreadBits, h0, hi, lowBits, sourceBits] at h
      | byte c => exact key _ _ (nextBit_fetch h0 hi)
  · exact key _ _ (nextBit_cached h0)

/-- No unread bit: the cache is empty, and the source has nothing yet or fails next (20_memory.md R61). -/
theorem unreadBits_nil {s : State} (h : unreadBits s = []) :
    s.bcount = 0 ∧ (s.inp = [] ∨ ∃ rest, s.inp = .failure :: rest) := by
  obtain ⟨h1, h2⟩ := List.append_eq_nil_iff.mp h
  have h0 : s.bcount = 0 := by
    apply BitVec.eq_of_toNat_eq
    simpa [lowBits] using h1
  refine ⟨h0, ?_⟩
  match hi : s.inp with
  | [] => exact .inl rfl
  | .failure :: rest => exact .inr ⟨rest, rfl⟩
  | .byte b :: rest => simp [hi, sourceBits, lowBits, List.range_succ_eq_map] at h2

/-- When no bit can be delivered, `NextBit` waits or fails (20_memory.md R61). -/
theorem nextBit_of_no_bits {s : State} (h : unreadBits s = []) :
    (s.inp = [] ∧ nextBit s = .notYet) ∨
      ∃ rest, s.inp = .failure :: rest ∧ nextBit s = .failed (raise .errIo { s with inp := rest }) := by
  obtain ⟨h0, hi | ⟨rest, hi⟩⟩ := unreadBits_nil h
  · exact .inl ⟨hi, nextBit_empty h0 hi⟩
  · exact .inr ⟨rest, hi, nextBit_failing h0 hi⟩

theorem length_sourceBits_le (l : List SrcItem) : (sourceBits l).length ≤ 8 * l.length := by
  induction l with
  | nil => simp [sourceBits]
  | cons x xs ih =>
    cases x with
    | failure => simp [sourceBits]
    | byte b => simp [sourceBits, lowBits]; omega

/-- The unread bits are no more than the loops' bound. -/
theorem length_unreadBits_le (s : State) : (unreadBits s).length ≤ bitsAvail s := by
  have := length_sourceBits_le s.inp
  simp [unreadBits, bitsAvail, lowBits]
  omega

/-! ## The unary prefix -/

theorem add_one_add_ofNat (u : Word) (k : Nat) : u + 1 + BitVec.ofNat 32 k = u + BitVec.ofNat 32 (k + 1) := by
  rw [BitVec.ofNat_add, BitVec.add_assoc, BitVec.add_comm (BitVec.ofNat 32 k)]
  rfl

/-- A one-bit goes on with the run, a zero-bit ends it (40_entropy_decoder.md R110). -/
theorem readUnary_got_run {n : Nat} {u : Word} {s t : State} (h : nextBit s = .got true t) :
    readUnary (n + 1) u s = readUnary n (u + 1) t := by simp [readUnary, h]

theorem readUnary_got_end {n : Nat} {u : Word} {s t : State} (h : nextBit s = .got false t) :
    readUnary (n + 1) u s = .done u t := by simp [readUnary, h]

/-- A prefix that is all there is read to its zero-bit (40_entropy_decoder.md R110). -/
theorem readUnary_of_bits (k : Nat) {n : Nat} {u : Word} {s : State} {rest : List Bool} (hn : k < n)
    (h : unreadBits s = List.replicate k true ++ false :: rest) :
    ∃ t bs, readUnary n u s = .done (u + BitVec.ofNat 32 k) t ∧ unreadBits t = rest ∧ readFrom s t bs := by
  induction k generalizing n u s with
  | zero =>
    obtain ⟨m, rfl⟩ : ∃ m, n = m + 1 := ⟨n - 1, by omega⟩
    obtain ⟨t, ht, hr⟩ := nextBit_of_bits (by simpa using h)
    obtain ⟨-, -, bs, hb⟩ := nextBit_got ht
    exact ⟨t, bs, by simp [readUnary_got_end ht], hr, hb⟩
  | succ k ih =>
    obtain ⟨m, rfl⟩ : ∃ m, n = m + 1 := ⟨n - 1, by omega⟩
    obtain ⟨t, ht, hr⟩ := nextBit_of_bits (by simpa [List.replicate_succ] using h)
    obtain ⟨-, -, bs, hb⟩ := nextBit_got ht
    obtain ⟨t', bs', h1, h2, h3⟩ := ih (n := m) (u := u + 1) (s := t) (by omega) hr
    refine ⟨t', bs ++ bs', ?_, h2, readFrom_trans hb h3⟩
    simp only [readUnary_got_run ht, h1, add_one_add_ofNat]

/-- What a completed unary read has taken (40_entropy_decoder.md R110). -/
theorem readUnary_done {n : Nat} {u u' : Word} {s t : State} (h : readUnary n u s = .done u' t) :
    ∃ k bs, unreadBits s = List.replicate k true ++ false :: unreadBits t ∧ u' = u + BitVec.ofNat 32 k ∧
      readFrom s t bs ∧ bitsAvail s = bitsAvail t + k + 1 := by
  induction n generalizing u s with
  | zero => simp [readUnary] at h
  | succ n ih =>
    cases hb : nextBit s with
    | notYet => simp [readUnary, hb] at h
    | failed x => simp [readUnary, hb] at h
    | got b s' =>
      obtain ⟨e1, e2, bs, e3⟩ := nextBit_got hb
      cases b with
      | false =>
        simp only [readUnary_got_end hb, Run.done.injEq] at h
        obtain ⟨rfl, rfl⟩ := h
        exact ⟨0, bs, by simpa using e1, by simp, e3, by omega⟩
      | true =>
        simp only [readUnary_got_run hb] at h
        obtain ⟨k, cs, h1, h2, h3, h4⟩ := ih h
        exact ⟨k + 1, bs ++ cs, by rw [e1, h1]; simp [List.replicate_succ], by rw [h2, add_one_add_ofNat],
          readFrom_trans e3 h3, by omega⟩

/-- What a unary read that waits has taken: every unread bit, all ones (40_entropy_decoder.md R110, 20_memory.md R61(b)). -/
theorem readUnary_wait {n : Nat} {u : Word} {p : Point} {s t : State} (hn : bitsAvail s < n)
    (h : readUnary n u s = .wait p t) :
    ∃ k bs, unreadBits s = List.replicate k true ∧ p = .unary (u + BitVec.ofNat 32 k) ∧ readFrom s t bs ∧
      t.bcount = 0 ∧ t.inp = [] := by
  induction n generalizing u s with
  | zero => omega
  | succ n ih =>
    cases hb : nextBit s with
    | failed x => simp [readUnary, hb] at h
    | notYet =>
      obtain ⟨e1, e2⟩ := nextBit_notYet hb
      simp only [readUnary, hb, Run.wait.injEq] at h
      obtain ⟨rfl, rfl⟩ := h
      exact ⟨0, [], by simp [unreadBits, e1, e2, lowBits, sourceBits], by simp, readFrom_refl _, e1, e2⟩
    | got b s' =>
      obtain ⟨e1, e2, bs, e3⟩ := nextBit_got hb
      cases b with
      | false => simp [readUnary_got_end hb] at h
      | true =>
        simp only [readUnary_got_run hb] at h
        obtain ⟨k, cs, h1, h2, h3, h4⟩ := ih (by omega) h
        exact ⟨k + 1, bs ++ cs, by rw [e1, h1]; simp [List.replicate_succ], by rw [h2, add_one_add_ofNat],
          readFrom_trans e3 h3, h4⟩

/-- What a unary read that fails has taken: every unread bit, all ones (20_memory.md R61(c)). -/
theorem readUnary_failed {n : Nat} {u : Word} {s t : State} (h : readUnary n u s = .failed t) :
    ∃ k bs m, unreadBits s = List.replicate k true ∧ readFrom s m bs ∧ m.bcount = 0 ∧ m.inp = .failure :: t.inp ∧
      t = raise .errIo { m with inp := t.inp } := by
  induction n generalizing u s with
  | zero => simp [readUnary] at h
  | succ n ih =>
    cases hb : nextBit s with
    | notYet => simp [readUnary, hb] at h
    | failed x =>
      obtain ⟨e1, rest, e2, e3⟩ := nextBit_failed hb
      simp only [readUnary, hb, Run.failed.injEq] at h
      subst h
      subst e3
      exact ⟨0, [], s, by simp [unreadBits, e1, e2, lowBits, sourceBits], readFrom_refl _, e1, by simpa using e2, rfl⟩
    | got b s' =>
      obtain ⟨e1, e2, bs, e3⟩ := nextBit_got hb
      cases b with
      | false => simp [readUnary_got_end hb] at h
      | true =>
        simp only [readUnary_got_run hb] at h
        obtain ⟨k, cs, m, h1, h2, h3⟩ := ih h
        exact ⟨k + 1, bs ++ cs, m, by rw [e1, h1]; simp [List.replicate_succ], readFrom_trans e3 h2, h3⟩

/-- The bound of the unary loop is no part of its result. -/
theorem readUnary_bound {n m : Nat} {u : Word} {s : State} (hn : bitsAvail s < n) (hm : bitsAvail s < m) :
    readUnary n u s = readUnary m u s := by
  induction n generalizing m u s with
  | zero => omega
  | succ n ih =>
    obtain ⟨m, rfl⟩ : ∃ k, m = k + 1 := ⟨m - 1, by omega⟩
    cases hb : nextBit s with
    | notYet => simp only [readUnary, hb]
    | failed x => simp only [readUnary, hb]
    | got b s' =>
      obtain ⟨-, e2, -⟩ := nextBit_got hb
      cases b with
      | false => rw [readUnary_got_end hb, readUnary_got_end hb]
      | true => rw [readUnary_got_run hb, readUnary_got_run hb]; exact ih (by omega) (by omega)

/-! ## The binary suffix -/

/-- A field's value gathered bit by bit, the bits from the 33rd on without effect (40_entropy_decoder.md R111). -/
def gather (i : Nat) (acc : Word) : List Bool → Word
  | [] => acc
  | b :: bs => gather (i + 1) (if i < 32 then acc + BitVec.ofNat 32 (b.toNat * 2 ^ i) else acc) bs

/-- The gathered value is the binary field's, modulo 2^32 (30_encoding.md R90, 40_entropy_decoder.md R111). -/
theorem gather_eq (bits : List Bool) (i : Nat) (acc : Word) :
    gather i acc bits = acc + BitVec.ofNat 32 (2 ^ i * fieldValue bits) := by
  induction bits generalizing i acc with
  | nil => simp [gather, fieldValue]
  | cons b bs ih =>
    have split : 2 ^ i * fieldValue (b :: bs) = b.toNat * 2 ^ i + 2 ^ (i + 1) * fieldValue bs := by
      simp only [fieldValue, pow_succ]
      ring
    rw [gather, ih, split, BitVec.ofNat_add, ← BitVec.add_assoc]
    congr 1
    by_cases hi : i < 32
    · simp [hi]
    · have zero : BitVec.ofNat 32 (b.toNat * 2 ^ i) = 0 := by
        apply BitVec.eq_of_toNat_eq
        rw [BitVec.toNat_ofNat, show i = 32 + (i - 32) by omega, pow_add, Nat.mul_left_comm]
        simp
      simp [hi, zero]

/-- A suffix that is all there is read (40_entropy_decoder.md R111). -/
theorem readBits_of_bits (level : Level) (a : Word) (field : List Bool) {i : Nat} {acc : Word} {s : State}
    {rest : List Bool} (h : unreadBits s = field ++ rest) :
    ∃ t bs, readBits level a field.length i acc s = .done (gather i acc field) t ∧ unreadBits t = rest ∧
      readFrom s t bs := by
  induction field generalizing i acc s with
  | nil => exact ⟨s, [], rfl, by simpa using h, readFrom_refl s⟩
  | cons b field ih =>
    obtain ⟨t, ht, hr⟩ := nextBit_of_bits (by simpa using h)
    obtain ⟨-, -, bs, hb⟩ := nextBit_got ht
    obtain ⟨t', cs, h1, h2, h3⟩ :=
      ih (i := i + 1) (acc := if i < 32 then acc + BitVec.ofNat 32 (b.toNat * 2 ^ i) else acc) hr
    exact ⟨t', bs ++ cs, by simp only [List.length_cons, readBits, ht]; exact h1, h2, readFrom_trans hb h3⟩

/-- What a completed binary read has taken (40_entropy_decoder.md R111). -/
theorem readBits_done {level : Level} {a : Word} {left i : Nat} {acc f : Word} {s t : State}
    (h : readBits level a left i acc s = .done f t) :
    ∃ field bs, field.length = left ∧ unreadBits s = field ++ unreadBits t ∧ f = gather i acc field ∧
      readFrom s t bs ∧ bitsAvail s = bitsAvail t + left := by
  induction left generalizing i acc s with
  | zero =>
    simp only [readBits, Run.done.injEq] at h
    obtain ⟨rfl, rfl⟩ := h
    exact ⟨[], [], rfl, rfl, rfl, readFrom_refl _, rfl⟩
  | succ left ih =>
    simp only [readBits] at h
    cases hb : nextBit s with
    | notYet => simp [hb] at h
    | failed x => simp [hb] at h
    | got b s' =>
      obtain ⟨e1, e2, bs, e3⟩ := nextBit_got hb
      simp only [hb] at h
      obtain ⟨field, cs, h1, h2, h3, h4, h5⟩ := ih h
      exact ⟨b :: field, bs ++ cs, by simp [h1], by rw [e1, h2]; rfl, by rw [h3]; rfl, readFrom_trans e3 h4, by omega⟩

/-- What a binary read that waits has taken: every unread bit (40_entropy_decoder.md R111, 20_memory.md R61(b)). -/
theorem readBits_wait {level : Level} {a : Word} {left i : Nat} {acc : Word} {p : Point} {s t : State}
    (h : readBits level a left i acc s = .wait p t) :
    ∃ field bs, field.length < left ∧ unreadBits s = field ∧
      p = .suffix level a (left - field.length) (i + field.length) (gather i acc field) ∧ readFrom s t bs ∧
      t.bcount = 0 ∧ t.inp = [] := by
  induction left generalizing i acc s with
  | zero => simp [readBits] at h
  | succ left ih =>
    simp only [readBits] at h
    cases hb : nextBit s with
    | failed x => simp [hb] at h
    | notYet =>
      obtain ⟨e1, e2⟩ := nextBit_notYet hb
      simp only [hb, Run.wait.injEq] at h
      obtain ⟨rfl, rfl⟩ := h
      exact ⟨[], [], by simp, by simp [unreadBits, e1, e2, lowBits, sourceBits], by simp [gather], readFrom_refl _, e1, e2⟩
    | got b s' =>
      obtain ⟨e1, -, bs, e3⟩ := nextBit_got hb
      simp only [hb] at h
      obtain ⟨field, cs, h1, h2, h3, h4, h5⟩ := ih h
      refine ⟨b :: field, bs ++ cs, by simpa using h1, by rw [e1, h2], ?_, readFrom_trans e3 h4, h5⟩
      rw [h3]
      simp [gather, Nat.add_comm, Nat.add_left_comm]

/-- What a binary read that fails has taken: every unread bit (20_memory.md R61(c)). -/
theorem readBits_failed {level : Level} {a : Word} {left i : Nat} {acc : Word} {s t : State}
    (h : readBits level a left i acc s = .failed t) :
    ∃ field bs m, field.length < left ∧ unreadBits s = field ∧ readFrom s m bs ∧ m.bcount = 0 ∧
      m.inp = .failure :: t.inp ∧ t = raise .errIo { m with inp := t.inp } := by
  induction left generalizing i acc s with
  | zero => simp [readBits] at h
  | succ left ih =>
    simp only [readBits] at h
    cases hb : nextBit s with
    | notYet => simp [hb] at h
    | failed x =>
      obtain ⟨e1, rest, e2, e3⟩ := nextBit_failed hb
      simp only [hb, Run.failed.injEq] at h
      subst h
      subst e3
      exact ⟨[], [], s, by simp, by simp [unreadBits, e1, e2, lowBits, sourceBits], readFrom_refl _, e1,
        by simpa using e2, rfl⟩
    | got b s' =>
      obtain ⟨e1, -, bs, e3⟩ := nextBit_got hb
      simp only [hb] at h
      obtain ⟨field, cs, m, h1, h2, h3, h4⟩ := ih h
      exact ⟨b :: field, bs ++ cs, m, by simpa using h1, by rw [e1, h2], readFrom_trans e3 h3, h4⟩

end Sys2Proof.Machine
end

