-- ==== Sys2Proof/Laws/Decoding.lean ====
section
/-! SUPPORT. What a DEC_SAMPLE body can do (45_frame_sequencing.md R166, R172), and that the loops of DEC_STEP and DEC_FRAME
are loops of it whatever bounds them (R167, R168). -/

namespace Sys2Proof.Machine

theorem readFrom_bitsAvail_le {s t : State} {bs : List Byte} (h : readFrom s t bs) (hb : t.bcount.toNat ≤ s.bcount.toNat) :
    bitsAvail t ≤ bitsAvail s := by
  have : s.inp.length = bs.length + t.inp.length := by rw [h.1]; simp [delivered]
  simp [bitsAvail]
  omega

/-! ## Emission and the end of a body -/

/-- What the emission of a time-step's bytes can do (45_frame_sequencing.md R166, 20_memory.md R66): close the time-step with
all bytes sent, or wait for room with the rest. -/
theorem emitAndClose_cases (bytes : List Byte) (s : State) :
    (∃ room, emitAndClose bytes s = .done () (closeTimeStep { s with pcm := s.pcm ++ bytes, pcmRoom := room })) ∨
      ∃ sent b rest, bytes = sent ++ b :: rest ∧
        emitAndClose bytes s = .wait (.emit (b :: rest)) { s with pcm := s.pcm ++ sent, pcmRoom := some 0 } := by
  obtain ⟨sent, h1, h2, h3⟩ := emitPcm_spec bytes s
  unfold emitAndClose
  generalize he : emitPcm bytes s = r at *
  obtain ⟨left, t⟩ := r
  cases left with
  | nil =>
    refine .inl ⟨t.pcmRoom, ?_⟩
    simp only [List.append_nil] at h1
    subst h1
    simp only at h2 ⊢
    rw [← h2]
  | cons b rest =>
    refine .inr ⟨sent, b, rest, h1, ?_⟩
    have := h3 (by simp)
    simp only at h2 this ⊢
    rw [this] at h2
    rw [← h2]

/-- With room for all the bytes the time-step closes (45_frame_sequencing.md R166). -/
theorem emitAndClose_room {bytes : List Byte} {s : State} {r : Option Nat} (h : roomFor s.pcmRoom bytes.length r) :
    emitAndClose bytes s = .done () (closeTimeStep { s with pcm := s.pcm ++ bytes, pcmRoom := r }) := by
  simp [emitAndClose, emitPcm_room h]

/-- What follows a decoded value (45_frame_sequencing.md R166): the next channel; or the time-step closed, all its bytes
emitted; or a wait for room with the rest of them. -/
theorem afterValue_cases (v : Level × Word) (s : State) :
    (s.ch.toNat + 1 < s.nch.toNat ∧ afterValue v s = .done () { storeSample v s with ch := s.ch + 1 }) ∨
      (s.nch.toNat ≤ s.ch.toNat + 1 ∧ ∃ room, afterValue v s = .done () (closeTimeStep
        { decorrelateCache (storeSample v s) with pcm := s.pcm ++ timeStepBytes v s, pcmRoom := room })) ∨
      (s.nch.toNat ≤ s.ch.toNat + 1 ∧ ∃ sent b rest, timeStepBytes v s = sent ++ b :: rest ∧
        afterValue v s = .wait (.emit (b :: rest))
          { decorrelateCache (storeSample v s) with pcm := s.pcm ++ sent, pcmRoom := some 0 }) := by
  by_cases h : s.ch.toNat + 1 < s.nch.toNat
  · exact .inl ⟨h, by simp [afterValue, h]⟩
  · have e : afterValue v s = emitAndClose (timeStepBytes v s) (decorrelateCache (storeSample v s)) := by
      simp [afterValue, h, depthOf, timeStepBytes]
    rw [e]
    rcases emitAndClose_cases (timeStepBytes v s) (decorrelateCache (storeSample v s)) with
      ⟨room, h1⟩ | ⟨sent, b, rest, h1, h2⟩
    · exact .inr (.inl ⟨by omega, room, h1⟩)
    · exact .inr (.inr ⟨by omega, sent, b, rest, h1, h2⟩)

/-- The last channel of a time-step, with room for its bytes (45_frame_sequencing.md R166). -/
theorem afterValue_room {v : Level × Word} {s : State} {r : Option Nat} (hl : s.nch.toNat ≤ s.ch.toNat + 1)
    (h : roomFor s.pcmRoom (timeStepBytes v s).length r) :
    afterValue v s = .done () (closeTimeStep
      { decorrelateCache (storeSample v s) with pcm := s.pcm ++ timeStepBytes v s, pcmRoom := r }) := by
  have e : afterValue v s = emitAndClose (timeStepBytes v s) (decorrelateCache (storeSample v s)) := by
    simp [afterValue, Nat.not_lt.mpr hl, depthOf, timeStepBytes]
  rw [e, emitAndClose_room (by simpa using h)]
  simp

theorem afterValue_done_bitsAvail {v : Level × Word} {s t : State} (h : afterValue v s = .done () t) :
    bitsAvail t = bitsAvail s := by
  rcases afterValue_cases v s with ⟨-, e⟩ | ⟨-, room, e⟩ | ⟨-, sent, b, rest, -, e⟩
  · rw [e, Run.done.injEq] at h
    simp [← h.2, bitsAvail]
  · rw [e, Run.done.injEq] at h
    simp [← h.2, bitsAvail]
  · simp [e] at h

/-- A body that waits after its value waits in its emission; the reader is as the value left it. -/
theorem afterValue_wait {v : Level × Word} {p : Point} {s t : State} (h : afterValue v s = .wait p t) :
    ∃ b rest, p = .emit (b :: rest) ∧ t.pcmRoom = some 0 ∧ bitsAvail t = bitsAvail s := by
  rcases afterValue_cases v s with ⟨-, e⟩ | ⟨-, room, e⟩ | ⟨-, sent, b, rest, -, e⟩
  · simp [e] at h
  · simp [e] at h
  · rw [e, Run.wait.injEq] at h
    exact ⟨b, rest, h.1.symm, by simp [← h.2], by simp [← h.2, bitsAvail]⟩

/-- Nothing fails after a body has its value: every byte read comes before (45_frame_sequencing.md R172). -/
theorem afterValue_not_failed {v : Level × Word} {s t : State} : afterValue v s ≠ .failed t := by
  rcases afterValue_cases v s with ⟨-, e⟩ | ⟨-, room, e⟩ | ⟨-, sent, b, rest, -, e⟩ <;> simp [e]

/-! ## A value -/

/-- The test `k > 0` of `DecodeValue` only avoids reading an empty field (40_entropy_decoder.md R111, R114). -/
theorem afterUnary_eq (ch : Channel) (u : Word) (s : State) :
    afterUnary ch u s =
      if u = 0 then readSuffix .zero 0 ch.k0.toNat 0 0 s
      else readSuffix .one (shl (u - 1) ch.k1.toNat) ch.k1.toNat 0 0 s := by
  have shl0 : ∀ a : Word, shl a 0 = a := fun a => by simp [shl]
  have zshl : ∀ n, shl 0 n = 0 := fun n => by simp [shl]
  by_cases hu : u = 0
  · have hl : config.code.level u = .zero := by simp [hu]
    have hh : config.code.high u = 0 := by simp [hu]
    simp only [afterUnary, hl, hh, if_pos hu]
    change (if ch.k0 = 0 then _ else readSuffix .zero (shl 0 ch.k0.toNat) ch.k0.toNat 0 0 s) = _
    rw [zshl]
    split
    · next hk => rw [hk]; rfl
    · rfl
  · have hl : config.code.level u = .one := if_neg hu
    have hh : config.code.high u = u - 1 := if_neg hu
    simp only [afterUnary, hl, hh, if_neg hu]
    change (if ch.k1 = 0 then _ else readSuffix .one (shl (u - 1) ch.k1.toNat) ch.k1.toNat 0 0 s) = _
    split
    · next hk => rw [hk, show (0 : Word).toNat = 0 from rfl, shl0]; simp [readSuffix, readBits]
    · rfl

/-- What a completed suffix read has taken (40_entropy_decoder.md R114). -/
theorem readSuffix_done {level : Level} {a acc : Word} {left i : Nat} {v : Level × Word} {s t : State}
    (h : readSuffix level a left i acc s = .done v t) :
    ∃ field bs, field.length = left ∧ unreadBits s = field ++ unreadBits t ∧ v = (level, a + gather i acc field) ∧
      readFrom s t bs ∧ bitsAvail s = bitsAvail t + left := by
  unfold readSuffix at h
  cases hr : readBits level a left i acc s with
  | wait p x => simp [hr] at h
  | failed x => simp [hr] at h
  | stuck e => simp [hr] at h
  | done f x =>
    obtain ⟨field, bs, h1, h2, h3, h4, h5⟩ := readBits_done hr
    rw [hr, Run.bind_done, Run.done.injEq] at h
    obtain ⟨rfl, rfl⟩ := h
    exact ⟨field, bs, h1, h2, by rw [h3], h4, h5⟩

/-- What a completed `DecodeValue` has taken (40_entropy_decoder.md R114): at least one bit. -/
theorem decodeValue_done {ch : Channel} {u : Word} {v : Level × Word} {s t : State}
    (h : decodeValue ch u s = .done v t) : ∃ bs, readFrom s t bs ∧ bitsAvail t < bitsAvail s := by
  unfold decodeValue at h
  cases hu : readUnary (bitsAvail s + 1) u s with
  | wait p x => simp [hu] at h
  | failed x => simp [hu] at h
  | stuck e => simp [hu] at h
  | done u' m =>
    obtain ⟨k, bs, -, -, h3, h4⟩ := readUnary_done hu
    rw [hu, Run.bind_done, afterUnary_eq] at h
    split at h
    all_goals
      obtain ⟨field, cs, -, -, -, h8, h9⟩ := readSuffix_done h
      exact ⟨bs ++ cs, readFrom_trans h3 h8, by omega⟩

/-- A codeword that is all there is decoded to what it spells (30_encoding.md R90, R91, 40_entropy_decoder.md R114). -/
theorem decodeValue_of_bits {ch : Channel} {s : State} {u : Nat} {suffix rest : List Bool} (hu : u < 2 ^ 32)
    (hl : suffix.length = suffixWidth ch u) (h : unreadBits s = codeword u suffix ++ rest) :
    ∃ t bs, decodeValue ch 0 s = .done (levelOf u, spelled u suffix) t ∧ unreadBits t = rest ∧ readFrom s t bs := by
  have hlen : u < bitsAvail s + 1 := by
    have := length_unreadBits_le s
    rw [h] at this
    simp [codeword] at this
    omega
  obtain ⟨m, bs, h1, h2, h3⟩ :=
    readUnary_of_bits u (u := 0) (rest := suffix ++ rest) hlen (by rw [h]; simp [codeword])
  have hz : (0 + BitVec.ofNat 32 u : Word) = BitVec.ofNat 32 u := by simp
  rw [hz] at h1
  unfold decodeValue
  rw [h1, Run.bind_done, afterUnary_eq]
  by_cases h0 : u = 0
  · subst h0
    obtain ⟨t, cs, e1, e2, e3⟩ := readBits_of_bits .zero 0 suffix (i := 0) (acc := 0) h2
    refine ⟨t, bs ++ cs, ?_, e2, readFrom_trans h3 e3⟩
    have hw : suffix.length = ch.k0.toNat := by simpa [suffixWidth] using hl
    rw [if_pos (show BitVec.ofNat 32 0 = (0 : Word) from rfl), readSuffix, ← hw, e1, Run.bind_done, gather_eq]
    simp [levelOf, spelled]
  · have hne : BitVec.ofNat 32 u ≠ 0 := by
      intro e
      have := congrArg BitVec.toNat e
      rw [BitVec.toNat_ofNat, Nat.mod_eq_of_lt hu] at this
      exact h0 (by simpa using this)
    obtain ⟨t, cs, e1, e2, e3⟩ :=
      readBits_of_bits .one (shl (BitVec.ofNat 32 u - 1) ch.k1.toNat) suffix (i := 0) (acc := 0) h2
    refine ⟨t, bs ++ cs, ?_, e2, readFrom_trans h3 e3⟩
    have hw : suffix.length = ch.k1.toNat := by simpa [suffixWidth, h0] using hl
    rw [if_neg hne]
    unfold readSuffix
    rw [← hw] at e1 ⊢
    rw [e1, Run.bind_done, gather_eq]
    have hv : shl (BitVec.ofNat 32 u - 1) suffix.length = BitVec.ofNat 32 ((u - 1) * 2 ^ suffix.length) := by
      have ht : (BitVec.ofNat 32 u - 1).toNat = u - 1 := by
        rw [BitVec.toNat_sub, BitVec.toNat_ofNat, Nat.mod_eq_of_lt hu]
        have h1 : (1 : Word).toNat = 1 := rfl
        omega
      unfold shl
      rw [ht]
      split
      · rfl
      · rename_i hk
        apply BitVec.eq_of_toNat_eq
        simp only [Config.wordBits, Nat.not_lt] at hk
        rw [BitVec.toNat_ofNat, show suffix.length = 32 + (suffix.length - 32) by omega, pow_add, Nat.mul_left_comm]
        simp
    rw [hv]
    simp [levelOf, h0, spelled, BitVec.ofNat_add]

/-- A completed fresh body has taken at least one bit (45_frame_sequencing.md R166). -/
theorem decBody_done_bitsAvail {s t : State} (h : decBody (.unary 0) s = .done () t) : bitsAvail t < bitsAvail s := by
  unfold decBody at h
  by_cases hg : geometryOk s = true
  · simp only [hg, if_true] at h
    generalize hv : decodeValue (channelAt s s.ch.toNat) 0 s = r at h
    cases r with
    | wait p x => simp at h
    | failed x => simp at h
    | stuck e => simp at h
    | done v m =>
      obtain ⟨bs, -, h2⟩ := decodeValue_done hv
      rw [Run.bind_done] at h
      rw [afterValue_done_bitsAvail h]
      exact h2
  · simp [hg] at h

/-! ## The loop -/

/-- The bound of the decode loop is no part of its result. -/
theorem decLoop_bound {n m : Nat} {bound : Option Nat} {s : State} (hn : bitsAvail s < n) (hm : bitsAvail s < m) :
    decLoop n bound s = decLoop m bound s := by
  induction n generalizing m bound s with
  | zero => omega
  | succ n ih =>
    obtain ⟨m, rfl⟩ : ∃ k, m = k + 1 := ⟨m - 1, by omega⟩
    simp only [decLoop]
    split
    · rfl
    · cases hb : decBody (.unary 0) s with
      | wait p x => rfl
      | failed x => rfl
      | stuck e => rfl
      | done a t =>
        have := decBody_done_bitsAvail hb
        simp only [Run.mapWait_done, Run.bind_done]
        exact ih (by omega) (by omega)

/-- One round of the decode loop (45_frame_sequencing.md R167, R168): done, or one body and the loop again. -/
theorem decRun_unroll (bound : Option Nat) (s : State) :
    decRun bound s =
      if bound = some 0 ∨ s.phase ≠ .decoding then .done () s else decResume bound (.unary 0) s := by
  unfold decRun decResume
  simp only [decLoop]
  split
  · rfl
  · cases hb : decBody (.unary 0) s with
    | wait p x => rfl
    | failed x => rfl
    | stuck e => rfl
    | done a t =>
      have := decBody_done_bitsAvail hb
      simp only [Run.mapWait_done, Run.bind_done, decRun]
      exact decLoop_bound (by omega) (by omega)

end Sys2Proof.Machine
end

