-- ==== Sys2Proof/Laws/PerInstr.lean ====
section
/-! SUPPORT. Per-instruction laws: the two fields of an encoded command (30_encoding.md R80, R81). -/

namespace Sys2Proof.Laws

/-- The fields of a word put together from an opcode and an operand field. -/
theorem slice_of_fields {op f : Nat} (ho : op < 16) (hf : f < 2 ^ 28) :
    slice (BitVec.ofNat 32 (op * 2 ^ 28 + f)) 31 28 = op ∧ slice (BitVec.ofNat 32 (op * 2 ^ 28 + f)) 27 0 = f := by
  simp only [slice, BitVec.toNat_ofNat, Config.wordBits]
  omega

namespace EncodedFields

/-- An encoded well-formed command holds its opcode in `w[31:28]` and its operand field in `w[27:0]` (30_encoding.md R80). -/
def Statement (i : Instr) : Prop :=
  i.wellFormed = true → slice (encode i) 31 28 = i.opcode ∧ slice (encode i) 27 0 = i.operandField

theorem nop : Statement .nop := fun _ => slice_of_fields (by decide) (by decide)

theorem cfgNch (n : Nat) : Statement (.cfgNch n) := fun h =>
  slice_of_fields (op := 1) (by decide) (by simp [Instr.wellFormed] at h; simp only [Instr.operandField]; omega)

theorem cfgBps (b : Nat) : Statement (.cfgBps b) := fun h =>
  slice_of_fields (op := 2) (by decide) (by simp [Instr.wellFormed] at h; simp only [Instr.operandField]; omega)

theorem cfgFmt (f : Nat) : Statement (.cfgFmt f) := fun h =>
  slice_of_fields (op := 3) (by decide) (by simp [Instr.wellFormed] at h; simp only [Instr.operandField]; omega)

theorem cfgKey (k d : Nat) : Statement (.cfgKey k d) := fun h =>
  slice_of_fields (op := 4) (by decide) (by simp [Instr.wellFormed] at h; simp only [Instr.operandField]; omega)

theorem cfgFlen (n : Nat) : Statement (.cfgFlen n) := fun h =>
  slice_of_fields (op := 5) (by decide) (by simp [Instr.wellFormed] at h; simp only [Instr.operandField]; omega)

theorem frameInit : Statement .frameInit := fun _ => slice_of_fields (op := 6) (by decide) (by decide)

theorem decSample : Statement .decSample := fun _ => slice_of_fields (op := 7) (by decide) (by decide)

theorem decStep (n : Nat) : Statement (.decStep n) := fun h =>
  slice_of_fields (op := 8) (by decide) (by simp [Instr.wellFormed] at h; simp only [Instr.operandField]; omega)

theorem decFrame : Statement .decFrame := fun _ => slice_of_fields (op := 9) (by decide) (by decide)

theorem verify : Statement .verify := fun _ => slice_of_fields (op := 10) (by decide) (by decide)

theorem raw (n : Nat) : Statement (.raw n) := fun h =>
  slice_of_fields (op := 11) (by decide) (by simp [Instr.wellFormed] at h; simp only [Instr.operandField]; omega)

theorem rdReset : Statement .rdReset := fun _ => slice_of_fields (op := 12) (by decide) (by decide)

theorem softReset : Statement .softReset := fun _ => slice_of_fields (op := 15) (by decide) (by decide)

end EncodedFields

end Sys2Proof.Laws
end

