-- ==== Sys2Proof/Machine/Assembler.lean ====
section
/-! DEFINITION. The spec's own text form of commands, on one line's characters (30_encoding.md R86, R87). -/

namespace Sys2Proof.Machine

/-- The value of a digit in base `base` (30_encoding.md R86). -/
def digitValue (base : Nat) (c : Char) : Option Nat :=
  let n := c.toNat
  let v :=
    if 48 ≤ n ∧ n ≤ 57 then n - 48
    else if 97 ≤ n ∧ n ≤ 102 then n - 87
    else if 65 ≤ n ∧ n ≤ 70 then n - 55
    else base
  if v < base then some v else none

/-- Digits from the left, `acc` so far. -/
def digits (base : Nat) : Nat → List Char → Option Nat
  | acc, [] => some acc
  | acc, c :: cs =>
    match digitValue base c with
    | some v => digits base (acc * base + v) cs
    | none => none

/-- A number: decimal, or `0x` hexadecimal (30_encoding.md R86). -/
def number : List Char → Option Nat
  | [] => none
  | '0' :: 'x' :: c :: cs => digits 16 0 (c :: cs)
  | cs => digits 10 0 cs

/-- A blank character. -/
def isBlank (c : Char) : Bool := c == ' ' || c == '\t'

/-- Blanks at both ends dropped. -/
def trimBlanks (cs : List Char) : List Char := ((cs.dropWhile isBlank).reverse.dropWhile isBlank).reverse

/-- The pieces between commas (30_encoding.md R86). -/
def splitCommas : List Char → List (List Char)
  | [] => [[]]
  | c :: cs =>
    match splitCommas cs with
    | [] => [[c]]
    | p :: ps => if c == ',' then [] :: p :: ps else (c :: p) :: ps

/-- The operands of a line; none at all is an empty list. -/
def operands (cs : List Char) : Option (List Nat) :=
  match trimBlanks cs with
  | [] => some []
  | t => (splitCommas t).mapM fun p => number (trimBlanks p)

/-- The commands a mnemonic and its operands stand for (30_encoding.md R82, R86, R87). -/
def fromMnemonic (name : List Char) (args : List Nat) : Option (List Instr) :=
  match String.ofList name, args with
  | "NOP", [] => some [.nop]
  | "CFG_NCH", [n] => some [.cfgNch n]
  | "CFG_BPS", [b] => some [.cfgBps b]
  | "CFG_FMT", [f] => some [.cfgFmt f]
  | "CFG_KEY", [i, d] => some [.cfgKey i d]
  | "CFG_FLEN", [n] => some [.cfgFlen n]
  | "FRAME_INIT", [] => some [.frameInit]
  | "DEC_SAMPLE", [] => some [.decSample]
  | "DEC_STEP", [n] => some [.decStep n]
  | "DEC_FRAME", [] => some [.decFrame]
  | "VERIFY", [] => some [.verify]
  | "RAW", [n] => some [.raw n]
  | "RD_RESET", [] => some [.rdReset]
  | "SOFT_RESET", [] => some [.softReset]
  | "CFG_KEYS", [d0, d1, d2, d3, d4, d5, d6, d7] => some (pseudoCfgKeys d0 d1 d2 d3 d4 d5 d6 d7)
  | "CFG_STREAM", [n, b, f] => some (pseudoCfgStream n b f)
  | "FRAME", [n] => some (pseudoFrame n)
  | _, _ => none

/-- One line of text: the commands it stands for, none for a blank or comment line; `none` is an assembly error, a number
that does not fit its field among them (30_encoding.md R86). -/
def assembleLine (line : List Char) : Option (List Instr) :=
  match trimBlanks (line.takeWhile (· != ';')) with
  | [] => some []
  | t =>
    match operands (t.dropWhile fun c => !isBlank c) with
    | none => none
    | some args =>
      match fromMnemonic (t.takeWhile fun c => !isBlank c) args with
      | none => none
      | some is => if is.all Instr.wellFormed then some is else none

end Sys2Proof.Machine
end

