-- ==== Sys2Proof/Machine/HostDuty.lean ====
section
/-! DEFINITION. The host arithmetic that the spec transcribes (70_reset_and_hazards.md R234, R236, R237). It is out of the
block's scope (00_scope.md R4(f)); nothing in the machine uses it. -/

namespace Sys2Proof.Machine

/-- Standard frame length in samples, `round(256 × sampleRate / 245)`; no tie exists (70_reset_and_hazards.md R234). -/
def standardLength (sampleRate : Nat) : Nat := (512 * sampleRate + 245) / 490

/-- Frame count, `ceil(totalSamples / standardLength)` (70_reset_and_hazards.md R234). -/
def frameCount (sampleRate total : Nat) : Nat := (total + standardLength sampleRate - 1) / standardLength sampleRate

/-- Length of frame `k` of `frameCount`: the standard length, and for the last the remainder if it is not zero
(70_reset_and_hazards.md R234). -/
def frameLength (sampleRate total k : Nat) : Nat :=
  let rest := total % standardLength sampleRate
  if k + 1 = frameCount sampleRate total ∧ rest ≠ 0 then rest else standardLength sampleRate

/-- Target frame of a seek to `seconds`, `floor(245 × seconds / 256)` (70_reset_and_hazards.md R236). -/
def seekFrame (seconds : Nat) : Nat := 245 * seconds / 256

/-- Reported position of a seek, `floor(256 × targetFrame / 245)` (70_reset_and_hazards.md R236). -/
def seekPosition (frame : Nat) : Nat := 256 * frame / 245

/-- The mute policy on a frame's bytes (70_reset_and_hazards.md R237, 90_conflicts.md C4). -/
def muteFrame (crcErr : Bool) (bytes : List Byte) : List Byte := if crcErr then bytes.map fun _ => 0 else bytes

end Sys2Proof.Machine
end

