-- ==== Sys2Proof/Tests/Slice0.lean ====
section
/-! SUPPORT. The model's own tests. Expected values are the printed vectors of 95_test_vectors.md, the encodings of
30_encoding.md and the worked examples of the rules named; `test_witness_<Name>` shows a state and operands that meet the
hypotheses of `Obligations.<Name>`. -/

namespace Sys2Proof.Tests

open Sys2Proof Sys2Proof.Machine

/-! ## Helpers -/

/-- Bytes as the source delivers them. -/
def source (l : List Nat) : List SrcItem := l.map fun n => .byte (BitVec.ofNat 8 n)

/-- A plain 16-bit configuration in IDLE. -/
def configured (nch flen : Nat) (inp : List SrcItem) : State :=
  { State.reset with nch := BitVec.ofNat 4 nch, bps := 16, fmt := 1, flen := BitVec.ofNat 28 flen, inp := inp }

/-- An open plain 16-bit frame, every channel at parameter `k` and sums 16384. -/
def frame (k nch flen : Nat) (inp : List SrcItem) : State :=
  { configured nch flen inp with
    phase := .decoding
    chanValid := true
    chan := Vector.ofFn fun _ =>
      { Channel.atReset with k0 := BitVec.ofNat 32 k, k1 := BitVec.ofNat 32 k, sum0 := 16384, sum1 := 16384 } }

/-- A halted block. -/
def halted : State := { configured 1 1 [] with phase := .halt, errIo := true }

/-- The next state, if the outcome is one. -/
def nextOf (r : Result) : Option State :=
  match r with
  | .next s => some s
  | _ => none

/-- A word placed and stepped. -/
def ran (w : Nat) (s : State) : Option State := nextOf (step (s.withFetchWord 32 w))

/-- `STATUS` after a word. -/
def statusAfter (w : Nat) (s : State) : Option Word := (ran w s).map statusWord

theorem exists_next {r : Result} (h : (nextOf r).isSome = true) : ∃ t, r = .next t := by
  cases r with
  | next t => exact ⟨t, rfl⟩
  | fault e => simp [nextOf] at h
  | refused e => simp [nextOf] at h

theorem exists_next_with {r : Result} {p : State → Bool} (h : (nextOf r).any p = true) :
    ∃ t, r = .next t ∧ p t = true := by
  cases r with
  | next t => exact ⟨t, rfl, by simpa [nextOf] using h⟩
  | fault e => simp [nextOf] at h
  | refused e => simp [nextOf] at h

/-! ## Well-formed commands: each field's width (30_encoding.md R80, R86) -/

theorem test_ill_formed_nch : (Instr.cfgNch 16).wellFormed = false := by decide
theorem test_ill_formed_bps : (Instr.cfgBps 64).wellFormed = false := by decide
theorem test_ill_formed_fmt : (Instr.cfgFmt 4).wellFormed = false := by decide
theorem test_ill_formed_key_index : (Instr.cfgKey 8 0).wellFormed = false := by decide
theorem test_ill_formed_key_byte : (Instr.cfgKey 0 256).wellFormed = false := by decide
theorem test_ill_formed_flen : (Instr.cfgFlen (2 ^ 28)).wellFormed = false := by decide
theorem test_ill_formed_step : (Instr.decStep (2 ^ 28)).wellFormed = false := by decide
theorem test_ill_formed_raw : (Instr.raw (2 ^ 28)).wellFormed = false := by decide

/-! ## Decoding: one word written out for each command (30_encoding.md R82, 95_test_vectors.md Part 3) -/

theorem test_decode_nop : decode 0x00000000 = .command .nop := by decide
theorem test_decode_cfg_nch : decode 0x10000006 = .command (.cfgNch 6) := by decide
theorem test_decode_cfg_bps : decode 0x20000018 = .command (.cfgBps 24) := by decide
theorem test_decode_cfg_fmt : decode 0x30000002 = .command (.cfgFmt 2) := by decide
theorem test_decode_cfg_key : decode 0x400005F0 = .command (.cfgKey 5 0xF0) := by decide
theorem test_decode_cfg_flen : decode 0x500066A8 = .command (.cfgFlen 26280) := by decide
theorem test_decode_frame_init : decode 0x60000000 = .command .frameInit := by decide
theorem test_decode_dec_sample : decode 0x70000000 = .command .decSample := by decide
theorem test_decode_dec_step : decode 0x80000005 = .command (.decStep 5) := by decide
theorem test_decode_dec_frame : decode 0x90000000 = .command .decFrame := by decide
theorem test_decode_verify : decode 0xA0000000 = .command .verify := by decide
theorem test_decode_raw : decode 0xB0000012 = .command (.raw 18) := by decide
theorem test_decode_rd_reset : decode 0xC0000000 = .command .rdReset := by decide
theorem test_decode_soft_reset : decode 0xF0000000 = .command .softReset := by decide

/-- The highest and lowest operand bits of the widest fields, and the table-word reader. -/
theorem test_decode_operand_ends :
    decode 0x5FFFFFFF = .command (.cfgFlen 0x0FFFFFFF) ∧ decode 0x88000001 = .command (.decStep 0x08000001) ∧
      decodeTableWord 32 0x40000755 = some (.cfgKey 7 0x55) ∧ decodeTableWord 32 0xE0000000 = none := by decide

/-- 30_encoding.md R85 (a) and its four printed words of (b). -/
theorem test_decode_illegal :
    decode 0xD0000000 = .illegal (.reservedOpcode 0xD) ∧ decode 0xE1234567 = .illegal (.reservedOpcode 0xE) ∧
      decode 0x00000001 = .illegal (.mustBeZero 0) ∧ decode 0x60000001 = .illegal (.mustBeZero 6) ∧
      decode 0x10000010 = .illegal (.mustBeZero 1) ∧ decode 0x40000800 = .illegal (.mustBeZero 4) := by decide

/-- The text form (30_encoding.md R86, R87). -/
theorem test_assemble :
    assembleLine "CFG_KEY 3, 0x80 ; key".toList = some [.cfgKey 3 0x80] ∧ assembleLine "CFG_NCH 16".toList = none ∧
      assembleLine "FRAME 4".toList = some [.cfgFlen 4, .frameInit, .decFrame] := by decide +kernel

/-- 95_test_vectors.md L8. -/
theorem test_frame_lengths :
    standardLength 44100 = 46080 ∧ frameCount 44100 441000 = 10 ∧ frameLength 44100 441000 9 = 26280 := by decide

/-! ## One step of each command -/

theorem test_nop : nextOf (exec .nop (configured 1 1 [])) = some (configured 1 1 []) := by decide
theorem test_cfg_nch : (ran 0x10000006 State.reset).map State.nch = some 6 := by decide
theorem test_cfg_nch_refused : statusAfter 0x10000007 State.reset = some 0x20 := by decide
theorem test_cfg_bps : (ran 0x20000018 State.reset).map State.bps = some 24 := by decide
theorem test_cfg_bps_refused : statusAfter 0x20000019 State.reset = some 0x20 := by decide
theorem test_cfg_fmt_discards_key :
    (ran 0x30000001 { State.reset with key := Vector.replicate 8 5, keymask := 0xFF }).map
      (fun t => (t.fmt, t.keymask, t.key[7])) = some (1, 0, 0) := by decide
theorem test_cfg_fmt_refused : statusAfter 0x30000003 State.reset = some 0x20 := by decide
theorem test_cfg_key : (ran 0x40000380 State.reset).map (fun t => (t.key[3], t.key[2], t.keymask)) = some (0x80, 0, 0x08) := by
  decide
theorem test_cfg_key_completes :
    statusAfter 0x40000755 { State.reset with keymask := 0x7F } = some 0x80 := by decide
theorem test_cfg_flen : (ran 0x5000B400 State.reset).map State.flen = some 46080 := by decide
theorem test_cfg_flen_refused : statusAfter 0x50000000 State.reset = some 0x20 := by decide

/-- 46_config_control.md R186, example. -/
theorem test_frame_init :
    (ran 0x60000000 (configured 1 4 [])).map (fun t => (statusWord t, t.chan[5].k0, t.chan[0].sum0)) =
      some (1, 10, 16384) := by decide

/-- 42_hybrid_filter.md R141, example: key byte 0xFF is -1, 0x80 is -128. -/
theorem test_frame_init_seeds :
    (ran 0x60000000 { configured 1 4 [] with
      fmt := 2, keymask := 0xFF, key := Vector.ofFn fun i => if i.val = 1 then 0xFF else if i.val = 3 then 0x80 else 1 }).map
      (fun t => (t.chan[5].coef[0].toInt, t.chan[5].coef[1].toInt, t.chan[5].coef[3].toInt)) = some (1, -1, -128) := by
  decide

/-- 95_test_vectors.md P2, command 6. -/
theorem test_dec_sample :
    (ran 0x70000000 (frame 10 2 3 (source [0x20, 0x03, 0x80]))).map
      (fun t => (t.ch, t.count, t.crc, t.cache[0].toInt, t.pcm)) =
      some (1, 2, 0xB2AB9818, -200, []) := by decide +kernel

/-- 95_test_vectors.md P6 (d): the last channel of a mono time-step. -/
theorem test_dec_sample_completes :
    (ran 0x70000000 (frame 10 1 4 (source [0x12, 0xE0]))).map (fun t => (t.pos, t.ch, t.count, t.crc, t.pcm)) =
      some (1, 0, 2, 0x66D87FAB, [5, 0]) := by decide +kernel

/-- 95_test_vectors.md P3, frame 1: one time-step of two. -/
theorem test_dec_step :
    (ran 0x80000001 (frame 10 1 2 (source [0x02, 0x30, 0x00]))).map (fun t => (statusWord t, t.pos, t.pcm)) =
      some (1, 1, [1, 0]) := by decide +kernel

/-- 45_frame_sequencing.md R173 (a). -/
theorem test_dec_step_zero : nextOf (exec (.decStep 0) (frame 10 1 2 [])) = some (frame 10 1 2 []) := by decide +kernel

/-- 95_test_vectors.md P3, frame 2, and frame 1 with its corrupted trailer. -/
theorem test_dec_frame :
    (ran 0x90000000 (frame 10 1 2 (source [0x04, 0x20, 0x00, 0x6C, 0x55, 0xCC, 0x6D]))).map
      (fun t => (statusWord t, t.pos, t.count, t.crcCalc, t.pcm)) =
      some (4, 2, 7, 0x6DCC556C, [0xFF, 0xFF, 0xFE, 0xFF]) := by decide +kernel

theorem test_dec_frame_mismatch :
    (ran 0x90000000 (frame 10 1 2 (source [0x02, 0x30, 0x00, 0x8F, 0x3B, 0x83, 0x22]))).map
      (fun t => (statusWord t, t.crcCalc, t.crcStored, t.pcm)) =
      some (8, 0x23833B8F, 0x22833B8F, [1, 0, 2, 0]) := by decide +kernel

/-- 95_test_vectors.md CK1. -/
theorem test_verify : statusAfter 0xA0000000 (configured 1 1 (source [0, 0, 0, 0])) = some 4 := by decide +kernel
theorem test_verify_mismatch :
    (ran 0xA0000000 (configured 1 1 (source [1, 0, 0, 0]))).map (fun t => (statusWord t, t.crcCalc, t.crcStored)) =
      some (8, 0, 1) := by decide +kernel

/-- 95_test_vectors.md CK4. -/
theorem test_raw :
    (ran 0xB0000004 (configured 1 1 (source [1, 2, 3, 4]))).map (fun t => (t.crc, t.count, t.rawOut)) =
      some (0x49C30432, 4, [1, 2, 3, 4]) := by decide +kernel

/-- 46_config_control.md R189 with 60_exceptions.md R205: the byte that arrived has been passed on. -/
theorem test_raw_failure :
    (ran 0xB0000002 (configured 1 1 (source [7] ++ [.failure]))).map (fun t => (statusWord t, t.rawOut, t.count)) =
      some (0x43, [7], 1) := by decide +kernel

/-- 95_test_vectors.md P6 (d): a sticky flag stays, the position goes. -/
theorem test_rd_reset :
    (ran 0xC0000000 { frame 10 1 4 [] with pos := 1, count := 2, crc := 0x66D87FAB, errCmd := true }).map
      (fun t => (statusWord t, t.pos, t.count, t.crc)) = some (0x10, 0, 0, 0xFFFFFFFF) := by decide

/-- 95_test_vectors.md P6 (c): SOFT_RESET out of HALT. -/
theorem test_soft_reset : (ran 0xF0000000 halted).map (fun t => (statusWord t, t.nch, t.crc)) = some (0, 0, 0xFFFFFFFF) := by
  decide
theorem test_halt_refuses : statusAfter 0x60000000 halted = some 0x53 := by decide
theorem test_illegal_word : statusAfter 0xD0000000 State.reset = some 0x10 := by decide

/-! ## The units on printed vectors -/

/-- 95_test_vectors.md 2.1. -/
theorem test_arithmetic :
    sar (-33) 5 = -2 ∧ sar (-5) 40 = -1 ∧ shr 17477 4 = 1092 ∧ shl 1 32 = 0 ∧ tdiv2 (-3) = -1 ∧ tdiv2 (-1) = 0 ∧
      sgn (-7) = -1 := by decide

/-- 95_test_vectors.md E10: level 1, `a` = 3976. -/
theorem test_entropy_e10 :
    (entropyUpdate { Channel.atReset with k0 := 10, k1 := 10, sum0 := 16384, sum1 := 16384 } (.one, 3976)).1.toInt = -2500 ∧
      (entropyUpdate { Channel.atReset with k0 := 10, k1 := 10, sum0 := 16384, sum1 := 16384 } (.one, 3976)).2.sum0 = 20360 ∧
      (entropyUpdate { Channel.atReset with k0 := 10, k1 := 10, sum0 := 16384, sum1 := 16384 } (.one, 3976)).2.sum1 = 19336 := by
  decide +kernel

/-- 95_test_vectors.md F20: the products and a coefficient wrap. -/
theorem test_filter_f20 :
    let out := filterStep 10 1 { Channel.atReset with
      coef := Vector.ofFn fun i => if i.val = 0 then 2147483647 else if i.val = 7 then 2 else 0
      hist := Vector.ofFn fun i => if i.val = 0 then 2 else if i.val = 7 then 1073741824 else 0 }
    out.1 = 2097152 ∧ out.2.coef[0].toInt = -2147483648 ∧ out.2.coef[7] = 3 ∧ out.2.hist[6] = 1073741824 ∧
      out.2.hist[7] = 2097152 := by decide +kernel

/-- 95_test_vectors.md S6 and S11. -/
theorem test_predictor :
    (predStep 0 { Channel.atReset with prev := -33 }).1 = -32 ∧
      (predStep 0 { Channel.atReset with prev := 69273667 }).1.toInt = -67108864 := by decide +kernel

/-- 44_decorrelator_output.md R160 (a): the halving truncates toward zero. -/
theorem test_decorrelate :
    decorrelate 2 (Vector.ofFn fun i => if i.val = 0 then -3 else if i.val = 1 then 5 else 0) =
      Vector.ofFn fun i => if i.val = 0 then 7 else if i.val = 1 then 4 else 0 := by decide +kernel

/-- 20_memory.md R67. -/
theorem test_sample_bytes : sampleBytes 2 (-2) = [0xFE, 0xFF] ∧ sampleBytes 3 0x123456 = [0x56, 0x34, 0x12] := by decide

/-! ## Witnesses: the hypotheses of the obligations can be met -/

theorem test_witness_DecodeInvertsEncode :
    (Instr.cfgKey 7 255).wellFormed = true ∧ (Instr.raw (2 ^ 28 - 1)).wellFormed = true := by decide

theorem test_witness_EncodeInvertsDecode :
    decode 0x400007FF = .command (.cfgKey 7 255) ∧ decode 0xF0000000 = .command .softReset := by decide

theorem test_witness_LegalExactlyWhenARowMatches :
    decode 0x5FFFFFFF = .command (.cfgFlen 0x0FFFFFFF) ∧
      ∃ r ∈ opcodeMap, r.matchesWord 0x5FFFFFFF = true ∧ r.mnemonic = "CFG_FLEN" := by decide

theorem test_witness_StepRunsTheDecodedCommand :
    ∃ s : State, s.resetReq = false ∧ s.inFlight = none ∧ s.cmd = 0xC0000000 :: [0x00000000] ∧
      decode 0xC0000000 = .command .rdReset :=
  ⟨{ State.reset with cmd := [0xC0000000, 0] }, by decide⟩

theorem test_witness_IllegalWordOnlySetsErrCmd :
    ∃ s : State, s.resetReq = false ∧ s.inFlight = none ∧ s.cmd = 0xD0000000 :: [] ∧
      ∀ r ∈ opcodeMap, r.matchesWord 0xD0000000 = false :=
  ⟨{ halted with cmd := [0xD0000000] }, by decide⟩

/-- A DEC_SAMPLE that runs out of bytes; the host's next bytes. -/
theorem test_witness_WaitingKeepsAllState :
    ∃ s t : State, s.resetReq = false ∧ step s = .next t ∧ t.inFlight ≠ none := by
  obtain ⟨t, h, hp⟩ := exists_next_with
    (r := step { frame 10 1 2 (source [0x02]) with cmd := [0x70000000] }) (p := fun t => t.inFlight.isSome)
    (by decide +kernel)
  exact ⟨_, t, rfl, h, by intro h'; simp [h'] at hp⟩

/-- A DEC_FRAME that waits for a byte, and a RAW that waits for room with a byte in hand. -/
theorem test_witness_WaitingChangesNoResult :
    ∃ s t s' t' : State, (s.resetReq = false ∧ step s = .next t ∧ t.inFlight ≠ none) ∧
      s'.resetReq = false ∧ step s' = .next t' ∧ t'.inFlight = some (.raw 1 (some 8)) ∧ t'.rawOut = [7] := by
  obtain ⟨t, h, hp⟩ := exists_next_with
    (r := step { frame 10 1 2 (source [0x02]) with cmd := [0x90000000] }) (p := fun t => t.inFlight.isSome)
    (by decide +kernel)
  obtain ⟨t', h', hp'⟩ := exists_next_with
    (r := step { configured 1 1 (source [7, 8, 9]) with cmd := [0xB0000003], rawRoom := some 1 })
    (p := fun t => decide (t.inFlight = some (.raw 1 (some 8)) ∧ t.rawOut = [7])) (by decide +kernel)
  exact ⟨_, t, _, t', ⟨rfl, h, by intro e; simp [e] at hp⟩, rfl, h', of_decide_eq_true hp'⟩

/-- Two bytes of a stereo time-step of four go out, the block waits, and with more room the other two follow. -/
theorem test_wait_for_room :
    let s := { frame 0 2 1 (source [0]) with cmd := [0x80000001], pcmRoom := some 2 }
    let t := (nextOf (step s)).bind fun t => nextOf (step (hostProvides (some 2) none [] t))
    (nextOf (step s)).map (fun t => (t.pcm, t.pcmRoom, t.phase)) = some ([0, 0], some 0, .decoding) ∧
      t.map (fun t => (t.pcm, t.pcmRoom, t.phase, t.inFlight)) = some ([0, 0, 0, 0], some 0, .frameEnd, none) := by
  decide +kernel

theorem test_witness_HardwareResetIsSoftReset :
    ({ halted with resetReq := true, inFlight := some (.raw 1 none) } : State).resetReq = true := rfl

theorem test_witness_HaltAcceptsOnlySoftReset : halted.phase = .halt ∧ Instr.frameInit ≠ .softReset := by decide

theorem test_witness_RefusedPhaseOnlySetsErrCmd :
    (frame 10 1 1 []).phase ≠ .idle ∧ State.reset.phase ≠ .decoding ∧ State.reset.phase ≠ .frameEnd ∧
      (frame 10 1 1 []).phase ≠ .frameEnd ∧ halted.phase = .halt := by decide

theorem test_witness_NopChangesNothing : State.reset.phase ≠ .halt ∧ halted.phase = .halt := by decide

/-- Each clause at the ends of its range, with what it concludes. -/
theorem test_witness_CfgNchWritesLegalCounts :
    State.reset.phase = .idle ∧ (frame 10 1 1 []).phase ≠ .idle ∧
      ([1, 6].map fun n => (nextOf (exec (.cfgNch n) State.reset)).map State.nch) = [some 1, some 6] ∧
      ([0, 7, 15].map fun n => (nextOf (exec (.cfgNch n) State.reset)).map State.errCfg) = [true, true, true] := by decide

theorem test_witness_CfgBpsWritesLegalWidths :
    State.reset.phase = .idle ∧ (frame 10 1 1 []).phase ≠ .idle ∧
      ([16, 24].map fun b => (nextOf (exec (.cfgBps b) State.reset)).map fun t => (t.bps, depthOf t, shiftOf t)) =
        [some (16, 2, 9), some (24, 3, 10)] ∧
      ([0, 15, 25, 63].map fun b => (nextOf (exec (.cfgBps b) State.reset)).map State.errCfg) =
        [true, true, true, true] := by decide

theorem test_witness_CfgFmtSelectsTheFormat :
    State.reset.phase = .idle ∧ (frame 10 1 1 []).phase ≠ .idle ∧
      ([0, 1, 2, 3].map fun f => (nextOf (exec (.cfgFmt f) State.reset)).map fun t => (t.fmt, t.errCfg)) =
        [some (0, true), some (1, false), some (2, false), some (0, true)] := by decide

theorem test_witness_CfgKeyWritesOneByte :
    State.reset.phase = .idle ∧ (frame 10 1 1 []).phase ≠ .idle ∧
      ([0, 7].map fun k => (nextOf (exec (.cfgKey k 255) State.reset)).map fun t => (t.key[7], t.keymask)) =
        [some (0, 0x01), some (255, 0x80)] := by decide

theorem test_witness_CfgFlenWritesPositiveLengths :
    State.reset.phase = .idle ∧ (frame 10 1 1 []).phase ≠ .idle ∧
      ([0, 1, 2 ^ 28 - 1].map fun n => (nextOf (exec (.cfgFlen n) State.reset)).map fun t => (t.flen, t.errCfg)) =
        [some (0, true), some (1, false), some (0xFFFFFFF, false)] := by decide

/-- Complete as plain and as encrypted, incomplete, and halted. -/
theorem test_witness_FrameInitOpensTheFrame :
    (completeConfiguration (configured 6 1 []) ∧ (configured 6 1 []).phase ≠ .halt) ∧
      completeConfiguration { configured 1 1 [] with fmt := 2, bps := 24, keymask := 0xFF } ∧
      (¬completeConfiguration { configured 1 1 [] with fmt := 2, keymask := 0x7F } ∧ ¬completeConfiguration State.reset) ∧
      halted.phase = .halt := by
  unfold completeConfiguration
  decide

theorem test_witness_RdResetRestartsTheReader : (frame 10 1 1 []).phase ≠ .halt ∧ halted.phase = .halt := by decide

/-- Frame 2 of 95_test_vectors.md P3, once from reset and once over an abandoned frame. -/
theorem test_witness_FrameInitForgetsThePast :
    ∃ s1 s2 a b a' : State, sameConfig s1 s2 ∧ completeConfiguration s1 ∧ s1.inp = s2.inp ∧ s1.pcmRoom = s2.pcmRoom ∧
      s1.phase ≠ .halt ∧ s2.phase ≠ .halt ∧ exec .frameInit s1 = .next a ∧ exec .frameInit s2 = .next b ∧
      exec .decFrame a = .next a' ∧ s1 ≠ s2 := by
  have hx : (nextOf (exec .decFrame (openFrame (configured 1 2 (source [0x04, 0x20, 0, 0x6C, 0x55, 0xCC, 0x6D]))))).isSome =
      true := by decide +kernel
  obtain ⟨t, h⟩ := exists_next hx
  refine ⟨configured 1 2 (source [0x04, 0x20, 0, 0x6C, 0x55, 0xCC, 0x6D]),
    { frame 3 1 2 (source [0x04, 0x20, 0, 0x6C, 0x55, 0xCC, 0x6D]) with pos := 1, bcount := 3, crc := 0 }, _, _, t,
    ?_, ?_, rfl, rfl, by decide, by decide, rfl, rfl, h, by decide⟩
  · unfold sameConfig; decide
  · unfold completeConfiguration; decide

theorem test_witness_RawPassesBytesThrough :
    ∃ (s : State) (bytes : List Byte) (rest : List SrcItem) (room : Option Nat),
      s.phase = .idle ∧ s.inp = delivered bytes ++ rest ∧ roomFor s.rawRoom bytes.length room ∧ bytes = [1, 2] :=
  ⟨{ configured 1 1 (source [1, 2, 3]) with rawRoom := some 2 }, [1, 2], source [3], some 0, rfl, rfl,
    .inr ⟨0, rfl, rfl⟩, rfl⟩

theorem test_witness_RawWithTooFewBytes :
    ∃ (s s' s'' : State) (bytes : List Byte), s.phase = .idle ∧ s'.phase = .idle ∧ bytes.length < 2 ∧
      roomFor s.rawRoom bytes.length none ∧ s.inp = delivered bytes ++ .failure :: [] ∧ s'.inp = delivered bytes ∧
      s''.phase = .idle ∧ s''.rawRoom = some bytes.length ∧ s''.inp = delivered (bytes ++ [8]) ++ [] :=
  ⟨configured 1 1 (source [7] ++ [.failure]), configured 1 1 (source [7]),
    { configured 1 1 (source [7, 8]) with rawRoom := some 1 }, [7], rfl, rfl, by decide, .inl ⟨rfl, rfl⟩, rfl, rfl, rfl,
    rfl, rfl⟩

theorem test_witness_VerifyComparesTheTrailer :
    ∃ s s' : State, s.phase = .idle ∧ s'.phase = .frameEnd ∧ s.inp = delivered [1, 2, 3, 4] ++ [] ∧
      s'.inp = delivered [0, 0, 0, 255] ++ [.failure] :=
  ⟨configured 1 1 (source [1, 2, 3, 4]), { frame 10 1 1 (source [0, 0, 0, 255] ++ [.failure]) with phase := .frameEnd },
    rfl, rfl, rfl, rfl⟩

theorem test_witness_VerifyWithTooFewBytes :
    ∃ (s s' : State) (bytes : List Byte), s.phase = .idle ∧ s'.phase = .frameEnd ∧ bytes.length < 4 ∧
      s.inp = delivered bytes ++ .failure :: [] ∧ s'.inp = delivered bytes :=
  ⟨configured 1 1 (source [1, 2, 3] ++ [.failure]), { frame 10 1 1 (source [1, 2, 3]) with phase := .frameEnd }, [1, 2, 3],
    rfl, rfl, by decide, rfl, rfl⟩

theorem test_witness_UnitCheckComparesExactlyItsBytes :
    ∃ (s : State) (bytes : List Byte), s.phase ≠ .halt ∧ s.rawRoom = none ∧
      s.inp = delivered (bytes ++ [0xCD, 0xFB, 0x3C, 0xB6]) ++ [] ∧ bytes = [1, 2, 3, 4] :=
  ⟨frame 10 1 1 (source [1, 2, 3, 4, 0xCD, 0xFB, 0x3C, 0xB6]), [1, 2, 3, 4], by decide, rfl, rfl, rfl⟩

theorem test_witness_ChecksumStepLosesNothing : crcStep 0xFFFFFFFF 0 = crcStep 0xFFFFFFFF 0 := rfl

/-- The ends of the two ranges of shifts. -/
theorem test_witness_SarFloors : (31 < 32 ∧ (sar (-5) 31).toInt = -1) ∧ (32 ≤ 32 ∧ (sar (-5) 32).toInt = -1) ∧ sar 5 32 = 0 := by
  decide

theorem test_witness_Tdiv2TruncatesTowardZero :
    (0 ≤ (0 : Word).toInt ∧ 0 ≤ (0x7FFFFFFF : Word).toInt) ∧ ((-1 : Word).toInt < 0 ∧ (0x80000000 : Word).toInt < 0) ∧
      tdiv2 (-1) ≠ sar (-1) 1 := by decide

theorem test_witness_UnmapIsTheSignMap :
    ((0x7FFFFFFD : Word).toNat ≤ 0x7FFFFFFE ∧ (0x7FFFFFFD : Word).toNat % 2 = 1) ∧
      ((0x7FFFFFFE : Word).toNat ≤ 0x7FFFFFFE ∧ (0x7FFFFFFE : Word).toNat % 2 = 0) ∧
      (unmap 0x7FFFFFFD).toInt = 1073741823 ∧ (unmap 0x7FFFFFFE).toInt = -1073741823 := by decide

theorem test_witness_EntropyUpdateAdapts : (1029 : Word) = BitVec.ofNat 32 ((5 : Word).toNat + 2 ^ (10 : Word).toNat) := by
  decide

theorem test_witness_FilterStepPredictsAndAdapts : 0 < 32 ∧ 31 < 32 ∧ (7 : Fin 8).val = (6 : Fin 8).val + 1 := by decide

theorem test_witness_DecorrelateInvertsTheForwardTransform : (1 ≤ 1 ∧ 1 ≤ 6) ∧ (1 ≤ 6 ∧ 6 ≤ 6) ∧ 5 ≤ (5 : Fin 6).val := by
  decide

/-- Channel 1 of two, at places 3 to 5 of six. -/
theorem test_witness_SamplesArePackedLittleEndian :
    (0 ≤ 4 ∧ (sampleBytes 4 (-2)).length = 4) ∧ (1 : Fin 6).val < 2 ∧
      stepBytes 2 3 (Vector.ofFn fun i => if i.val = 0 then 1 else 2) = [1, 0, 0, 2, 0, 0] := by decide +kernel

/-- The first codeword of 95_test_vectors.md P2, and a level-1 codeword without a suffix (E13). -/
theorem test_witness_DecSampleDecodesOneChannel :
    ∃ s s' : State, (s.phase = .decoding ∧ insideFrame s ∧ s.ch.toNat + 1 < s.nch.toNat) ∧
      ([false, false, false, false, true, false, false, true, true, false].length =
        suffixWidth (channelAt s s.ch.toNat) 0 ∧
        unreadBits s = codeword 0 [false, false, false, false, true, false, false, true, true, false] ++
          List.replicate 5 false) ∧
      (∃ (r y out : Word) (ch0 ch1 ch2 : Channel),
        entropyUpdate (channelAt s s.ch.toNat)
          (levelOf 0, spelled 0 [false, false, false, false, true, false, false, true, true, false]) = (r, ch0) ∧
        filterStep (shiftOf s) r ch0 = (y, ch1) ∧ predStep y ch1 = (out, ch2)) ∧
      (s'.phase = .decoding ∧ insideFrame s' ∧ s'.ch.toNat + 1 < s'.nch.toNat) ∧
      (([] : List Bool).length = suffixWidth (channelAt s' s'.ch.toNat) 1 ∧
        unreadBits s' = codeword 1 [] ++ List.replicate 6 false) := by
  refine ⟨frame 10 2 3 (source [0x20, 0x03]), { frame 0 6 3 (source [0x01]) with ch := 4 }, ?_, ?_,
    ⟨_, _, _, _, _, _, rfl, rfl, rfl⟩, ?_, ?_⟩
  · unfold insideFrame; decide
  · decide +kernel
  · unfold insideFrame; decide
  · decide +kernel

/-- The hypotheses of `Obligations.DecSampleCompletesATimeStep` on the codeword, for the first one of 95_test_vectors.md P1
on the only channel, whatever the room. -/
theorem completes_codeword (room : Option Nat) :
    let s := { frame 10 1 4 (source [0x12, 0xE0]) with pcmRoom := room }
    let suffix := [true, false, false, true, false, false, false, false, false, false]
    (s.phase = .decoding ∧ insideFrame s ∧ s.ch.toNat + 1 = s.nch.toNat) ∧
      suffix.length = suffixWidth (channelAt s s.ch.toNat) 0 ∧
      unreadBits s = codeword 0 suffix ++ [false, false, true, true, true] ∧
      ∃ (r y out : Word) (ch0 ch1 ch2 : Channel),
        entropyUpdate (channelAt s s.ch.toNat) (levelOf 0, spelled 0 suffix) = (r, ch0) ∧
        filterStep (shiftOf s) r ch0 = (y, ch1) ∧ predStep y ch1 = (out, ch2) := by
  intro s suffix
  refine ⟨⟨rfl, ?_, rfl⟩, ?_, ?_, _, _, _, _, _, _, rfl, rfl, rfl⟩
  · show insideFrame (frame 10 1 4 (source [0x12, 0xE0]))
    unfold insideFrame
    decide
  · show suffix.length = suffixWidth (channelAt (frame 10 1 4 (source [0x12, 0xE0])) 0) 0
    decide
  · show unreadBits (frame 10 1 4 (source [0x12, 0xE0])) = _
    decide +kernel

/-- Room for exactly the time-step's two bytes; room for none of them and for one. -/
theorem test_witness_DecSampleCompletesATimeStep :
    ∃ s s0 s1 : State, (s = { frame 10 1 4 (source [0x12, 0xE0]) with pcmRoom := some 2 } ∧
        roomFor s.pcmRoom (s.nch.toNat * depthOf s) (some 0)) ∧
      (s0 = { frame 10 1 4 (source [0x12, 0xE0]) with pcmRoom := some 0 } ∧ 0 < s0.nch.toNat * depthOf s0) ∧
      (s1 = { frame 10 1 4 (source [0x12, 0xE0]) with pcmRoom := some 1 } ∧ 1 < s1.nch.toNat * depthOf s1) ∧
      ∀ z ∈ [s, s0, s1], (z.phase = .decoding ∧ insideFrame z ∧ z.ch.toNat + 1 = z.nch.toNat) := by
  refine ⟨_, _, _, ⟨rfl, .inr ⟨0, rfl, rfl⟩⟩, ⟨rfl, by decide⟩, ⟨rfl, by decide⟩, ?_⟩
  intro z hz
  simp only [List.mem_cons, List.not_mem_nil, or_false] at hz
  rcases hz with rfl | rfl | rfl <;> exact (completes_codeword _).1

/-- Short of a codeword in its prefix and in its suffix. -/
theorem test_witness_DecSampleReadFailureChangesNoChannel :
    ∃ s s' : State, (s.phase = .decoding ∧ insideFrame s ∧ s.inp = delivered [0xFF] ++ .failure :: []) ∧
      shortOfCodeword (channelAt s s.ch.toNat) (unreadBits s) ∧
      (s'.phase = .decoding ∧ insideFrame s' ∧ s'.inp = delivered [0x02] ++ .failure :: []) ∧
      shortOfCodeword (channelAt s' s'.ch.toNat) (unreadBits s') := by
  refine ⟨frame 10 1 2 (source [0xFF] ++ [.failure]), frame 10 1 2 (source [0x02] ++ [.failure]), ?_,
    .inl ⟨8, by decide +kernel⟩, ?_, .inr ⟨0, [true, false, false, false, false, false, false], by decide +kernel⟩⟩
  · unfold insideFrame; decide
  · unfold insideFrame; decide

theorem test_witness_DecSampleWaitsInsideACodeword :
    ∃ s s' : State, (s.phase = .decoding ∧ insideFrame s ∧ s.inp = delivered []) ∧
      shortOfCodeword (channelAt s s.ch.toNat) (unreadBits s) ∧
      (s'.phase = .decoding ∧ insideFrame s' ∧ s'.inp = delivered [0x02]) ∧
      shortOfCodeword (channelAt s' s'.ch.toNat) (unreadBits s') := by
  refine ⟨frame 10 1 2 [], frame 10 1 2 (source [0x02]), ?_,
    .inl ⟨0, by decide +kernel⟩, ?_, .inr ⟨0, [true, false, false, false, false, false, false], by decide +kernel⟩⟩
  · unfold insideFrame; decide
  · unfold insideFrame; decide

theorem test_witness_OtherChannelsAreUntouched :
    ∃ s t : State, exec .decSample s = .next t ∧ (1 : Fin 6).val ≠ s.ch.toNat := by
  obtain ⟨t, h⟩ := exists_next (r := exec .decSample (frame 10 2 3 (source [0x20, 0x03]))) (by decide +kernel)
  exact ⟨_, t, h, by decide⟩

/-- The two codewords of 95_test_vectors.md P3, frame 1. -/
def cwsP3 : List (Nat × List Bool) :=
  [(0, [true, false, false, false, false, false, false, false, false, false]),
    (0, [true, true, false, false, false, false, false, false, false])]

/-- Their frame, with the trailer that verifies. -/
def frameP3 : State := frame 10 1 2 (source [0x02, 0x30, 0x00, 0x8F, 0x3B, 0x83, 0x23])

theorem codewordsFit_P3 : codewordsFit cwsP3 frameP3 :=
  And.intro (And.intro (by decide) (by decide +kernel)) (And.intro (And.intro (by decide) (by decide +kernel)) trivial)

/-- One time-step of two asked for, and five of two. -/
theorem test_witness_DecStepDecodesItsTimeSteps :
    ∃ s : State, (s.phase = .decoding ∧ insideFrame s ∧ s.pos.toNat < s.flen.toNat) ∧
      (1 = min 1 (s.flen.toNat - s.pos.toNat) ∧ (cwsP3.take 1).length = 1 * s.nch.toNat - s.ch.toNat ∧
        codewordsFit (cwsP3.take 1) s ∧
        unreadBits s = codewordBits (cwsP3.take 1) ++ (unreadBits s).drop 11) ∧
      (2 = min 5 (s.flen.toNat - s.pos.toNat) ∧ cwsP3.length = 2 * s.nch.toNat - s.ch.toNat ∧
        codewordsFit cwsP3 s ∧ unreadBits s = codewordBits cwsP3 ++ (unreadBits s).drop 21) ∧
      roomFor s.pcmRoom (2 * (s.nch.toNat * depthOf s)) none := by
  refine ⟨frameP3, ?_, ⟨by decide, by decide, And.intro codewordsFit_P3.1 trivial, by decide +kernel⟩,
    ⟨by decide, by decide, codewordsFit_P3, by decide +kernel⟩, .inl ⟨rfl, rfl⟩⟩
  unfold insideFrame
  decide

theorem test_witness_DecFrameDecodesTheFrameAndVerifies :
    ∃ s : State, (s.phase = .decoding ∧ insideFrame s ∧ s.pos.toNat < s.flen.toNat) ∧
      cwsP3.length = (s.flen.toNat - s.pos.toNat) * s.nch.toNat - s.ch.toNat ∧ codewordsFit cwsP3 s ∧
      s.inp = delivered ([0x02, 0x30, 0x00] ++ [0x8F, 0x3B, 0x83, 0x23]) ++ [] ∧
      lowBits s.bcount.toNat s.bcache ++ sourceBits (delivered [0x02, 0x30, 0x00]) =
        codewordBits cwsP3 ++ [false, false, false] ∧
      roomFor s.pcmRoom ((s.flen.toNat - s.pos.toNat) * (s.nch.toNat * depthOf s)) none := by
  refine ⟨frameP3, ?_, by decide, codewordsFit_P3, rfl,
    by decide +kernel, .inl ⟨rfl, rfl⟩⟩
  unfold insideFrame
  decide

theorem test_witness_DecFrameInFrameEndIsVerify :
    ({ frame 10 1 1 [] with phase := .frameEnd, pos := 1 } : State).phase = .frameEnd := rfl

/-- A DEC_SAMPLE that leaves the frame open, that ends it, that fails, and that waits. -/
theorem test_witness_DecodingResumesWhereItLeftOff :
    ∃ s1 t1 s2 t2 s3 t3 s4 t4 : State,
      (s1.phase = .decoding ∧ s1.inFlight = none ∧ exec .decSample s1 = .next t1 ∧
        t1.inFlight = none ∧ t1.phase = .decoding) ∧
      (s2.phase = .decoding ∧ s2.inFlight = none ∧ exec .decSample s2 = .next t2 ∧
        t2.inFlight = none ∧ t2.phase = .frameEnd) ∧
      (s3.phase = .decoding ∧ s3.inFlight = none ∧ exec .decSample s3 = .next t3 ∧ t3.phase = .halt) ∧
      (s4.phase = .decoding ∧ s4.inFlight = none ∧ exec .decSample s4 = .next t4 ∧
        t4.inFlight = some (.sample (.unary 0))) := by
  obtain ⟨t1, h1, p1⟩ := exists_next_with (r := exec .decSample (frame 10 1 2 (source [0x02, 0x30])))
    (p := fun t => decide (t.inFlight = none ∧ t.phase = .decoding)) (by decide +kernel)
  obtain ⟨t2, h2, p2⟩ := exists_next_with (r := exec .decSample (frame 10 1 1 (source [0x02, 0x30])))
    (p := fun t => decide (t.inFlight = none ∧ t.phase = .frameEnd)) (by decide +kernel)
  obtain ⟨t3, h3, p3⟩ := exists_next_with (r := exec .decSample (frame 10 1 1 [.failure]))
    (p := fun t => decide (t.phase = .halt)) (by decide +kernel)
  obtain ⟨t4, h4, p4⟩ := exists_next_with (r := exec .decSample (frame 10 1 1 []))
    (p := fun t => decide (t.inFlight = some (.sample (.unary 0)))) (by decide +kernel)
  exact ⟨_, t1, _, t2, _, t3, _, t4, ⟨rfl, rfl, h1, of_decide_eq_true p1⟩, ⟨rfl, rfl, h2, of_decide_eq_true p2⟩,
    ⟨rfl, rfl, h3, of_decide_eq_true p3⟩, ⟨rfl, rfl, h4, of_decide_eq_true p4⟩⟩

/-- Two states that differ in cache, key and output only. -/
theorem test_witness_TheChecksumCannotSeeTheFilter :
    ∃ a b a' : State,
      b = { a with key := b.key, keymask := b.keymask, fmt := b.fmt, chan := b.chan, cache := b.cache, pcm := b.pcm } ∧
      (∀ c : Fin 6, b.chan[c].k0 = a.chan[c].k0 ∧ b.chan[c].k1 = a.chan[c].k1 ∧ b.chan[c].sum0 = a.chan[c].sum0 ∧
        b.chan[c].sum1 = a.chan[c].sum1) ∧
      a.phase = .decoding ∧ exec .decFrame a = .next a' ∧ a ≠ b := by
  obtain ⟨t, h⟩ := exists_next
    (r := exec .decFrame (frame 10 1 2 (source [0x02, 0x30, 0x00, 0x8F, 0x3B, 0x83, 0x23]))) (by decide +kernel)
  exact ⟨_, { frame 10 1 2 (source [0x02, 0x30, 0x00, 0x8F, 0x3B, 0x83, 0x23]) with
      fmt := 2, key := Vector.replicate 8 9, keymask := 0xFF, pcm := [1] }, t, rfl, fun _ => ⟨rfl, rfl, rfl, rfl⟩, rfl, h,
    by decide⟩

/-- An open frame with a DEC_FRAME waiting in its first codeword. -/
theorem inv_frame_waiting :
    Inv { frame 10 2 3 (source [0x20]) with inFlight := some (.frame (.unary 0)) } where
  nch_legal := by decide
  bps_legal := by decide
  fmt_legal := by decide
  key_masked := by decide
  bits_left := by decide
  cache_bits := by decide
  idle_aligned := by decide
  open_configured := by decide
  decoding_inside := by decide
  frame_end_at_end := by decide
  halt_reported := by decide
  one_result := by decide
  flight_fits := by
    intro j hj
    simp only [Option.some.injEq] at hj
    subst hj
    exact ⟨rfl, trivial⟩

theorem test_witness_StepKeepsTheInvariant : ∃ s t : State, Inv s ∧ step s = .next t := by
  obtain ⟨t, h⟩ := exists_next
    (r := step { frame 10 2 3 (source [0x20]) with inFlight := some (.frame (.unary 0)) }) (by decide +kernel)
  exact ⟨_, t, inv_frame_waiting, h⟩

theorem test_witness_InvariantStatesNeverStop : ∃ s : State, Inv s ∧ s.phase = .decoding :=
  ⟨_, inv_frame_waiting, rfl⟩

theorem test_witness_StepKeepsParametersBounded : ∃ s t : State, Inv s ∧ ParametersBounded s ∧ step s = .next t := by
  obtain ⟨t, h⟩ := exists_next
    (r := step { frame 10 2 3 (source [0x20]) with inFlight := some (.frame (.unary 0)) }) (by decide +kernel)
  refine ⟨_, t, inv_frame_waiting, ?_, h⟩
  unfold ParametersBounded
  decide

/-- FRAME_INIT supplied to a halted block. -/
theorem test_witness_OnlyResetsLeaveHalt :
    ∃ s t : State, s.phase = .halt ∧ s.inFlight = none ∧ noResetNext s ∧ step s = .next t := by
  refine ⟨{ halted with cmd := [0x60000000] }, _, rfl, rfl, ⟨rfl, ?_⟩, rfl⟩
  intro _ rest h
  simp at h

theorem test_witness_ErrorFlagsAreSticky :
    ∃ s t : State, noResetNext s ∧ step s = .next t ∧ s.errCmd = true ∧ s.errCfg = true ∧ s.errIo = true := by
  refine ⟨{ State.reset with cmd := [0xC0000000], errCmd := true, errCfg := true, errIo := true }, _, ⟨rfl, ?_⟩, rfl, rfl,
    rfl, rfl⟩
  intro _ rest h
  simp at h

theorem test_witness_OneCommandRaisesAtMostOneError :
    ∃ s t : State, exec (.cfgNch 7) s = .next t ∧ s.errCmd = false ∧ s.errCfg = false ∧ s.errIo = false :=
  ⟨State.reset, _, rfl, rfl, rfl, rfl⟩

theorem test_witness_ConfigurationIsFrozenWhileAFrameIsOpen :
    ∃ s t : State, (s.phase = .decoding ∨ s.phase = .frameEnd) ∧ noResetNext s ∧ step s = .next t := by
  refine ⟨{ frame 10 1 1 [] with cmd := [0x10000002] }, _, .inl rfl, ⟨rfl, ?_⟩, rfl⟩
  intro _ rest h
  simp at h

/-- The ends of the reserved ranges of indices, and the three ranges of `BPS`. -/
theorem test_witness_RegisterMapEntries :
    ((frame 10 1 1 []).inFlight = none ∧ (frame 10 1 1 []).chanValid = true) ∧
      ([0x0C, 0x0D, 0x0F, 0x16, 0x3F, 0x45, 0x47, 0x58, 0x5F, 0xE5, 0xFF, 0x100].map fun ix =>
        registerRead 0 ix (frame 10 1 1 [])) =
        [some 9, some 0, some 0, some 0, some 0, some 0, some 0, some 0, some 0, some 0, some 0, some 0] ∧
      registerRead 0 0x0C State.reset = some 0 ∧ registerRead 0 0x0C { State.reset with bps := 17 } = some 10 ∧
      registerRead 0 0x0C { State.reset with bps := 25 } = some 0 := by decide

theorem test_witness_KeyAndBitCacheAreNotReadable :
    ∃ s t u : State, t = { s with key := t.key, bcache := t.bcache, bcount := t.bcount } ∧ s ≠ t ∧ u.inFlight ≠ none :=
  ⟨State.reset, { State.reset with key := Vector.replicate 8 1, bcache := 5, bcount := 3 },
    { State.reset with inFlight := some (.raw 1 none) }, rfl, by decide, by decide⟩

end Sys2Proof.Tests
end

/-! Proofs of the statements about 00_scope.md: the step (R5), `sar` (R8) and `tdiv2` (R10). -/

namespace Sys2Proof.Proofs.Scope

open Sys2Proof Sys2Proof.Machine

/-! ## The signed readings of the arithmetic helpers -/

/-- A quotient of a word by a positive divisor fits a word again, so `ofInt` loses nothing on it. -/
theorem toInt_ofInt_ediv (v : Word) {m : Int} (hm : 0 < m) :
    (BitVec.ofInt Config.wordBits (v.toInt / m)).toInt = v.toInt / m := by
  have hlow : -2147483648 ≤ v.toInt := v.le_toInt
  have hhigh : v.toInt < 2147483648 := v.toInt_lt
  have hlowQuot : -2147483648 ≤ v.toInt / m := Int.le_ediv_of_mul_le hm (by omega)
  have hhighQuot : v.toInt / m < 2147483648 := Int.ediv_lt_of_lt_mul hm (by omega)
  exact BitVec.toInt_ofInt_eq_self (by decide) hlowQuot hhighQuot

/-- Below zero, truncation is the quotient of the absolute value with the sign put back (00_scope.md R10). -/
theorem tdiv_two_of_neg {x : Int} (hx : x < 0) : x.tdiv 2 = -(-x / 2) := by
  rw [← Int.tdiv_eq_ediv_of_nonneg (by omega), Int.neg_tdiv, neg_neg]

theorem toInt_tdiv2 (v : Word) : (tdiv2 v).toInt = v.toInt.tdiv 2 := by
  have hlow : -2147483648 ≤ v.toInt := v.le_toInt
  have hhigh : v.toInt < 2147483648 := v.toInt_lt
  obtain ⟨hlowQuot, hhighQuot⟩ : -2147483648 ≤ v.toInt.tdiv 2 ∧ v.toInt.tdiv 2 < 2147483648 := by
    rcases le_or_gt 0 v.toInt with hnonneg | hneg
    · rw [Int.tdiv_eq_ediv_of_nonneg hnonneg]; omega
    · rw [tdiv_two_of_neg hneg]; omega
  exact BitVec.toInt_ofInt_eq_self (by decide) hlowQuot hhighQuot

theorem toInt_sar_of_lt (v : Word) {n : Nat} (hn : n < 32) : (sar v n).toInt = v.toInt / 2 ^ n := by
  rw [sar, if_pos hn, toInt_ofInt_ediv v (by positivity)]

theorem toInt_sar_of_le (v : Word) {n : Nat} (hn : 32 ≤ n) :
    (sar v n).toInt = if v.toInt < 0 then -1 else 0 := by
  rw [sar, if_neg (Nat.not_lt.mpr hn)]
  split <;> rfl

/-- `tdiv2` is one above `sar(v, 1)` at the negative odd values and the same elsewhere (00_scope.md R10). -/
theorem toInt_tdiv2_eq_toInt_sar (v : Word) :
    (tdiv2 v).toInt = (sar v 1).toInt + if 0 ≤ v.toInt ∨ 2 ∣ v.toInt then 0 else 1 := by
  rw [toInt_tdiv2, toInt_sar_of_lt v (by decide), pow_one, Int.tdiv_eq_ediv]
  rfl

theorem tdiv2_ne_sar_iff (v : Word) : tdiv2 v ≠ sar v 1 ↔ v.toInt < 0 ∧ v.toInt % 2 = 1 := by
  rw [ne_eq, ← BitVec.toInt_inj, toInt_tdiv2_eq_toInt_sar]
  split <;> omega

/-! ## The statements -/

/-- Settles O30: below 32 the quotient fits a word; from 32 on `sar` is the sign. -/
theorem sarFloors : Obligations.SarFloors := fun v _ =>
  ⟨toInt_sar_of_lt v, toInt_sar_of_le v⟩

/-- Settles O31, by the signed reading of `tdiv2` and its distance from `sar`. -/
theorem tdiv2TruncatesTowardZero : Obligations.Tdiv2TruncatesTowardZero := by
  intro v
  refine ⟨fun hnonneg => ?_, fun hneg => ?_, tdiv2_ne_sar_iff v⟩
  · rw [toInt_tdiv2, Int.tdiv_eq_ediv_of_nonneg hnonneg]
  · rw [toInt_tdiv2, tdiv_two_of_neg hneg]

/-- Settles O5, by the law of the step. -/
theorem stepRunsTheDecodedCommand : Obligations.StepRunsTheDecodedCommand := by
  intro s w rest i hreset hflight hcmd hdecode
  exact step_command hreset hflight hcmd hdecode

end Sys2Proof.Proofs.Scope

/-! Proofs of the statements about 10_state.md: the invariant (R28 to R36), the bound on the code parameters (R27), the other
channels (R24), the error flags (R30), STATUS (R40) and the register map (R41, R42). The first part says once what each command
and each step can do. -/

namespace Sys2Proof.Proofs.BlockState

open Sys2Proof Sys2Proof.Machine

/-! ## What a piece of a command ensures -/

section
variable {π ρ α β : Type} {D D' : α → State → Prop} {W W' : π → State → Prop} {F F' : State → Prop} {r : Run π α}

/-- A run that completes ends in `D`, one that waits does so in `W`, one whose read failed stops in `F`; nothing is said of
one that names no channel (log entry 10). -/
def Ensures (r : Run π α) (D : α → State → Prop) (W : π → State → Prop) (F : State → Prop) : Prop :=
  match r with
  | .done a s => D a s
  | .wait p s => W p s
  | .failed s => F s
  | .stuck _ => True

@[simp] theorem ensures_done (a : α) (s : State) : Ensures (.done a s) D W F ↔ D a s := Iff.rfl
@[simp] theorem ensures_wait (p : π) (s : State) : Ensures (.wait p s) D W F ↔ W p s := Iff.rfl
@[simp] theorem ensures_failed (s : State) : Ensures (.failed s : Run π α) D W F ↔ F s := Iff.rfl
@[simp] theorem ensures_stuck (e : Fault) : Ensures (.stuck e : Run π α) D W F := trivial

theorem Ensures.mono (h : Ensures r D W F) (hD : ∀ a s, D a s → D' a s) (hW : ∀ p s, W p s → W' p s)
    (hF : ∀ s, F s → F' s) : Ensures r D' W' F' := by
  cases r with
  | done a s => exact hD a s h
  | wait p s => exact hW p s h
  | failed s => exact hF s h
  | stuck e => trivial

theorem Ensures.bind {E : β → State → Prop} {f : α → State → Run π β} (h : Ensures r D W F)
    (hf : ∀ a s, D a s → Ensures (f a s) E W F) : Ensures (r.bind f) E W F := by
  cases r with
  | done a s => exact hf a s h
  | wait p s => exact h
  | failed s => exact h
  | stuck e => trivial

theorem Ensures.mapWait {V : ρ → State → Prop} {g : π → ρ} (h : Ensures r D (fun p => V (g p)) F) :
    Ensures (r.mapWait g) D V F := by
  cases r with
  | done a s => exact h
  | wait p s => exact h
  | failed s => exact h
  | stuck e => trivial

/-- A command's next state, from what its run ensures. -/
theorem Ensures.next {Q : State → Prop} {r : Run Job Unit} {t : State}
    (h : Ensures r (fun _ => Q) (fun j s => Q { s with inFlight := some j }) Q) (ht : settle r = .next t) : Q t := by
  rcases settle_next ht with rfl | rfl | ⟨j, s, rfl, rfl⟩ <;> exact h

end

/-! ## Reading `IN` -/

/-- `BCACHE[BCOUNT-1:0]` are the unread bits, at most 7 of them, and nothing lies above them (10_state.md R36). -/
def BitCacheFits (s : State) : Prop := s.bcount.toNat ≤ 7 ∧ s.bcache.toNat < 2 ^ s.bcount.toNat

/-- `t` is `s` after reads of `IN`, bit by bit: the stream, its checksum and count and the bit cache may differ, and a bit
cache that fits still fits (20_memory.md R61, R63). -/
def BitsRead (s t : State) : Prop :=
  (∃ i c n x b, t = { s with inp := i, crc := c, count := n, bcache := x, bcount := b }) ∧
    (BitCacheFits s → BitCacheFits t)

/-- `t` is `s` after reads of `IN` byte by byte and emissions to `RAWOUT`: the bit cache is the same
(20_memory.md R61, R66). -/
def BytesMoved (s t : State) : Prop :=
  ∃ i c n o r, t = { s with inp := i, crc := c, count := n, rawOut := o, rawRoom := r }

/-- A read that failed in a state `R` describes (20_memory.md R61(c)). -/
def FailedAfter (R : State → Prop) (t : State) : Prop := ∃ m rest, R m ∧ t = raise .errIo { m with inp := rest }

theorem BitsRead.refl (s : State) : BitsRead s s := ⟨⟨_, _, _, _, _, rfl⟩, id⟩

theorem BytesMoved.refl (s : State) : BytesMoved s s := ⟨_, _, _, _, _, rfl⟩

theorem BytesMoved.trans {s t u : State} (h1 : BytesMoved s t) (h2 : BytesMoved t u) : BytesMoved s u := by
  obtain ⟨_, _, _, _, _, rfl⟩ := h1
  obtain ⟨_, _, _, _, _, rfl⟩ := h2
  exact ⟨_, _, _, _, _, rfl⟩

/-- A bit taken from a cache that fits, or from a byte just fetched, leaves a cache that fits (20_memory.md R63). -/
theorem nextBit_bitCacheFits {s t : State} {b : Bool} (hs : BitCacheFits s) (h : nextBit s = .got b t) :
    BitCacheFits t := by
  obtain ⟨hcount, hcache⟩ := hs
  by_cases h0 : s.bcount = 0
  · cases hi : s.inp with
    | nil => simp [nextBit_empty h0 hi] at h
    | cons x rest =>
      cases x with
      | failure => simp [nextBit_failing h0 hi] at h
      | byte c =>
        rw [nextBit_fetch h0 hi, Got.got.injEq] at h
        obtain ⟨-, rfl⟩ := h
        refine ⟨le_refl 7, ?_⟩
        have := c.isLt
        simp only [BitVec.toNat_ushiftRight, Nat.shiftRight_one]
        change c.toNat / 2 < 2 ^ 7
        omega
  · rw [nextBit_cached h0, Got.got.injEq] at h
    obtain ⟨-, rfl⟩ := h
    have hpred : s.bcount.toNat = (s.bcount - 1).toNat + 1 := by
      have : s.bcount.toNat ≠ 0 := fun e => h0 (BitVec.eq_of_toNat_eq e)
      bv_omega
    rw [hpred, pow_succ] at hcache
    refine ⟨by dsimp only; omega, ?_⟩
    simp only [BitVec.toNat_ushiftRight, Nat.shiftRight_one]
    omega

theorem BitsRead.nextBit {s m t : State} {b : Bool} (hs : BitsRead s m) (h : nextBit m = .got b t) : BitsRead s t := by
  obtain ⟨⟨_, _, _, _, _, rfl⟩, hfits⟩ := hs
  obtain ⟨-, -, bs, -, hframe⟩ := nextBit_got h
  exact ⟨⟨_, _, _, _, _, hframe⟩, fun h0 => nextBit_bitCacheFits (hfits h0) h⟩

theorem failedAfter_of_nextBit {R : State → Prop} {s t : State} (hs : R s) (h : nextBit s = .failed t) :
    FailedAfter R t := by
  obtain ⟨-, rest, -, rfl⟩ := nextBit_failed h
  exact ⟨s, rest, hs, rfl⟩

theorem BytesMoved.nextByte {s t : State} {b : Byte} (h : nextByte s = .got b t) : BytesMoved s t := by
  cases hi : s.inp with
  | nil => simp [nextByte_nil hi] at h
  | cons x rest =>
    cases x with
    | failure => simp [nextByte_failure hi] at h
    | byte c =>
      rw [nextByte_byte hi, Got.got.injEq] at h
      obtain ⟨-, rfl⟩ := h
      exact ⟨_, _, _, _, _, rfl⟩

theorem failedAfter_of_nextByte {R : State → Prop} {s t : State} (hs : R s) (h : nextByte s = .failed t) :
    FailedAfter R t := by
  cases hi : s.inp with
  | nil => simp [nextByte_nil hi] at h
  | cons x rest =>
    cases x with
    | byte c => simp [nextByte_byte hi] at h
    | failure =>
      rw [nextByte_failure hi, Got.failed.injEq] at h
      exact ⟨s, rest, hs, h.symm⟩

theorem BytesMoved.emitRaw {s t : State} {b : Byte} (h : emitRaw b s = some t) : BytesMoved s t := by
  obtain ⟨r, -, rfl⟩ := Option.map_eq_some_iff.mp h
  exact ⟨_, _, _, _, _, rfl⟩

/-! ## Decoding a value -/

/-- The place is in a read, not in the emission. -/
def Reads : Point → Prop
  | .emit _ => False
  | _ => True

/-- What every read of a codeword does, whatever the value (40_entropy_decoder.md R110, R111): bits are read; it waits
within a read; it fails after reads. -/
abbrev ReadsBits {α : Type} (s : State) (r : Run Point α) : Prop :=
  Ensures r (fun _ => BitsRead s) (fun p t => Reads p ∧ BitsRead s t) (FailedAfter (BitsRead s))

theorem readUnary_readsBits {s m : State} (hm : BitsRead s m) (n : Nat) (u : Word) :
    ReadsBits s (readUnary n u m) := by
  induction n generalizing u m with
  | zero => exact ⟨trivial, hm⟩
  | succ n ih =>
    cases hb : nextBit m with
    | notYet => simpa [readUnary, hb, Reads] using hm
    | failed t => simpa [readUnary, hb] using failedAfter_of_nextBit hm hb
    | got b t =>
      cases b with
      | false => rw [readUnary_got_end hb]; exact hm.nextBit hb
      | true => rw [readUnary_got_run hb]; exact ih (hm.nextBit hb) (u + 1)

theorem readBits_readsBits {s m : State} (hm : BitsRead s m) (level : Level) (a : Word) (left i : Nat) (acc : Word) :
    ReadsBits s (readBits level a left i acc m) := by
  induction left generalizing i acc m with
  | zero => exact hm
  | succ left ih =>
    rw [readBits]
    cases hb : nextBit m with
    | notYet => exact ⟨trivial, hm⟩
    | failed t => exact failedAfter_of_nextBit hm hb
    | got b t => exact ih (hm.nextBit hb) _ _

theorem readSuffix_readsBits {s m : State} (hm : BitsRead s m) (level : Level) (a : Word) (left i : Nat) (acc : Word) :
    ReadsBits s (readSuffix level a left i acc m) :=
  (readBits_readsBits hm level a left i acc).bind fun _ _ h => h

theorem decodeValue_readsBits (ch : Channel) (u : Word) (s : State) : ReadsBits s (decodeValue ch u s) := by
  refine (readUnary_readsBits (.refl s) _ u).bind fun u' m hm => ?_
  rw [afterUnary_eq]
  split
  · exact readSuffix_readsBits hm ..
  · exact readSuffix_readsBits hm ..

/-! ## The body of DEC_SAMPLE -/

/-- `t` is `s`, which stands at the place `p` of the last channel's body, with the time-step ready to be emitted: its last
value decoded, or already waiting in the emission (45_frame_sequencing.md R166). -/
inductive StepReady : Point → State → State → Prop
  | decoded {p : Point} {s m : State} (v : Level × Word) (hplace : Reads p) (hread : BitsRead s m)
      (hlast : m.nch.toNat ≤ m.ch.toNat + 1) : StepReady p s (decorrelateCache (storeSample v m))
  | waiting (rest : List Byte) (s : State) : StepReady (.emit rest) s s

/-- `t` is `s` after the rest of a DEC_SAMPLE body from the place `p` (45_frame_sequencing.md R166). -/
inductive BodyDone : Point → State → State → Prop
  | nextChannel {p : Point} {s m : State} (v : Level × Word) (hplace : Reads p) (hread : BitsRead s m)
      (hmore : m.ch.toNat + 1 < m.nch.toNat) : BodyDone p s { storeSample v m with ch := m.ch + 1 }
  | timeStep {p : Point} {s m : State} (bytes : List Byte) (room : Option Nat) (hready : StepReady p s m) :
      BodyDone p s (closeTimeStep { m with pcm := bytes, pcmRoom := room })

/-- `t` is `s` after a DEC_SAMPLE body from the place `p` came to wait at the place `q` (20_memory.md R61(b), R66). -/
inductive BodyWaits : Point → State → Point → State → Prop
  | reading {p q : Point} {s t : State} (hplace : Reads p) (hthere : Reads q) (hread : BitsRead s t) : BodyWaits p s q t
  | emitting {p : Point} {s m : State} (bytes rest : List Byte) (room : Option Nat) (hready : StepReady p s m) :
      BodyWaits p s (.emit rest) { m with pcm := bytes, pcmRoom := room }

/-- What the rest of a body can do, its completion, its waits and its failure (45_frame_sequencing.md R166, R172). -/
abbrev BodyRuns (p : Point) (s : State) (r : Run Point Unit) : Prop :=
  Ensures r (fun _ => BodyDone p s) (BodyWaits p s) (FailedAfter (BitsRead s))

theorem emitAndClose_runs {p : Point} {s m : State} (hready : StepReady p s m) (bytes : List Byte) :
    BodyRuns p s (emitAndClose bytes m) := by
  rcases emitAndClose_cases bytes m with ⟨room, h⟩ | ⟨sent, b, rest, -, h⟩
  · rw [h]; exact .timeStep _ _ hready
  · rw [h]; exact .emitting _ _ _ hready

theorem afterValue_runs {p : Point} {s m : State} (hplace : Reads p) (hread : BitsRead s m) (v : Level × Word) :
    BodyRuns p s (afterValue v m) := by
  rcases afterValue_cases v m with ⟨hmore, h⟩ | ⟨hlast, room, h⟩ | ⟨hlast, sent, b, rest, -, h⟩
  · rw [h]; exact .nextChannel v hplace hread hmore
  · rw [h]; exact .timeStep _ _ (.decoded v hplace hread hlast)
  · rw [h]; exact .emitting _ _ _ (.decoded v hplace hread hlast)

theorem ReadsBits.body {p : Point} {s : State} {r : Run Point (Level × Word)} (hplace : Reads p) (h : ReadsBits s r) :
    BodyRuns p s (r.bind afterValue) :=
  (h.mono (fun _ _ hread => hread) (fun _ _ ⟨hthere, hread⟩ => .reading hplace hthere hread) fun _ hfail => hfail).bind
    fun v _ hread => afterValue_runs hplace hread v

/-- The body of DEC_SAMPLE from any place. -/
theorem decBody_runs (p : Point) (s : State) : BodyRuns p s (decBody p s) := by
  unfold decBody
  split
  · cases p with
    | unary u => exact (decodeValue_readsBits _ u s).body trivial
    | suffix level a left i acc => exact (readSuffix_readsBits (.refl s) level a left i acc).body trivial
    | emit rest => exact emitAndClose_runs (.waiting rest s) rest
  · trivial

/-! ## VERIFY and RAW -/

/-- The trailer reads (41_checksum.md R132): `left` more bytes for the `got` there are. -/
theorem readTrailer_movesBytes {s m : State} (hm : BytesMoved s m) (sum : Word) {left : Nat} {got : List Byte}
    (hleft : left = 4 - got.length) :
    Ensures (readTrailer sum left got m) (fun _ => BytesMoved s)
      (fun j t => (∃ more, j = .verify sum more ∧ more.length ≤ 3) ∧ BytesMoved s t) (FailedAfter (BytesMoved s)) := by
  induction left generalizing got m with
  | zero => exact hm
  | succ left ih =>
    rw [readTrailer]
    cases hb : nextByte m with
    | notYet => exact ⟨⟨got, rfl, by omega⟩, hm⟩
    | failed t => exact failedAfter_of_nextByte hm hb
    | got b t => exact ih (hm.trans (.nextByte hb)) (by rw [List.length_append, List.length_singleton]; omega)

/-- VERIFY from any place (41_checksum.md R132). -/
theorem verifyFrom_runs (sum : Word) (got : List Byte) (s : State) :
    Ensures (verifyFrom sum got s) (fun _ t => ∃ m stored, BytesMoved s m ∧ t = concludeVerify sum stored m)
      (fun j t => (∃ more, j = .verify sum more ∧ more.length ≤ 3) ∧ BytesMoved s t) (FailedAfter (BytesMoved s)) :=
  (readTrailer_movesBytes (.refl s) sum rfl).bind fun _ m hm => ⟨m, _, hm, rfl⟩

/-- What RAW does from any place (46_config_control.md R189). -/
abbrev PassesBytes (s : State) (r : Run Job Unit) : Prop :=
  Ensures r (fun _ => BytesMoved s) (fun j t => (∃ left held, j = .raw left held) ∧ BytesMoved s t)
    (FailedAfter (BytesMoved s))

theorem passBytes_runs {s m : State} (hm : BytesMoved s m) (left : Nat) : PassesBytes s (passBytes left m) := by
  induction left generalizing m with
  | zero => exact hm
  | succ left ih =>
    rw [passBytes]
    cases hb : nextByte m with
    | notYet => exact ⟨⟨_, _, rfl⟩, hm⟩
    | failed t => exact failedAfter_of_nextByte hm hb
    | got b t =>
      have ht : BytesMoved s t := hm.trans (.nextByte hb)
      cases he : emitRaw b t with
      | none => simpa [he] using ht
      | some u => simpa [he] using ih (ht.trans (.emitRaw he))

theorem rawFrom_runs (left : Nat) (held : Option Byte) (s : State) : PassesBytes s (rawFrom left held s) := by
  cases held with
  | none => exact passBytes_runs (.refl s) left
  | some b =>
    rw [rawFrom]
    cases he : emitRaw b s with
    | none => exact ⟨⟨_, _, rfl⟩, .refl s⟩
    | some u => exact passBytes_runs (.emitRaw he) left

/-! ## The decode loop -/

/-- The place of a decode command in flight. -/
def decodePlace : Job → Option Point
  | .sample p | .steps _ p | .frame p => some p
  | .verify _ _ | .raw _ _ => none

/-- What makes `Q` hold after every decode command: `I` between its bodies, `W` at a place in one. -/
structure DecodeInvariant (Q I : State → Prop) (W : Point → State → Prop) : Prop where
  /-- A body leads from any place to `I`, to a wait in `W`, or to the end of the command. -/
  body : ∀ p s, W p s → Ensures (decBody p s) (fun _ => I) W Q
  /-- A new body begins. -/
  start : ∀ s, I s → s.phase = .decoding → W (.unary 0) s
  /-- The command ends between two bodies. -/
  done : ∀ s, I s → Q s
  /-- It ends at a wait. -/
  wait : ∀ j p s, decodePlace j = some p → W p s → Q { s with inFlight := some j }
  /-- The VERIFY of a DEC_FRAME follows the last body. -/
  verify : ∀ sum s, I s → s.phase ≠ .decoding →
    Ensures (verifyFrom sum [] s) (fun _ => Q) (fun j t => Q { t with inFlight := some j }) Q

section
variable {Q I : State → Prop} {W : Point → State → Prop}

/-- What the decode loop ensures; unbounded, it goes on to the end of the frame (45_frame_sequencing.md R167, R168). -/
abbrev LoopRuns (Q I : State → Prop) (W : Point → State → Prop) (bound : Option Nat)
    (r : Run (Option Nat × Point) Unit) : Prop :=
  Ensures r (fun _ t => I t ∧ (bound = none → t.phase ≠ .decoding)) (fun p => W p.2) Q

theorem DecodeInvariant.decRun (hinv : DecodeInvariant Q I W) (bound : Option Nat) {s : State} (hs : I s) :
    LoopRuns Q I W bound (decRun bound s) := by
  induction hn : bitsAvail s using Nat.strong_induction_on generalizing bound s with
  | _ n ih =>
    rw [decRun_unroll]
    split
    · next hstop => exact ⟨hs, fun hnone => by simpa [hnone] using hstop⟩
    · next hgo =>
      have hphase : s.phase = .decoding := by simpa using fun h => hgo (.inr h)
      have hbody := hinv.body _ s (hinv.start s hs hphase)
      unfold decResume
      cases hb : decBody (.unary 0) s with
      | wait p t => rw [hb] at hbody; exact hbody
      | failed t => rw [hb] at hbody; exact hbody
      | stuck e => trivial
      | done a t =>
        rw [hb] at hbody
        refine (ih _ (hn ▸ decBody_done_bitsAvail hb) (countStep bound t) hbody rfl).mono ?_ (fun _ _ h => h) fun _ h => h
        rintro _ u ⟨hu, hend⟩
        exact ⟨hu, fun hnone => hend (by simp [hnone, countStep])⟩

theorem DecodeInvariant.decResume (hinv : DecodeInvariant Q I W) (bound : Option Nat) {p : Point} {s : State} (hs : W p s) :
    LoopRuns Q I W bound (decResume bound p s) := by
  refine Ensures.bind (D := fun _ => I) (.mapWait (hinv.body p s hs)) fun _ t ht => ?_
  refine (hinv.decRun (countStep bound t) ht).mono ?_ (fun _ _ h => h) fun _ h => h
  rintro _ u ⟨hu, hend⟩
  exact ⟨hu, fun hnone => hend (by simp [hnone, countStep])⟩

theorem decodePlace_loopJob (p : Option Nat × Point) : decodePlace (loopJob p) = some p.2 := by
  obtain ⟨_ | _, _⟩ := p <;> rfl

/-- The rest of a decode command, from any place. -/
theorem DecodeInvariant.resume (hinv : DecodeInvariant Q I W) {j : Job} {p : Point} (hplace : decodePlace j = some p)
    {s t : State} (hs : W p s) (h : resume j s = .next t) : Q t := by
  have hloop : ∀ q u, W q.2 u → Q { u with inFlight := some (loopJob q) } := fun q u =>
    hinv.wait _ _ u (decodePlace_loopJob q)
  cases j with
  | verify sum got => cases hplace
  | raw left held => cases hplace
  | sample q =>
    cases hplace
    exact Ensures.next (.mapWait ((hinv.body p s hs).mono (fun _ => hinv.done) (fun _ u => hinv.wait _ _ u rfl)
      fun _ hu => hu)) h
  | steps left q =>
    cases hplace
    exact Ensures.next (.mapWait ((hinv.decResume (some left) hs).mono (fun _ u hu => hinv.done u hu.1) hloop
      fun _ hu => hu)) h
  | frame q =>
    cases hplace
    refine Ensures.next (.bind (.mapWait ((hinv.decResume none hs).mono (fun _ _ hu => hu) hloop fun _ hu => hu)) ?_) h
    exact fun _ u hu => hinv.verify _ u hu.1 (hu.2 rfl)

end

/-! ## What a step can do -/

/-- What a command that neither reads nor emits nor resets does to the block (46_config_control.md R180 to R187, R190). -/
inductive Immediate (s : State) : State → Prop
  | nothing : Immediate s s
  | refused : Immediate s (raise .errCmd s)
  | misconfigured : Immediate s (raise .errCfg s)
  | channels {n : Nat} (hidle : s.phase = .idle) (hlegal : legalNch n = true) :
      Immediate s { s with nch := BitVec.ofNat 4 n }
  | width {b : Nat} (hidle : s.phase = .idle) (hlegal : legalBps b = true) :
      Immediate s { s with bps := BitVec.ofNat 6 b }
  | plain (hidle : s.phase = .idle) : Immediate s (setPlain s)
  | encrypted (hidle : s.phase = .idle) : Immediate s { s with fmt := 2 }
  | keyByte (i d : Nat) (hidle : s.phase = .idle) : Immediate s (setKey i d s)
  | length {n : Nat} (hidle : s.phase = .idle) (hlegal : legalFlen n = true) :
      Immediate s { s with flen := BitVec.ofNat Config.flenBits n }
  | opened (hrunning : s.phase ≠ .halt) (hcomplete : configComplete s = true) : Immediate s (openFrame s)
  | restarted (hrunning : s.phase ≠ .halt) : Immediate s (restartReader s)

theorem prologue_next {i : Instr} {s t : State} {own : Result} (h : prologue i s own = .next t) :
    t = raise .errCmd s ∨ (accepts i s.phase = true ∧ own = .next t) := by
  rcases prologue_cases i s own with ⟨hacc, he⟩ | ⟨-, he⟩
  · exact .inr ⟨hacc, he ▸ h⟩
  · exact .inl (by simpa [he] using h.symm)

/-- What a command does when it resets nothing: an immediate change, or what the same command in flight at its first place
would do, in a phase where it can be in flight. -/
abbrev Acts (s t : State) : Prop := Immediate s t ∨ ∃ j, jobFits j s ∧ resume j s = .next t

theorem Immediate.acts {s u t : State} (h : Immediate s u) (hu : (.next u : Result) = .next t) : Acts s t :=
  .inl (Host.Outcome.next.inj hu ▸ h)

/-- A configuration command with its operand's test (46_config_control.md R181 to R185). -/
theorem configure_acts {c : Prop} [Decidable c] {s u t : State} (hlegal : c → Immediate s u)
    (h : (if c then .next u else .next (raise .errCfg s) : Result) = .next t) : Acts s t := by
  split at h
  · next hc => exact (hlegal hc).acts h
  · exact Immediate.misconfigured.acts h

theorem decStep_acts {n : Nat} {s t : State} (hphase : s.phase = .decoding)
    (h : settle ((decRun (some n) s).mapWait loopJob) = .next t) : Acts s t := by
  rw [decRun_unroll] at h
  split at h
  · exact Immediate.nothing.acts h
  · exact .inr ⟨.steps n (.unary 0), ⟨hphase, trivial⟩, h⟩

theorem decFrame_acts {s t : State} (hphase : s.phase = .decoding ∨ s.phase = .frameEnd)
    (h : settle (thenVerify (decRun none s)) = .next t) : Acts s t := by
  rw [decRun_unroll] at h
  rcases hphase with hdecoding | hend
  · rw [if_neg (by simp [hdecoding])] at h
    exact .inr ⟨.frame (.unary 0), ⟨hdecoding, trivial⟩, h⟩
  · rw [if_pos (.inr (by simp [hend]))] at h
    exact .inr ⟨.verify _ [], ⟨.inr hend, by decide⟩, h⟩

/-- What each command does once the prologue has let it through (46_config_control.md R190 step 5). -/
def ownRule (i : Instr) (s : State) : Result :=
  match i with
  | .nop => .next s
  | .cfgNch n => if legalNch n then .next { s with nch := BitVec.ofNat 4 n } else .next (raise .errCfg s)
  | .cfgBps b => if legalBps b then .next { s with bps := BitVec.ofNat 6 b } else .next (raise .errCfg s)
  | .cfgFmt f =>
    if f = 1 then .next (setPlain s) else if f = 2 then .next { s with fmt := 2 } else .next (raise .errCfg s)
  | .cfgKey k d => .next (setKey k d s)
  | .cfgFlen n => if legalFlen n then .next { s with flen := BitVec.ofNat Config.flenBits n } else .next (raise .errCfg s)
  | .frameInit => if configComplete s then .next (openFrame s) else .next (raise .errCfg s)
  | .decSample => resume (.sample (.unary 0)) s
  | .decStep n => settle ((decRun (some n) s).mapWait loopJob)
  | .decFrame => settle (thenVerify (decRun none s))
  | .verify => resume (.verify (s.crc ^^^ config.crcXorOut) []) s
  | .raw n => resume (.raw n none) s
  | .rdReset => .next (restartReader s)
  | .softReset => .next (resetBlock s)

theorem exec_eq_prologue (i : Instr) (s : State) : exec i s = prologue i s (ownRule i s) := by
  cases i <;> rfl

theorem ownRule_acts {i : Instr} {s t : State} (hreset : i ≠ .softReset) (hphase : accepts i s.phase = true)
    (h : ownRule i s = .next t) : Acts s t := by
  cases i <;> simp only [accepts, Bool.or_eq_true, bne_iff_ne, beq_iff_eq] at hphase
  case nop => exact Immediate.nothing.acts h
  case cfgNch n => exact configure_acts (.channels hphase) h
  case cfgBps b => exact configure_acts (.width hphase) h
  case cfgFmt f =>
    rw [ownRule] at h
    split at h
    · exact (Immediate.plain hphase).acts h
    · exact configure_acts (fun _ => .encrypted hphase) h
  case cfgKey k d => exact (Immediate.keyByte k d hphase).acts h
  case cfgFlen n => exact configure_acts (.length hphase) h
  case frameInit => exact configure_acts (.opened hphase) h
  case decSample => exact .inr ⟨.sample (.unary 0), ⟨hphase, trivial⟩, h⟩
  case decStep n => exact decStep_acts hphase h
  case decFrame => exact decFrame_acts hphase h
  case verify => exact .inr ⟨.verify _ [], ⟨hphase, by decide⟩, h⟩
  case raw n => exact .inr ⟨.raw n none, hphase, h⟩
  case rdReset => exact (Immediate.restarted hphase).acts h
  case softReset => exact absurd rfl hreset

/-- A command from its start, its prologue included (46_config_control.md R190). -/
theorem exec_cases {i : Instr} {s t : State} (h : exec i s = .next t) :
    (i = .softReset ∧ t = resetBlock s) ∨ Acts s t := by
  rw [exec_eq_prologue] at h
  by_cases hreset : i = .softReset
  · subst hreset
    exact .inl ⟨rfl, by simpa [prologue, ownRule] using h.symm⟩
  · rcases prologue_next h with rfl | ⟨hphase, hown⟩
    · exact .inr (.inl .refused)
    · exact .inr (ownRule_acts hreset hphase hown)

theorem formatZ_eq_command {w : Word} {i j : Instr} : formatZ w i = .command j ↔ slice w 27 0 = 0 ∧ i = j := by
  unfold formatZ
  split <;> simp [*]

theorem formatN_eq_command {k : Nat} {w : Word} {mk : Nat → Instr} {j : Instr} :
    formatN k w mk = .command j ↔ slice w 27 k = 0 ∧ mk (slice w (k - 1) 0) = j := by
  unfold formatN
  split <;> simp [*]

theorem formatKB_eq_command {w : Word} {mk : Nat → Nat → Instr} {j : Instr} :
    formatKB w mk = .command j ↔ slice w 27 11 = 0 ∧ mk (slice w 10 8) (slice w 7 0) = j := by
  unfold formatKB
  split <;> simp [*]

/-- A word is its opcode and its operand field (30_encoding.md R80). -/
theorem toNat_eq_of_slices (w : Word) : w.toNat = slice w 31 28 * 2 ^ 28 + slice w 27 0 := by
  have hw : w.toNat < 2 ^ 32 := w.isLt
  simp only [slice]
  omega

/-- SOFT_RESET is one word (30_encoding.md R82). -/
theorem decode_softReset {w : Word} (h : decode w = .command .softReset) : w = 0xF0000000 := by
  unfold decode at h
  split at h
  all_goals simp only [formatZ_eq_command, formatN_eq_command, formatKB_eq_command, reduceCtorEq, and_false, and_true] at h
  next hopcode =>
    apply BitVec.eq_of_toNat_eq
    rw [toNat_eq_of_slices, hopcode, h]
    rfl

/-- What a step that answers a next state did. -/
inductive StepEffect (s t : State) : Prop
  | reset (hreset : s.resetReq = true) (ht : t = hardwareReset s)
  | idle (ht : t = s)
  | resumed (j : Job) (hflight : s.inFlight = some j) (h : resume j { s with inFlight := none } = .next t)
  | changed (rest : List Word) (hflight : s.inFlight = none) (h : Immediate { s with cmd := rest } t)
  | softReset (rest : List Word) (hflight : s.inFlight = none) (hcmd : s.cmd = 0xF0000000 :: rest)
      (ht : t = resetBlock { s with cmd := rest })
  | started (rest : List Word) (j : Job) (hflight : s.inFlight = none) (hfits : jobFits j s)
      (h : resume j { s with cmd := rest } = .next t)

theorem step_effect {s t : State} (h : step s = .next t) : StepEffect s t := by
  unfold step at h
  split at h
  · next hreset => exact .reset hreset (by simpa using h.symm)
  · cases hflight : s.inFlight with
    | some j => exact .resumed j hflight (by simpa only [hflight] using h)
    | none =>
      simp only [hflight] at h
      cases hcmd : s.cmd with
      | nil => exact .idle (by simpa [fetchCommand, hcmd] using h.symm)
      | cons w rest =>
        simp only [fetchCommand, hcmd] at h
        cases hdecode : decode w with
        | illegal why =>
          simp only [hdecode, Host.Outcome.next.injEq] at h
          exact .changed rest hflight (h ▸ .refused)
        | command i =>
          simp only [hdecode] at h
          rcases exec_cases h with ⟨rfl, ht⟩ | hchange | ⟨j, hfits, hj⟩
          · exact .softReset rest hflight (decode_softReset hdecode ▸ hcmd) ht
          · exact .changed rest hflight hchange
          · exact .started rest j hflight hfits hj

/-! ## STATUS and the register map -/

theorem phase_code_lt (p : Phase) : p.code < 4 := by
  cases p <;> decide

/-- STATUS is the sum of its fields, none of which reaches into the next (10_state.md R40). -/
theorem statusWord_fields (s : State) :
    (statusWord s).toNat % 4 = s.phase.code ∧
    (statusWord s).toNat / 2 ^ 2 % 2 = s.crcOk.toNat ∧ (statusWord s).toNat / 2 ^ 3 % 2 = s.crcErr.toNat ∧
    (statusWord s).toNat / 2 ^ 4 % 2 = s.errCmd.toNat ∧ (statusWord s).toNat / 2 ^ 5 % 2 = s.errCfg.toNat ∧
    (statusWord s).toNat / 2 ^ 6 % 2 = s.errIo.toNat ∧ (statusWord s).toNat / 2 ^ 7 % 2 = (keyOk s).toNat ∧
    (statusWord s).toNat < 2 ^ 8 := by
  have hphase := phase_code_lt s.phase
  have hok := s.crcOk.toNat_lt
  have herr := s.crcErr.toNat_lt
  have hcmd := s.errCmd.toNat_lt
  have hcfg := s.errCfg.toNat_lt
  have hio := s.errIo.toNat_lt
  have hkey := (keyOk s).toNat_lt
  simp only [statusWord, BitVec.toNat_ofNat, Config.wordBits]
  omega

/-- A bit of a word, from the word's quotient. -/
theorem getLsbD_of_div_mod {w : Word} {i : Nat} {b : Bool} (h : w.toNat / 2 ^ i % 2 = b.toNat) : w.getLsbD i = b := by
  rw [← BitVec.testBit_toNat, Nat.testBit_eq_decide_div_mod_eq, h]
  cases b <;> rfl

theorem registerRead_idle {s : State} (h : s.inFlight = none) (serial ix : Nat) :
    registerRead serial ix s = some (registerWord serial ix s) := if_pos h

theorem channelAt_eq (s : State) (c : Fin 6) : channelAt s c.val = s.chan[c] := by
  simp [channelAt]

/-- The block of the map that belongs to channel `c` (10_state.md R41). -/
theorem registerWord_channel (serial : Nat) (s : State) (c : Fin 6) {off : Nat} (hoff : off < 0x20) :
    registerWord serial (0x40 + 0x20 * c.val + off) s =
      (channelWord s.chan[c] off).elim 0 (unspecifiedUntilInit serial (0x40 + 0x20 * c.val + off) s) := by
  have hblock : (0x40 + 0x20 * c.val + off - 0x40) / 0x20 = c.val := by omega
  have hoffset : (0x40 + 0x20 * c.val + off - 0x40) % 0x20 = off := by omega
  simp (disch := omega) only [registerWord, if_neg, if_pos, hblock, hoffset, channelAt_eq]
  cases channelWord s.chan[c] off <;> rfl

/-- An element of a channel's block, once FRAME_INIT has written it (10_state.md R42). -/
theorem registerWord_element {s : State} (hvalid : s.chanValid = true) (serial : Nat) (c : Fin 6) {off : Nat} {v : Word}
    (hoff : off < 0x20) (h : channelWord s.chan[c] off = some v) :
    registerWord serial (0x40 + 0x20 * c.val + off) s = v := by
  rw [registerWord_channel serial s c hoff, h]
  exact if_pos hvalid

theorem channelWord_coef (ch : Channel) (i : Fin 8) : channelWord ch (0x08 + i.val) = some ch.coef[i] := by
  simp (disch := omega) only [channelWord, if_neg, if_pos, Nat.add_sub_cancel_left]
  simp

theorem channelWord_hist (ch : Channel) (i : Fin 8) : channelWord ch (0x10 + i.val) = some ch.hist[i] := by
  simp (disch := omega) only [channelWord, if_neg, if_pos, Nat.add_sub_cancel_left]
  simp

theorem channelWord_reserved (ch : Channel) {off : Nat} (h : (0x05 ≤ off ∧ off ≤ 0x07) ∨ (0x18 ≤ off ∧ off ≤ 0x1F)) :
    channelWord ch off = none := by
  rcases h with hlow | hhigh
  · simp (disch := omega) only [channelWord, if_neg, if_pos]
  · simp (disch := omega) only [channelWord, if_neg]

theorem registerWord_cache {s : State} (hvalid : s.chanValid = true) (serial : Nat) (c : Fin 6) :
    registerWord serial (0x10 + c.val) s = s.cache[c] := by
  simp (disch := omega) only [registerWord, if_neg, if_pos, Nat.add_sub_cancel_left]
  simp [unspecifiedUntilInit, hvalid, cacheAt]

theorem registerWord_reserved (serial : Nat) (s : State) {ix : Nat}
    (h : (0x0D ≤ ix ∧ ix ≤ 0x0F) ∨ (0x16 ≤ ix ∧ ix ≤ 0x3F) ∨ 0x100 ≤ ix) : registerWord serial ix s = 0 := by
  rcases h with hglobal | hmiddle | htop
  · simp (disch := omega) only [registerWord, if_neg, if_pos]
  · simp (disch := omega) only [registerWord, if_neg, if_pos]
  · simp (disch := omega) only [registerWord, if_neg]

theorem legalBps_iff (b : Nat) : legalBps b = true ↔ 16 ≤ b ∧ b ≤ 24 := by
  rw [legalBps, Bool.and_eq_true, decide_eq_true_iff, decide_eq_true_iff]
  rfl

/-- The `SHIFT` entry of the map (10_state.md R21, R41). -/
theorem registerWord_shift (serial : Nat) (s : State) :
    registerWord serial 0x0C s = if legalBps s.bps.toNat then BitVec.ofNat 32 (shiftByDepth ((s.bps.toNat + 7) / 8)) else 0 :=
  rfl

/-- Settles O59, entry by entry of the map. -/
theorem registerMapEntries : Obligations.RegisterMapEntries := by
  intro s serial hflight
  simp only [registerRead_idle hflight, Option.some.injEq, BitVec.ofNat_toNat]
  refine ⟨rfl, rfl, rfl, rfl, rfl, rfl, rfl, rfl, rfl, rfl, rfl, rfl, fun h => ?_, fun hlow hhigh => ?_, fun h => ?_,
    fun hvalid c => ?_, fun c off h => ?_, fun ix h => registerWord_reserved serial s h⟩
  · rw [registerWord_shift, if_pos ((legalBps_iff _).mpr (by omega)), h]
    rfl
  · rw [registerWord_shift, if_pos ((legalBps_iff _).mpr ⟨by omega, hhigh⟩),
      show (s.bps.toNat + 7) / 8 = 3 by omega]
    rfl
  · have hillegal : ¬ legalBps s.bps.toNat = true := by rw [legalBps_iff]; omega
    rw [registerWord_shift, if_neg hillegal]
  · have helement {off : Nat} {v : Word} := registerWord_element hvalid serial c (off := off) (v := v)
    refine ⟨registerWord_cache hvalid serial c, helement (by decide) rfl, helement (by decide) rfl,
      helement (by decide) rfl, helement (by decide) rfl, helement (by decide) rfl, fun i => ⟨?_, ?_⟩⟩
    · rw [Nat.add_assoc]
      exact helement (by omega) (channelWord_coef _ i)
    · rw [Nat.add_assoc]
      exact helement (by omega) (channelWord_hist _ i)
  · rw [registerWord_channel serial s c (by omega), channelWord_reserved _ h]
    rfl

/-- Settles O58, field by field of STATUS. -/
theorem statusLayout : Obligations.StatusLayout := by
  intro s
  obtain ⟨hphase, hok, herr, hcmd, hcfg, hio, hkey, hhigh⟩ := statusWord_fields s
  refine ⟨?_, getLsbD_of_div_mod hok, getLsbD_of_div_mod herr, getLsbD_of_div_mod hcmd, getLsbD_of_div_mod hcfg,
    getLsbD_of_div_mod hio, getLsbD_of_div_mod (hkey.trans ?_), ?_⟩
  · simp only [slice, pow_zero, Nat.div_one]
    exact hphase.trans (by cases s.phase <;> rfl)
  · rfl
  · rw [slice, Nat.div_eq_of_lt hhigh, Nat.zero_mod]

/-- Settles O60: no entry of the map reads the key or the bit cache, and a read is answered only with nothing in flight. -/
theorem keyAndBitCacheAreNotReadable : Obligations.KeyAndBitCacheAreNotReadable := by
  intro s t serial ix
  refine ⟨fun h => ?_, fun hflight => if_neg hflight⟩
  rw [h]
  rfl

/-! ## The error flags -/

/-- No error flag set in `s` is clear in `t` (10_state.md R30). -/
def FlagsKept (s t : State) : Prop :=
  (s.errCmd = true → t.errCmd = true) ∧ (s.errCfg = true → t.errCfg = true) ∧ (s.errIo = true → t.errIo = true)

theorem FlagsKept.refl (s : State) : FlagsKept s s := ⟨id, id, id⟩

theorem FlagsKept.trans {s t u : State} (h1 : FlagsKept s t) (h2 : FlagsKept t u) : FlagsKept s u := by
  obtain ⟨hcmd, hcfg, hio⟩ := h1
  obtain ⟨hcmd', hcfg', hio'⟩ := h2
  exact ⟨hcmd' ∘ hcmd, hcfg' ∘ hcfg, hio' ∘ hio⟩

theorem BitsRead.flagsKept {s t : State} (h : BitsRead s t) : FlagsKept s t := by
  obtain ⟨⟨_, _, _, _, _, rfl⟩, -⟩ := h
  exact ⟨id, id, id⟩

theorem BytesMoved.flagsKept {s t : State} (h : BytesMoved s t) : FlagsKept s t := by
  obtain ⟨_, _, _, _, _, rfl⟩ := h
  exact ⟨id, id, id⟩

theorem FailedAfter.flagsKept {s t : State} {R : State → Prop} (h : FailedAfter R t) (hR : ∀ m, R m → FlagsKept s m) :
    FlagsKept s t := by
  obtain ⟨m, rest, hm, rfl⟩ := h
  obtain ⟨hcmd, hcfg, -⟩ := hR m hm
  exact ⟨hcmd, hcfg, fun _ => rfl⟩

theorem StepReady.flagsKept {p : Point} {s t : State} (h : StepReady p s t) : FlagsKept s t := by
  cases h with
  | decoded v hplace hread hlast => exact hread.flagsKept
  | waiting rest => exact .refl s

theorem BodyDone.flagsKept {p : Point} {s t : State} (h : BodyDone p s t) : FlagsKept s t := by
  cases h with
  | nextChannel v hplace hread hmore => exact hread.flagsKept
  | timeStep bytes room hready => exact hready.flagsKept

theorem BodyWaits.flagsKept {p q : Point} {s t : State} (h : BodyWaits p s q t) : FlagsKept s t := by
  cases h with
  | reading hplace hthere hread => exact hread.flagsKept
  | emitting bytes rest room hready => exact hready.flagsKept

theorem Immediate.flagsKept {s t : State} (h : Immediate s t) : FlagsKept s t := by
  cases h with
  | refused => exact ⟨fun _ => rfl, id, id⟩
  | misconfigured => exact ⟨id, fun _ => rfl, id⟩
  | _ => exact ⟨id, id, id⟩

theorem verifyFrom_flagsKept {s m : State} (hm : FlagsKept s m) (sum : Word) (got : List Byte) :
    Ensures (verifyFrom sum got m) (fun _ => FlagsKept s) (fun j t => FlagsKept s { t with inFlight := some j })
      (FlagsKept s) := by
  refine (verifyFrom_runs sum got m).mono ?_ (fun _ _ h => hm.trans h.2.flagsKept) fun _ h =>
    h.flagsKept fun _ hmoved => hm.trans hmoved.flagsKept
  rintro _ _ ⟨u, stored, hmoved, rfl⟩
  exact hm.trans hmoved.flagsKept

theorem rawFrom_flagsKept (left : Nat) (held : Option Byte) (s : State) :
    Ensures (rawFrom left held s) (fun _ => FlagsKept s) (fun j t => FlagsKept s { t with inFlight := some j })
      (FlagsKept s) :=
  (rawFrom_runs left held s).mono (fun _ _ h => h.flagsKept) (fun _ _ h => h.2.flagsKept) fun _ h =>
    h.flagsKept fun _ hmoved => hmoved.flagsKept

theorem flagsKept_decodeInvariant (s : State) :
    DecodeInvariant (FlagsKept s) (FlagsKept s) fun _ => FlagsKept s where
  body p m hm := (decBody_runs p m).mono (fun _ _ h => hm.trans h.flagsKept) (fun _ _ h => hm.trans h.flagsKept)
    fun _ h => h.flagsKept fun _ hread => hm.trans hread.flagsKept
  start _ h _ := h
  done _ h := h
  wait _ _ _ _ h := h
  verify sum _ hm _ := verifyFrom_flagsKept hm sum []

/-- A command taken up again clears no error flag. -/
theorem resume_flagsKept {j : Job} {s t : State} (h : resume j s = .next t) : FlagsKept s t := by
  cases j with
  | verify sum got => exact Ensures.next (verifyFrom_flagsKept (.refl s) sum got) h
  | raw left held => exact Ensures.next (rawFrom_flagsKept left held s) h
  | _ => exact (flagsKept_decodeInvariant s).resume rfl (.refl s) h

/-- Settles O55: of what a step can do, only the two resets clear a flag. -/
theorem errorFlagsAreSticky : Obligations.ErrorFlagsAreSticky := by
  rintro s t ⟨hreset, hword⟩ h
  change FlagsKept s t
  cases step_effect h with
  | reset hreq => simp [hreset] at hreq
  | idle ht => exact ht ▸ .refl s
  | resumed j hflight hj => exact (resume_flagsKept hj :)
  | changed rest hflight hchange => exact hchange.flagsKept
  | softReset rest hflight hcmd => exact absurd hcmd (hword hflight rest)
  | started rest j hflight hfits hj => exact (resume_flagsKept hj :)

/-! ## The other channels -/

/-- Every channel of `s` but `CH` is the same in `t` (10_state.md R24). -/
def OthersKept (s t : State) : Prop := ∀ c : Fin 6, c.val ≠ s.ch.toNat → t.chan[c] = s.chan[c]

theorem storeSample_othersKept (v : Level × Word) (s : State) : OthersKept s (storeSample v s) := by
  intro c hc
  rw [storeSample_chan]
  exact Vector.getElem_setIfInBounds_ne c.isLt hc.symm

theorem StepReady.othersKept {p : Point} {s t : State} (h : StepReady p s t) : OthersKept s t := by
  cases h with
  | decoded v hplace hread hlast =>
    obtain ⟨⟨_, _, _, _, _, rfl⟩, -⟩ := hread
    exact storeSample_othersKept v _
  | waiting rest => exact fun _ _ => rfl

theorem BodyDone.othersKept {p : Point} {s t : State} (h : BodyDone p s t) : OthersKept s t := by
  cases h with
  | nextChannel v hplace hread hmore =>
    obtain ⟨⟨_, _, _, _, _, rfl⟩, -⟩ := hread
    exact storeSample_othersKept v _
  | timeStep bytes room hready => exact hready.othersKept

theorem BodyWaits.othersKept {p q : Point} {s t : State} (h : BodyWaits p s q t) : OthersKept s t := by
  cases h with
  | reading hplace hthere hread =>
    obtain ⟨⟨_, _, _, _, _, rfl⟩, -⟩ := hread
    exact fun _ _ => rfl
  | emitting bytes rest room hready => exact hready.othersKept

theorem FailedAfter.othersKept {s t : State} (h : FailedAfter (BitsRead s) t) : OthersKept s t := by
  obtain ⟨_, _, ⟨⟨_, _, _, _, _, rfl⟩, -⟩, rfl⟩ := h
  exact fun _ _ => rfl

/-- Settles O44: a body of DEC_SAMPLE writes a channel only when it stores its sample, and then `CH`. -/
theorem otherChannelsAreUntouched : Obligations.OtherChannelsAreUntouched := by
  intro s t c h
  suffices hkept : OthersKept s t from hkept c
  rw [exec_eq_prologue] at h
  rcases prologue_next h with rfl | ⟨-, hown⟩
  · exact fun _ _ => rfl
  · exact Ensures.next (.mapWait ((decBody_runs (.unary 0) s).mono (fun _ _ hd => hd.othersKept)
      (fun _ _ hw => hw.othersKept) fun _ hf => hf.othersKept)) hown

/-! ## The invariant -/

theorem inv_reset : Inv State.reset where
  nch_legal := .inl rfl
  bps_legal := .inl rfl
  fmt_legal := by decide
  key_masked := by decide
  bits_left := by decide
  cache_bits := by decide
  idle_aligned _ := rfl
  open_configured h := by simp [State.reset] at h
  decoding_inside h := by cases h
  frame_end_at_end h := by cases h
  halt_reported h := by cases h
  one_result := by decide
  flight_fits j h := by cases h

theorem inv_resetBlock (s : State) : Inv (resetBlock s) := { inv_reset with }

theorem inv_hardwareReset (s : State) : Inv (hardwareReset s) := { inv_reset with }

/-- A command that waits where it can wait keeps the invariant. -/
theorem inv_waiting {s : State} {j : Job} (h : Inv s) (hfits : jobFits j s) : Inv { s with inFlight := some j } :=
  { h with flight_fits := by rintro _ ⟨⟩; exact hfits }

theorem inv_of_bytesMoved {s t : State} (h : Inv s) (hmoved : BytesMoved s t) : Inv t := by
  obtain ⟨_, _, _, _, _, rfl⟩ := hmoved
  exact { h with }

theorem inv_of_bitsRead {s t : State} (h : Inv s) (hphase : s.phase = .decoding) (hread : BitsRead s t) : Inv t := by
  obtain ⟨⟨_, _, _, _, _, rfl⟩, hfits⟩ := hread
  obtain ⟨hcount, hcache⟩ := hfits ⟨h.bits_left, h.cache_bits⟩
  exact { h with
    bits_left := hcount
    cache_bits := hcache
    idle_aligned := fun hidle => by simp [hphase] at hidle }

/-- A failed read leads to HALT and keeps the invariant (60_exceptions.md R205). -/
theorem inv_readFailed {s : State} (h : Inv s) (hnone : s.inFlight = none) (rest : List SrcItem) :
    Inv (raise .errIo { s with inp := rest }) :=
  { h with
    idle_aligned := by rintro ⟨⟩
    open_configured := by rintro (⟨⟨⟩⟩ | ⟨⟨⟩⟩)
    decoding_inside := by rintro ⟨⟩
    frame_end_at_end := by rintro ⟨⟩
    halt_reported := fun _ => rfl
    flight_fits := by simp [hnone] }

theorem inv_concludeVerify {s : State} (h : Inv s) (hnone : s.inFlight = none) (sum stored : Word) :
    Inv (concludeVerify sum stored s) :=
  { h with
    bits_left := by simp
    cache_bits := by simp
    idle_aligned := fun _ => rfl
    open_configured := by rintro (⟨⟨⟩⟩ | ⟨⟨⟩⟩)
    decoding_inside := by rintro ⟨⟩
    frame_end_at_end := by rintro ⟨⟩
    halt_reported := by rintro ⟨⟩
    one_result := by simp
    flight_fits := by simp [hnone] }

/-! ### Immediate changes -/

theorem legalNch_iff (n : Nat) : legalNch n = true ↔ 1 ≤ n ∧ n ≤ 6 := by
  rw [legalNch, Bool.and_eq_true, decide_eq_true_iff, decide_eq_true_iff]
  rfl

/-- A key byte whose mask bit is still clear was not written (46_config_control.md R184). -/
theorem setKey_masked {s : State} (h : ∀ i : Fin 8, s.keymask.getLsbD i.val = false → s.key[i] = 0) (k d : Nat)
    (i : Fin 8) (hi : (setKey k d s).keymask.getLsbD i.val = false) : (setKey k d s).key[i] = 0 := by
  rw [setKey_keymask, BitVec.getLsbD_or, Bool.or_eq_false_iff, BitVec.getLsbD_ofNat] at hi
  obtain ⟨hmask, hbit⟩ := hi
  have hne : k ≠ i.val := by
    rintro rfl
    simp at hbit
  rw [setKey_key]
  exact (Vector.getElem_setIfInBounds_ne i.isLt hne).trans (h i hmask)

/-- A new configuration in IDLE, where no frame is open and nothing is in flight, keeps the invariant if its registers hold
legal values. -/
theorem inv_configured {s : State} (h : Inv s) (hidle : s.phase = .idle) (hnone : s.inFlight = none) {nch : BitVec 4}
    {bps : BitVec 6} {fmt : BitVec 2} {flen : BitVec Config.flenBits} {key : Vector Byte Config.keyLen}
    {keymask : BitVec Config.keyLen} (hnch : nch = 0 ∨ (1 ≤ nch.toNat ∧ nch.toNat ≤ 6))
    (hbps : bps = 0 ∨ (16 ≤ bps.toNat ∧ bps.toNat ≤ 24)) (hfmt : fmt ≠ 3)
    (hkey : ∀ i : Fin 8, keymask.getLsbD i.val = false → key[i] = 0) :
    Inv { s with nch := nch, bps := bps, fmt := fmt, flen := flen, key := key, keymask := keymask } :=
  { h with
    nch_legal := hnch
    bps_legal := hbps
    fmt_legal := hfmt
    key_masked := hkey
    open_configured := by simp [hidle]
    decoding_inside := by simp [hidle]
    frame_end_at_end := by simp [hidle]
    flight_fits := by simp [hnone] }

/-- The configuration FRAME_INIT has tested is what an open frame needs: a channel and a time-step to decode
(45_frame_sequencing.md R165). -/
theorem inv_openFrame {s : State} (h : Inv s) (hnone : s.inFlight = none) (hcomplete : configComplete s = true) :
    Inv (openFrame s) := by
  obtain ⟨⟨⟨⟨hnch, -⟩, -⟩, hflen⟩, -⟩ :
    (((legalNch s.nch.toNat = true ∧ legalBps s.bps.toNat = true) ∧ legalFmt s.fmt.toNat = true) ∧
      legalFlen s.flen.toNat = true) ∧ (s.fmt.toNat == 1 || keyOk s) = true := by
    simpa only [configComplete, Bool.and_eq_true] using hcomplete
  have hchannels := (legalNch_iff _).mp hnch
  have hlength : 1 ≤ s.flen.toNat := by simpa [legalFlen] using hflen
  exact { h with
    bits_left := by simp
    cache_bits := by simp
    idle_aligned := fun _ => rfl
    open_configured := fun _ => ⟨hcomplete, rfl⟩
    decoding_inside := fun _ => ⟨hchannels.1, hlength⟩
    frame_end_at_end := by rintro ⟨⟩
    halt_reported := by rintro ⟨⟩
    one_result := by simp
    flight_fits := by simp [hnone] }

theorem inv_restartReader {s : State} (h : Inv s) (hnone : s.inFlight = none) : Inv (restartReader s) :=
  { h with
    bits_left := by simp
    cache_bits := by simp
    idle_aligned := fun _ => rfl
    open_configured := by rintro (⟨⟨⟩⟩ | ⟨⟨⟩⟩)
    decoding_inside := by rintro ⟨⟩
    frame_end_at_end := by rintro ⟨⟩
    halt_reported := by rintro ⟨⟩
    one_result := by simp
    flight_fits := by simp [hnone] }

theorem inv_immediate {s t : State} (h : Inv s) (hnone : s.inFlight = none) (hchange : Immediate s t) : Inv t := by
  cases hchange with
  | nothing => exact h
  | refused => exact { h with }
  | misconfigured => exact { h with }
  | channels hidle hlegal =>
    have := (legalNch_iff _).mp hlegal
    refine inv_configured h hidle hnone (.inr ?_) h.bps_legal h.fmt_legal h.key_masked
    rw [BitVec.toNat_ofNat]
    omega
  | width hidle hlegal =>
    have := (legalBps_iff _).mp hlegal
    refine inv_configured h hidle hnone h.nch_legal (.inr ?_) h.fmt_legal h.key_masked
    rw [BitVec.toNat_ofNat]
    omega
  | plain hidle => exact inv_configured h hidle hnone h.nch_legal h.bps_legal (by decide) (by simp)
  | encrypted hidle => exact inv_configured h hidle hnone h.nch_legal h.bps_legal (by decide) h.key_masked
  | keyByte k d hidle =>
    exact inv_configured h hidle hnone h.nch_legal h.bps_legal h.fmt_legal (setKey_masked h.key_masked k d)
  | length hidle hlegal => exact inv_configured h hidle hnone h.nch_legal h.bps_legal h.fmt_legal h.key_masked
  | opened hrunning hcomplete => exact inv_openFrame h hnone hcomplete
  | restarted hrunning => exact inv_restartReader h hnone

/-! ### The streaming commands -/

theorem inv_failedAfter {R : State → Prop} {t : State} (h : FailedAfter R t)
    (hR : ∀ m, R m → Inv m ∧ m.inFlight = none) : Inv t := by
  obtain ⟨m, rest, hm, rfl⟩ := h
  exact inv_readFailed (hR m hm).1 (hR m hm).2 rest

theorem BytesMoved.inFlight {s t : State} (h : BytesMoved s t) : t.inFlight = s.inFlight := by
  obtain ⟨_, _, _, _, _, rfl⟩ := h
  rfl

theorem BytesMoved.phase {s t : State} (h : BytesMoved s t) : t.phase = s.phase := by
  obtain ⟨_, _, _, _, _, rfl⟩ := h
  rfl

theorem verifyFrom_inv {s : State} (h : Inv s) (hnone : s.inFlight = none)
    (hphase : s.phase = .idle ∨ s.phase = .frameEnd) (sum : Word) (got : List Byte) :
    Ensures (verifyFrom sum got s) (fun _ => Inv) (fun j t => Inv { t with inFlight := some j }) Inv := by
  refine (verifyFrom_runs sum got s).mono ?_ ?_ fun t hfail =>
    inv_failedAfter hfail fun m hm => ⟨inv_of_bytesMoved h hm, hm.inFlight.trans hnone⟩
  · rintro _ _ ⟨m, stored, hm, rfl⟩
    exact inv_concludeVerify (inv_of_bytesMoved h hm) (hm.inFlight.trans hnone) sum stored
  · rintro _ t ⟨⟨more, rfl, hmore⟩, ht⟩
    exact inv_waiting (inv_of_bytesMoved h ht) ⟨ht.phase ▸ hphase, hmore⟩

theorem rawFrom_inv {s : State} (h : Inv s) (hnone : s.inFlight = none) (hidle : s.phase = .idle) (left : Nat)
    (held : Option Byte) :
    Ensures (rawFrom left held s) (fun _ => Inv) (fun j t => Inv { t with inFlight := some j }) Inv := by
  refine (rawFrom_runs left held s).mono (fun _ t ht => inv_of_bytesMoved h ht) ?_ fun t hfail =>
    inv_failedAfter hfail fun m hm => ⟨inv_of_bytesMoved h hm, hm.inFlight.trans hnone⟩
  rintro _ t ⟨⟨left, held, rfl⟩, ht⟩
  exact inv_waiting (inv_of_bytesMoved h ht) (ht.phase.trans hidle)

/-- The invariant between two bodies of a decode command. -/
structure InFrame (s : State) : Prop where
  inv : Inv s
  flight : s.inFlight = none
  frame : s.phase = .decoding ∨ s.phase = .frameEnd

/-- The invariant at a place in a body. -/
structure InBody (p : Point) (s : State) : Prop where
  inv : Inv s
  flight : s.inFlight = none
  phase : s.phase = .decoding
  place : pointFits p s

theorem InBody.bitsRead {p q : Point} {s t : State} (h : InBody p s) (hq : Reads q) (hread : BitsRead s t) :
    InBody q t := by
  have hinv := inv_of_bitsRead h.inv h.phase hread
  obtain ⟨⟨_, _, _, _, _, rfl⟩, -⟩ := hread
  refine ⟨hinv, h.flight, h.phase, ?_⟩
  cases q with
  | unary u => trivial
  | suffix level a left i acc => trivial
  | emit rest => exact hq.elim

/-- With the last value of a time-step stored, the body stands before its emission. -/
theorem InBody.stepReady {p : Point} {s t : State} (h : InBody p s) (hready : StepReady p s t) (rest : List Byte) :
    InBody (.emit rest) t := by
  cases hready with
  | waiting rest => exact ⟨h.inv, h.flight, h.phase, h.place⟩
  | decoded v hplace hread hlast =>
    rename_i m
    have hm : InBody (.unary 0) m := h.bitsRead trivial hread
    have := (hm.inv.decoding_inside hm.phase).1
    exact ⟨{ hm.inv with }, hm.flight, hm.phase, Nat.le_antisymm this hlast⟩

theorem nch_le {s : State} (h : Inv s) : s.nch.toNat ≤ 6 := by
  rcases h.nch_legal with hzero | hlegal
  · simp [hzero]
  · exact hlegal.2

/-- `CH` does not wrap on the way to the last channel (10_state.md R28). -/
theorem ch_add_one {s : State} (h : Inv s) (hmore : s.ch.toNat + 1 < s.nch.toNat) :
    (s.ch + 1).toNat = s.ch.toNat + 1 := by
  have := nch_le h
  bv_omega

theorem InFrame.nextChannel {p : Point} {s : State} (h : InBody p s) (v : Level × Word)
    (hmore : s.ch.toNat + 1 < s.nch.toNat) : InFrame { storeSample v s with ch := s.ch + 1 } := by
  obtain ⟨-, hpos⟩ := h.inv.decoding_inside h.phase
  have hch : (s.ch + 1).toNat = s.ch.toNat + 1 := ch_add_one h.inv hmore
  refine ⟨{ h.inv with decoding_inside := fun _ => ⟨?_, hpos⟩, frame_end_at_end := ?_, flight_fits := ?_ },
    h.flight, .inl h.phase⟩
  · exact hch ▸ hmore
  · simp [h.phase]
  · simp [h.flight]

/-- Before the end of the frame `POS` does not wrap (10_state.md R28). -/
theorem pos_add_one {s : State} (h : s.pos.toNat < s.flen.toNat) : (s.pos + 1).toNat = s.pos.toNat + 1 := by
  have hflen : s.flen.toNat < 2 ^ 28 := s.flen.isLt
  rw [BitVec.toNat_add]
  exact Nat.mod_eq_of_lt (show s.pos.toNat + 1 < 2 ^ 28 by omega)

theorem InFrame.closeTimeStep {p : Point} {s : State} (h : InBody p s) (bytes : List Byte) (room : Option Nat) :
    InFrame (closeTimeStep { s with pcm := bytes, pcmRoom := room }) := by
  obtain ⟨hch, hpos⟩ := h.inv.decoding_inside h.phase
  have hnext := pos_add_one hpos
  by_cases hend : s.pos + 1 = s.flen
  · have hphase : (Machine.closeTimeStep { s with pcm := bytes, pcmRoom := room }).phase = .frameEnd := if_pos hend
    refine ⟨{ h.inv with
      idle_aligned := ?_, open_configured := fun _ => h.inv.open_configured (.inl h.phase), decoding_inside := ?_
      frame_end_at_end := fun _ => ⟨rfl, hend⟩, halt_reported := ?_, flight_fits := by simp [h.flight] },
      h.flight, .inr hphase⟩
    all_goals rw [hphase]; nofun
  · have hphase : (Machine.closeTimeStep { s with pcm := bytes, pcmRoom := room }).phase = .decoding :=
      (if_neg hend).trans h.phase
    have hinside : (s.pos + 1).toNat < s.flen.toNat := by
      have : (s.pos + 1).toNat ≠ s.flen.toNat := fun heq => hend (BitVec.eq_of_toNat_eq heq)
      omega
    refine ⟨{ h.inv with
      idle_aligned := ?_, open_configured := fun _ => h.inv.open_configured (.inl h.phase)
      decoding_inside := fun _ => ⟨Nat.lt_of_le_of_lt (Nat.zero_le _) hch, hinside⟩
      frame_end_at_end := ?_, halt_reported := ?_, flight_fits := by simp [h.flight] }, h.flight, .inl hphase⟩
    all_goals rw [hphase]; nofun

theorem InBody.bodyDone {p : Point} {s t : State} (h : InBody p s) (hdone : BodyDone p s t) : InFrame t := by
  cases hdone with
  | nextChannel v hplace hread hmore => exact .nextChannel (h.bitsRead (q := .unary 0) trivial hread) v hmore
  | timeStep bytes room hready => exact .closeTimeStep (h.stepReady hready []) bytes room

theorem InBody.bodyWaits {p q : Point} {s t : State} (h : InBody p s) (hwaits : BodyWaits p s q t) : InBody q t := by
  cases hwaits with
  | reading hplace hthere hread => exact h.bitsRead hthere hread
  | emitting bytes rest room hready =>
    obtain ⟨hinv, hflight, hphase, hplace⟩ := h.stepReady hready rest
    exact ⟨{ hinv with }, hflight, hphase, hplace⟩

theorem InBody.failedAfter {p : Point} {s t : State} (h : InBody p s) (hfail : FailedAfter (BitsRead s) t) : Inv t := by
  refine inv_failedAfter hfail fun m hread => ?_
  have hm : InBody (.unary 0) m := h.bitsRead trivial hread
  exact ⟨hm.inv, hm.flight⟩

/-- The places at which a decode command can be in flight. -/
theorem jobFits_decode {j : Job} {p : Point} (hplace : decodePlace j = some p) (s : State) :
    jobFits j s ↔ s.phase = .decoding ∧ pointFits p s := by
  cases j <;> cases hplace <;> rfl

theorem inv_decodeInvariant : DecodeInvariant Inv InFrame InBody where
  body p s h := (decBody_runs p s).mono (fun _ _ => h.bodyDone) (fun _ _ => h.bodyWaits) fun _ => h.failedAfter
  start _ h hphase := ⟨h.inv, h.flight, hphase, trivial⟩
  done _ h := h.inv
  wait _ _ _ hplace h := inv_waiting h.inv ((jobFits_decode hplace _).mpr ⟨h.phase, h.place⟩)
  verify sum _ h hphase := verifyFrom_inv h.inv h.flight (.inr (h.frame.resolve_left hphase)) sum []

/-- A command taken up at a place where it can be keeps the invariant. -/
theorem inv_resume {j : Job} {s t : State} (hs : Inv s) (hnone : s.inFlight = none) (hfits : jobFits j s)
    (h : resume j s = .next t) : Inv t := by
  cases j with
  | verify sum got => exact Ensures.next (verifyFrom_inv hs hnone hfits.1 sum got) h
  | raw left held => exact Ensures.next (rawFrom_inv hs hnone hfits left held) h
  | _ => exact inv_decodeInvariant.resume rfl ⟨hs, hnone, hfits.1, hfits.2⟩ h

theorem inv_inFlight_none {s : State} (h : Inv s) : Inv { s with inFlight := none } :=
  { h with flight_fits := by rintro _ ⟨⟩ }

theorem inv_cmd {s : State} (h : Inv s) (rest : List Word) : Inv { s with cmd := rest } := { h with }

/-- Settles O51: what a step can do keeps the invariant, case by case. -/
theorem stepKeepsTheInvariant : Obligations.StepKeepsTheInvariant := by
  intro s t hs h
  cases step_effect h with
  | reset hreset ht => exact ht ▸ inv_hardwareReset s
  | idle ht => exact ht ▸ hs
  | resumed j hflight hj => exact inv_resume (inv_inFlight_none hs) rfl (hs.flight_fits j hflight) hj
  | changed rest hflight hchange => exact inv_immediate (inv_cmd hs rest) hflight hchange
  | softReset rest hflight hcmd ht => exact ht ▸ inv_resetBlock _
  | started rest j hflight hfits hj => exact inv_resume (inv_cmd hs rest) hflight hfits hj

/-! ## The bound on the code parameters -/

/-- The place a command in flight says a body stands at; with none there, the next body's first. -/
def placeOf (flight : Option Job) : Point := (flight.bind decodePlace).getD (.unary 0)

/-- How many values of channel `c` are decoded in the open frame, with a body at the place `p`. -/
def valuesAt (p : Point) (c : Nat) (s : State) : Nat :=
  s.pos.toNat +
    match p with
    | .emit _ => 1
    | _ => if c < s.ch.toNat then 1 else 0

theorem valuesDecoded_eq (c : Nat) (s : State) : valuesDecoded c s = valuesAt (placeOf s.inFlight) c s := by
  unfold valuesDecoded valuesAt
  rcases s.inFlight with _ | (p | ⟨_, p⟩ | p | _ | _)
  case some.sample => cases p <;> rfl
  case some.steps => cases p <;> rfl
  case some.frame => cases p <;> rfl
  all_goals rfl

theorem valuesAt_reads {p : Point} (hp : Reads p) (c : Nat) (s : State) :
    valuesAt p c s = s.pos.toNat + if c < s.ch.toNat then 1 else 0 := by
  cases p with
  | unary u => rfl
  | suffix level a left i acc => rfl
  | emit rest => exact hp.elim

/-- No code parameter of these channels exceeds 10 plus the count `n` gives for its channel. -/
def RisenAtMost (n : Nat → Nat) (chan : Vector Channel 6) : Prop :=
  ∀ c : Fin 6, chan[c].k0.toNat ≤ 10 + n c.val ∧ chan[c].k1.toNat ≤ 10 + n c.val

/-- The bound of 10_state.md R27 with a body at the place `p`. -/
abbrev BoundedAt (p : Point) (s : State) : Prop := RisenAtMost (fun c => valuesAt p c s) s.chan

theorem parametersBounded_iff (s : State) :
    ParametersBounded s ↔ (s.phase = .decoding ∨ s.phase = .frameEnd → BoundedAt (placeOf s.inFlight) s) := by
  simp only [ParametersBounded, BoundedAt, RisenAtMost, valuesDecoded_eq]

theorem RisenAtMost.mono {n m : Nat → Nat} {chan : Vector Channel 6} (h : RisenAtMost n chan) (hle : ∀ c, n c ≤ m c) :
    RisenAtMost m chan :=
  fun c => ⟨(h c).1.trans (Nat.add_le_add_left (hle c) 10), (h c).2.trans (Nat.add_le_add_left (hle c) 10)⟩

/-- A body that starts has at each of its places no fewer values than before it. -/
theorem BoundedAt.start {s : State} (h : BoundedAt (.unary 0) s) (p : Point) : BoundedAt p s := by
  refine h.mono fun c => ?_
  cases p with
  | unary u => exact le_rfl
  | suffix level a left i acc => exact le_rfl
  | emit rest =>
    simp only [valuesAt]
    split <;> omega

/-- Outside an open frame nothing is claimed. -/
theorem parametersBounded_of_closed {s : State} (h : s.phase = .idle ∨ s.phase = .halt) : ParametersBounded s := by
  rintro (hopen | hopen) <;> simp [hopen] at h

/-! ### One value -/

/-- An adaptation raises a code parameter by at most one (40_entropy_decoder.md R115, R116). -/
theorem moveByOne_toNat_le (T : Nat → Word) (k sum : Word) : (moveByOne T k sum).toNat ≤ k.toNat + 1 := by
  unfold moveByOne
  split
  · next hdown =>
    have hpred (k : BitVec 32) (hk : 0 < k) : (k - 1).toNat ≤ k.toNat + 1 := by bv_omega
    exact hpred k hdown.1
  · split
    · rw [BitVec.toNat_add]
      exact Nat.mod_le _ _
    · omega

theorem adapt_toNat_le (k sum v : Word) : (adapt k sum v).1.toNat ≤ k.toNat + 1 := by
  rw [adapt_eq]
  exact moveByOne_toNat_le ..

/-- The three stages on a value raise the channel's code parameters by at most one (10_state.md R27). -/
theorem sampleStages_toNat_le (shift : Nat) (v : Level × Word) (ch : Channel) :
    (sampleStages shift v ch).2.k0.toNat ≤ ch.k0.toNat + 1 ∧ (sampleStages shift v ch).2.k1.toNat ≤ ch.k1.toNat + 1 := by
  change (entropyUpdate ch v).2.k0.toNat ≤ _ ∧ (entropyUpdate ch v).2.k1.toNat ≤ _
  obtain ⟨_ | _, a⟩ := v
  · rw [entropyUpdate_zero]
    exact ⟨adapt_toNat_le .., Nat.le_succ _⟩
  · rw [entropyUpdate_one]
    exact ⟨adapt_toNat_le .., adapt_toNat_le ..⟩

theorem storeSample_chan_self {s : State} {c : Fin 6} (v : Level × Word) (hc : c.val = s.ch.toNat) :
    (storeSample v s).chan[c] = (sampleStages (shiftOf s) v s.chan[c]).2 := by
  rw [storeSample_chan, ← hc, channelAt_eq]
  exact Vector.getElem_setIfInBounds_self c.isLt

/-- Storing a value of channel `CH` counts it. -/
theorem storeSample_risen {p : Point} {s : State} (hp : Reads p) (h : BoundedAt p s) (v : Level × Word) :
    RisenAtMost (fun c => s.pos.toNat + if c < s.ch.toNat + 1 then 1 else 0) (storeSample v s).chan := by
  intro c
  obtain ⟨h0, h1⟩ := h c
  simp only [valuesAt_reads hp] at h0 h1 ⊢
  by_cases hc : c.val = s.ch.toNat
  · obtain ⟨hk0, hk1⟩ := sampleStages_toNat_le (shiftOf s) v s.chan[c]
    rw [if_neg (by omega)] at h0 h1
    rw [storeSample_chan_self v hc, if_pos (by omega)]
    omega
  · have hother : c.val < s.ch.toNat + 1 ↔ c.val < s.ch.toNat := by omega
    simp only [storeSample_othersKept v s c hc, hother]
    exact ⟨h0, h1⟩

/-! ### A body -/

theorem BoundedAt.bitsRead {p q : Point} {s t : State} (hp : Reads p) (hq : Reads q) (h : BoundedAt p s)
    (hread : BitsRead s t) : BoundedAt q t := by
  obtain ⟨⟨_, _, _, _, _, rfl⟩, -⟩ := hread
  exact h.mono fun c => (valuesAt_reads hp c s).trans (valuesAt_reads hq c s).symm |>.le

theorem BoundedAt.stepReady {p : Point} {s t : State} (h : BoundedAt p s) (hready : StepReady p s t) (rest : List Byte) :
    BoundedAt (.emit rest) t := by
  cases hready with
  | waiting _ => exact h
  | decoded v hplace hread hlast =>
    refine (storeSample_risen (p := .unary 0) trivial (h.bitsRead hplace trivial hread) v).mono fun c => ?_
    simp only [valuesAt]
    split
    · exact le_rfl
    · exact Nat.le_succ _

theorem BoundedAt.bodyDone {p : Point} {s t : State} (hs : InBody p s) (h : BoundedAt p s) (hdone : BodyDone p s t) :
    BoundedAt (.unary 0) t := by
  cases hdone with
  | nextChannel v hplace hread hmore =>
    have hm : InBody (.unary 0) _ := hs.bitsRead trivial hread
    refine (storeSample_risen (p := .unary 0) trivial (h.bitsRead hplace trivial hread) v).mono fun c => ?_
    simp only [valuesAt, ch_add_one hm.inv hmore]
    exact le_rfl
  | timeStep bytes room hready =>
    have hm := hs.stepReady hready []
    have hpos := pos_add_one (hm.inv.decoding_inside hm.phase).2
    refine (h.stepReady hready []).mono fun c => ?_
    simp only [valuesAt, closeTimeStep_pos, hpos]
    omega

theorem BoundedAt.bodyWaits {p q : Point} {s t : State} (h : BoundedAt p s) (hwaits : BodyWaits p s q t) :
    BoundedAt q t := by
  cases hwaits with
  | reading hplace hthere hread => exact h.bitsRead hplace hthere hread
  | emitting bytes rest room hready => exact h.stepReady hready rest

/-! ### The commands -/

theorem FailedAfter.parametersBounded {R : State → Prop} {t : State} (h : FailedAfter R t) : ParametersBounded t := by
  obtain ⟨m, rest, -, rfl⟩ := h
  exact parametersBounded_of_closed (.inr rfl)

theorem verifyFrom_bounded {s : State} (h : s.phase = .decoding ∨ s.phase = .frameEnd → BoundedAt (.unary 0) s)
    (sum : Word) (got : List Byte) :
    Ensures (verifyFrom sum got s) (fun _ => ParametersBounded) (fun j t => ParametersBounded { t with inFlight := some j })
      ParametersBounded := by
  refine (verifyFrom_runs sum got s).mono ?_ ?_ fun t hfail => hfail.parametersBounded
  · rintro _ _ ⟨m, stored, -, rfl⟩
    exact parametersBounded_of_closed (.inl rfl)
  · rintro _ t ⟨⟨more, rfl, -⟩, _, _, _, _, _, rfl⟩
    exact (parametersBounded_iff _).mpr h

theorem rawFrom_bounded {s : State} (hidle : s.phase = .idle) (left : Nat) (held : Option Byte) :
    Ensures (rawFrom left held s) (fun _ => ParametersBounded) (fun j t => ParametersBounded { t with inFlight := some j })
      ParametersBounded :=
  (rawFrom_runs left held s).mono (fun _ _ ht => parametersBounded_of_closed (.inl (ht.phase.trans hidle)))
    (fun _ _ ht => parametersBounded_of_closed (.inl (ht.2.phase.trans hidle))) fun _ hfail => hfail.parametersBounded

theorem bounded_decodeInvariant :
    DecodeInvariant ParametersBounded (fun s => InFrame s ∧ BoundedAt (.unary 0) s) fun p s => InBody p s ∧ BoundedAt p s where
  body p s := fun ⟨hs, hb⟩ => (decBody_runs p s).mono
    (fun _ _ hdone => ⟨hs.bodyDone hdone, hb.bodyDone hs hdone⟩)
    (fun _ _ hwaits => ⟨hs.bodyWaits hwaits, hb.bodyWaits hwaits⟩) fun _ hfail => hfail.parametersBounded
  start _ := fun ⟨hs, hb⟩ hphase => ⟨⟨hs.inv, hs.flight, hphase, trivial⟩, hb⟩
  done s := fun ⟨hs, hb⟩ => (parametersBounded_iff s).mpr fun _ => by rw [hs.flight]; exact hb
  wait j p s hplace := fun ⟨_, hb⟩ => (parametersBounded_iff _).mpr fun _ => by
    rw [placeOf, Option.bind_some, hplace]
    exact hb
  verify sum _ := fun ⟨_, hb⟩ _ => verifyFrom_bounded (fun _ => hb) sum []

/-- A command taken up at a place where it can be keeps the bound. -/
theorem resume_bounded {j : Job} {s t : State} (hs : Inv s) (hnone : s.inFlight = none) (hfits : jobFits j s)
    (hb : s.phase = .decoding ∨ s.phase = .frameEnd → BoundedAt (placeOf (some j)) s) (h : resume j s = .next t) :
    ParametersBounded t := by
  cases j with
  | verify sum got => exact Ensures.next (verifyFrom_bounded hb sum got) h
  | raw left held => exact Ensures.next (rawFrom_bounded hfits left held) h
  | _ => exact bounded_decodeInvariant.resume rfl ⟨⟨hs, hnone, hfits.1, hfits.2⟩, hb (.inl hfits.1)⟩ h

theorem openFrame_bounded (s : State) : ParametersBounded (openFrame s) := by
  rintro - c
  have hk0 : (openFrame s).chan[c].k0 = 10 := by simp [initChannel, predInit, filterInit_eq, entropyInit_eq]
  have hk1 : (openFrame s).chan[c].k1 = 10 := by simp [initChannel, predInit, filterInit_eq, entropyInit_eq]
  rw [hk0, hk1]
  exact ⟨Nat.le_add_right .., Nat.le_add_right ..⟩

theorem immediate_bounded {s t : State} (hb : ParametersBounded s) (h : Immediate s t) : ParametersBounded t := by
  cases h with
  | nothing | refused | misconfigured => exact hb
  | channels hidle | width hidle | plain hidle | encrypted hidle | keyByte _ _ hidle | length hidle =>
    exact parametersBounded_of_closed (.inl hidle)
  | opened => exact openFrame_bounded s
  | restarted => exact parametersBounded_of_closed (.inl rfl)

/-- Settles O50. -/
theorem resetMeetsTheInvariant : Obligations.ResetMeetsTheInvariant :=
  ⟨inv_reset, parametersBounded_of_closed (.inl rfl)⟩

/-- Settles O53: a parameter moves where a value is stored, and there the value is counted. -/
theorem stepKeepsParametersBounded : Obligations.StepKeepsParametersBounded := by
  intro s t hs hb h
  have hplace := (parametersBounded_iff s).mp hb
  cases step_effect h with
  | reset hreset ht => exact ht ▸ parametersBounded_of_closed (.inl rfl)
  | idle ht => exact ht ▸ hb
  | resumed j hflight hj =>
    exact resume_bounded (inv_inFlight_none hs) rfl (hs.flight_fits j hflight) (hflight ▸ hplace) hj
  | changed rest hflight hchange => exact immediate_bounded (s := { s with cmd := rest }) hb hchange
  | softReset rest hflight hcmd ht => exact ht ▸ parametersBounded_of_closed (.inl rfl)
  | started rest j hflight hfits hj =>
    rw [hflight] at hplace
    exact resume_bounded (inv_cmd hs rest) hflight hfits (fun hopen => (hplace hopen).start _) hj

end Sys2Proof.Proofs.BlockState

/-! Proofs of the statements about 20_memory.md: waits for bytes and for room (R61(b), R66) and the packing of samples (R67).
Both laws of waiting come from one fact: the rest of any command, with more bytes and more room there from the start, is what
it is without them, taken up again with them where it waits. -/

namespace Sys2Proof.Proofs.Memory

open Sys2Proof Sys2Proof.Machine Sys2Proof.Proofs.BlockState

/-! ## A run taken up again where it waits -/

section
variable {π ρ α β : Type} {g : State → State} {k : π → State → Run π α} {r : Run π α}

/-- The run `r` after the host's act `g`: where `r` ended `g` makes no difference but to the streams, and where it waits it
goes on from there as `k` does. -/
def takenUp (g : State → State) (k : π → State → Run π α) (r : Run π α) : Run π α :=
  match r with
  | .done a s => .done a (g s)
  | .wait p s => k p (g s)
  | .failed s => .failed (g s)
  | .stuck e => .stuck e

@[simp] theorem takenUp_done (a : α) (s : State) : takenUp g k (.done a s) = .done a (g s) := rfl
@[simp] theorem takenUp_wait (p : π) (s : State) : takenUp g k (.wait p s) = k p (g s) := rfl
@[simp] theorem takenUp_failed (s : State) : takenUp g k (.failed s) = .failed (g s) := rfl
@[simp] theorem takenUp_stuck (e : Fault) : takenUp g k (.stuck e) = .stuck e := rfl

/-- A sequence is taken up in its first part if that waits, and in its second if the first completed. -/
theorem takenUp_bind {f : α → State → Run π β} {k' : π → State → Run π β}
    (hdone : ∀ a t, r = .done a t → f a (g t) = takenUp g k' (f a t))
    (hwait : ∀ p t, r = .wait p t → (k p (g t)).bind f = k' p (g t)) :
    (takenUp g k r).bind f = takenUp g k' (r.bind f) := by
  cases r with
  | done a t => exact hdone a t rfl
  | wait p t => exact hwait p t rfl
  | failed t => rfl
  | stuck e => rfl

theorem takenUp_mapWait {c : π → ρ} {k' : ρ → State → Run ρ α}
    (hwait : ∀ p t, r = .wait p t → (k p (g t)).mapWait c = k' (c p) (g t)) :
    (takenUp g k r).mapWait c = takenUp g k' (r.mapWait c) := by
  cases r with
  | done a t => rfl
  | wait p t => exact hwait p t rfl
  | failed t => rfl
  | stuck e => rfl

end

/-! ## What the host provides -/

/-- What the host provides in one go: room in the two sinks, and answers of the source (20_memory.md R61(b), R66). -/
structure Provision where
  pcmMore : Option Nat
  rawMore : Option Nat
  items : List SrcItem

/-- The host's act of providing it. -/
abbrev Provision.act (h : Provision) (s : State) : State := hostProvides h.pcmMore h.rawMore h.items s

section
variable (h : Provision)

/-- To make room for 0 bytes more and to supply no answer is to do nothing. -/
theorem act_nothing (s : State) : (Provision.mk (some 0) (some 0) []).act s = s := by
  have hroom (room : Option Nat) : moreRoom (some 0) room = room := by cases room <;> rfl
  simp [Provision.act, hostProvides, hostSupply, hostGrant, hroom]

/-! ### Reads -/

theorem nextByte_act_got {s t : State} {b : Byte} (hb : nextByte s = .got b t) :
    nextByte (h.act s) = .got b (h.act t) := by
  cases hi : s.inp with
  | nil => simp [nextByte_nil hi] at hb
  | cons x rest =>
    cases x with
    | failure => simp [nextByte_failure hi] at hb
    | byte c =>
      rw [nextByte_byte hi, Got.got.injEq] at hb
      obtain ⟨rfl, rfl⟩ := hb
      exact nextByte_byte (rest := rest ++ h.items) (by simp [hi])

theorem nextByte_act_failed {s t : State} (hb : nextByte s = .failed t) : nextByte (h.act s) = .failed (h.act t) := by
  cases hi : s.inp with
  | nil => simp [nextByte_nil hi] at hb
  | cons x rest =>
    cases x with
    | byte c => simp [nextByte_byte hi] at hb
    | failure =>
      rw [nextByte_failure hi, Got.failed.injEq] at hb
      subst hb
      exact nextByte_failure (rest := rest ++ h.items) (by simp [hi])

theorem nextBit_act_got {s t : State} {b : Bool} (hb : nextBit s = .got b t) : nextBit (h.act s) = .got b (h.act t) := by
  by_cases h0 : s.bcount = 0
  · cases hi : s.inp with
    | nil => simp [nextBit_empty h0 hi] at hb
    | cons x rest =>
      cases x with
      | failure => simp [nextBit_failing h0 hi] at hb
      | byte c =>
        rw [nextBit_fetch h0 hi, Got.got.injEq] at hb
        obtain ⟨rfl, rfl⟩ := hb
        exact nextBit_fetch (s := h.act s) (rest := rest ++ h.items) h0 (by simp [hi])
  · rw [nextBit_cached h0, Got.got.injEq] at hb
    obtain ⟨rfl, rfl⟩ := hb
    exact nextBit_cached (s := h.act s) h0

theorem nextBit_act_failed {s t : State} (hb : nextBit s = .failed t) : nextBit (h.act s) = .failed (h.act t) := by
  obtain ⟨h0, rest, hi, rfl⟩ := nextBit_failed hb
  exact nextBit_failing (s := h.act s) (rest := rest ++ h.items) h0 (by simp [hi])

/-- A unary read from the place where it waits. -/
def unaryFrom : Point → State → Run Point Word
  | .unary u, s => readUnary (bitsAvail s + 1) u s
  | p, s => .wait p s

theorem readUnary_act {n m : Nat} {u : Word} {s : State} (hn : bitsAvail s < n) (hm : bitsAvail (h.act s) < m) :
    readUnary m u (h.act s) = takenUp h.act unaryFrom (readUnary n u s) := by
  induction n generalizing m u s with
  | zero => omega
  | succ n ih =>
    cases hb : nextBit s with
    | notYet =>
      simp only [readUnary, hb, takenUp_wait, unaryFrom]
      exact readUnary_bound hm (Nat.lt_succ_self _)
    | failed t =>
      obtain ⟨m, rfl⟩ : ∃ i, m = i + 1 := ⟨m - 1, by omega⟩
      simp only [readUnary, hb, nextBit_act_failed h hb, takenUp_failed]
    | got b t =>
      obtain ⟨m, rfl⟩ : ∃ i, m = i + 1 := ⟨m - 1, by omega⟩
      have hb' := nextBit_act_got h hb
      obtain ⟨-, hleft, -⟩ := nextBit_got hb
      obtain ⟨-, hleft', -⟩ := nextBit_got hb'
      cases b with
      | false => rw [readUnary_got_end hb, readUnary_got_end hb', takenUp_done]
      | true =>
        rw [readUnary_got_run hb, readUnary_got_run hb']
        exact ih (by omega) (by omega)

/-- A binary read from the place where it waits. -/
def fieldFrom : Point → State → Run Point Word
  | .suffix level a left i acc, s => readBits level a left i acc s
  | p, s => .wait p s

theorem readBits_act (level : Level) (a : Word) (left i : Nat) (acc : Word) (s : State) :
    readBits level a left i acc (h.act s) = takenUp h.act fieldFrom (readBits level a left i acc s) := by
  induction left generalizing i acc s with
  | zero => rfl
  | succ left ih =>
    cases hb : nextBit s with
    | notYet => simp only [readBits, hb, takenUp_wait, fieldFrom]
    | failed t => simp only [readBits, hb, nextBit_act_failed h hb, takenUp_failed]
    | got b t => simp only [readBits, hb, nextBit_act_got h hb, ih]

/-- The rest of `DecodeValue` from a place in one of its reads (40_entropy_decoder.md R114). -/
def valueFrom (ch : Channel) : Point → State → Run Point (Level × Word)
  | .unary u, s => decodeValue ch u s
  | .suffix level a left i acc, s => readSuffix level a left i acc s
  | p, s => .wait p s

theorem readSuffix_act (ch : Channel) (level : Level) (a : Word) (left i : Nat) (acc : Word) (s : State) :
    readSuffix level a left i acc (h.act s) = takenUp h.act (valueFrom ch) (readSuffix level a left i acc s) := by
  rw [readSuffix, readBits_act]
  refine takenUp_bind (fun _ _ _ => rfl) fun p t hw => ?_
  obtain ⟨-, -, -, -, rfl, -⟩ := readBits_wait hw
  rfl

theorem afterUnary_act (ch : Channel) (u : Word) (s : State) :
    afterUnary ch u (h.act s) = takenUp h.act (valueFrom ch) (afterUnary ch u s) := by
  simp only [afterUnary_eq]
  split
  · exact readSuffix_act ..
  · exact readSuffix_act ..

theorem valueFrom_act (ch : Channel) (p : Point) (s : State) :
    valueFrom ch p (h.act s) = takenUp h.act (valueFrom ch) (valueFrom ch p s) := by
  cases p with
  | suffix level a left i acc => exact readSuffix_act ..
  | emit rest => rfl
  | unary u =>
    change decodeValue ch u (h.act s) = takenUp h.act (valueFrom ch) (decodeValue ch u s)
    rw [decodeValue, readUnary_act h (Nat.lt_succ_self _) (Nat.lt_succ_self _)]
    refine takenUp_bind (fun u' t _ => afterUnary_act h ch u' t) fun p t hw => ?_
    obtain ⟨-, -, -, rfl, -⟩ := readUnary_wait (Nat.lt_succ_self _) hw
    rfl

/-! ### Emission -/

theorem takeRoom_moreRoom {room left : Option Nat} (more : Option Nat) (hr : takeRoom room = some left) :
    takeRoom (moreRoom more room) = some (moreRoom more left) := by
  match more, room with
  | none, _ => rfl
  | some n, none => cases hr; rfl
  | some n, some (r + 1) =>
    cases hr
    simp only [moreRoom, Nat.add_right_comm r 1 n, takeRoom]

/-- The bytes that found no room go out after the others, as if the room had been there (20_memory.md R66). -/
theorem emitPcm_act (bytes : List Byte) (s : State) :
    emitPcm bytes (h.act s) = emitPcm (emitPcm bytes s).1 (h.act (emitPcm bytes s).2) := by
  induction bytes generalizing s with
  | nil => rfl
  | cons b bytes ih =>
    cases hr : takeRoom s.pcmRoom with
    | none => simp only [emitPcm, hr]
    | some room =>
      have hr' := takeRoom_moreRoom h.pcmMore hr
      simp only [emitPcm, hr, hostProvides_pcmRoom, hr']
      exact ih { s with pcm := s.pcm ++ [b], pcmRoom := room }

theorem emitRaw_act {b : Byte} {s t : State} (he : emitRaw b s = some t) : emitRaw b (h.act s) = some (h.act t) := by
  obtain ⟨room, hr, rfl⟩ := Option.map_eq_some_iff.mp he
  exact emitRaw_room (takeRoom_moreRoom h.rawMore hr)

/-! ### A body of DEC_SAMPLE -/

theorem emitAndClose_act (bytes : List Byte) {s : State} (hg : geometryOk s = true) :
    emitAndClose bytes (h.act s) = takenUp h.act decBody (emitAndClose bytes s) := by
  obtain ⟨sent, -, hframe, -⟩ := emitPcm_spec bytes s
  unfold emitAndClose
  rw [emitPcm_act]
  generalize emitPcm bytes s = e at hframe
  obtain ⟨_ | ⟨b, rest⟩, t⟩ := e
  · rfl
  · have hgt : geometryOk (h.act t) = true := by
      change t = _ at hframe
      rw [hframe]
      exact hg
    simp only [takenUp_wait, decBody, if_pos hgt]
    rfl

theorem afterValue_of_lt {s : State} (hmore : s.ch.toNat + 1 < s.nch.toNat) (v : Level × Word) :
    afterValue v s = .done () { storeSample v s with ch := s.ch + 1 } := if_pos hmore

theorem afterValue_of_not_lt {s : State} (hlast : ¬ s.ch.toNat + 1 < s.nch.toNat) (v : Level × Word) :
    afterValue v s = emitAndClose (timeStepBytes v s) (decorrelateCache (storeSample v s)) := if_neg hlast

theorem afterValue_act (v : Level × Word) {s : State} (hg : geometryOk s = true) :
    afterValue v (h.act s) = takenUp h.act decBody (afterValue v s) := by
  by_cases hmore : s.ch.toNat + 1 < s.nch.toNat
  · rw [afterValue_of_lt hmore, afterValue_of_lt (s := h.act s) hmore, takenUp_done]
    rfl
  · rw [afterValue_of_not_lt hmore, afterValue_of_not_lt (s := h.act s) hmore]
    exact emitAndClose_act h (timeStepBytes v s) (s := decorrelateCache (storeSample v s)) hg

theorem decBody_reads {p : Point} {s : State} (hp : Reads p) (hg : geometryOk s = true) :
    decBody p s = (valueFrom (channelAt s s.ch.toNat) p s).bind afterValue := by
  cases p with
  | unary u => exact if_pos hg
  | suffix level a left i acc => exact if_pos hg
  | emit rest => exact hp.elim

theorem valueFrom_readsBits (ch : Channel) {p : Point} (hp : Reads p) (s : State) : ReadsBits s (valueFrom ch p s) := by
  cases p with
  | unary u => exact decodeValue_readsBits ch u s
  | suffix level a left i acc => exact readSuffix_readsBits (.refl s) level a left i acc
  | emit rest => exact hp.elim

theorem geometryOk_of_bitsRead {s t : State} (h : BitsRead s t) : geometryOk t = geometryOk s := by
  obtain ⟨⟨_, _, _, _, _, rfl⟩, -⟩ := h
  rfl

theorem channelAt_of_bitsRead {s t : State} (h : BitsRead s t) :
    channelAt t t.ch.toNat = channelAt s s.ch.toNat := by
  obtain ⟨⟨_, _, _, _, _, rfl⟩, -⟩ := h
  rfl

/-- A body that stands in a read: the rest of its value, and then what follows it, are taken up alike. -/
theorem decBody_act_of_reads {p : Point} {s : State} (hp : Reads p) (hg : geometryOk s = true) :
    decBody p (h.act s) = takenUp h.act decBody (decBody p s) := by
  have hreads := valueFrom_readsBits (channelAt s s.ch.toNat) hp s
  rw [decBody_reads hp hg, decBody_reads (s := h.act s) hp hg]
  change (valueFrom (channelAt s s.ch.toNat) p (h.act s)).bind afterValue = _
  rw [valueFrom_act]
  refine takenUp_bind (fun v t hdone => ?_) fun q t hwait => ?_
  · rw [hdone] at hreads
    exact afterValue_act h v ((geometryOk_of_bitsRead hreads).trans hg)
  · rw [hwait] at hreads
    obtain ⟨hq, hread⟩ := hreads
    have hgt : geometryOk (h.act t) = true := (geometryOk_of_bitsRead hread).trans hg
    rw [decBody_reads hq hgt, ← channelAt_of_bitsRead hread]
    rfl

theorem decBody_act (p : Point) (s : State) : decBody p (h.act s) = takenUp h.act decBody (decBody p s) := by
  by_cases hg : geometryOk s = true
  · cases p with
    | unary u => exact decBody_act_of_reads h trivial hg
    | suffix level a left i acc => exact decBody_act_of_reads h trivial hg
    | emit rest =>
      simp only [decBody, if_pos hg, if_pos (show geometryOk (h.act s) = true from hg)]
      exact emitAndClose_act h rest hg
  · simp only [decBody, if_neg hg, if_neg (show ¬ geometryOk (h.act s) = true from hg), takenUp_stuck]

/-! ### The decode loop -/

/-- The rest of a decode loop from its place in a body. -/
def loopFrom (place : Option Nat × Point) (s : State) : Run (Option Nat × Point) Unit := decResume place.1 place.2 s

/-- One body of the loop, when the loop after the body is known to be taken up. -/
theorem decResume_act_of_decRun (bound : Option Nat) (p : Point) (s : State)
    (hloop : ∀ t, decBody p s = .done () t →
      decRun (countStep bound t) (h.act t) = takenUp h.act loopFrom (decRun (countStep bound t) t)) :
    decResume bound p (h.act s) = takenUp h.act loopFrom (decResume bound p s) := by
  unfold decResume
  rw [decBody_act]
  cases hb : decBody p s with
  | done a t => exact hloop t hb
  | wait q t => rfl
  | failed t => rfl
  | stuck e => rfl

theorem decRun_act (bound : Option Nat) (s : State) :
    decRun bound (h.act s) = takenUp h.act loopFrom (decRun bound s) := by
  induction hn : bitsAvail s using Nat.strong_induction_on generalizing bound s with
  | _ n ih =>
    by_cases hstop : bound = some 0 ∨ s.phase ≠ .decoding
    · rw [decRun_unroll, decRun_unroll bound s, if_pos hstop]
      exact if_pos hstop
    · rw [decRun_unroll, decRun_unroll bound s, if_neg hstop]
      exact (if_neg hstop).trans
        (decResume_act_of_decRun h bound _ s fun t hb => ih _ (hn ▸ decBody_done_bitsAvail hb) _ t rfl)

theorem loopFrom_act (place : Option Nat × Point) (s : State) :
    loopFrom place (h.act s) = takenUp h.act loopFrom (loopFrom place s) :=
  decResume_act_of_decRun h place.1 place.2 s fun t _ => decRun_act h (countStep place.1 t) t

end

/-! ## What a command in flight keeps -/

/-- The command in flight and the reset input are the same: only a step itself writes them (log entries 5, 9). -/
def ControlKept (s t : State) : Prop := t.inFlight = s.inFlight ∧ t.resetReq = s.resetReq

theorem ControlKept.trans {s t u : State} (h1 : ControlKept s t) (h2 : ControlKept t u) : ControlKept s u :=
  ⟨h2.1.trans h1.1, h2.2.trans h1.2⟩

theorem controlKept_of_bitsRead {s t : State} (h : BitsRead s t) : ControlKept s t := by
  obtain ⟨⟨_, _, _, _, _, rfl⟩, -⟩ := h
  exact ⟨rfl, rfl⟩

theorem controlKept_of_bytesMoved {s t : State} (h : BytesMoved s t) : ControlKept s t := by
  obtain ⟨_, _, _, _, _, rfl⟩ := h
  exact ⟨rfl, rfl⟩

theorem controlKept_of_failedAfter {R : State → Prop} {s t : State} (h : FailedAfter R t)
    (hR : ∀ m, R m → ControlKept s m) : ControlKept s t := by
  obtain ⟨m, rest, hm, rfl⟩ := h
  exact hR m hm

theorem controlKept_of_stepReady {p : Point} {s t : State} (h : StepReady p s t) : ControlKept s t := by
  cases h with
  | decoded v hplace hread hlast => exact (controlKept_of_bitsRead hread :)
  | waiting rest => exact ⟨rfl, rfl⟩

theorem controlKept_of_bodyDone {p : Point} {s t : State} (h : BodyDone p s t) : ControlKept s t := by
  cases h with
  | nextChannel v hplace hread hmore => exact (controlKept_of_bitsRead hread :)
  | timeStep bytes room hready => exact (controlKept_of_stepReady hready :)

theorem controlKept_of_bodyWaits {p q : Point} {s t : State} (h : BodyWaits p s q t) : ControlKept s t := by
  cases h with
  | reading hplace hthere hread => exact (controlKept_of_bitsRead hread :)
  | emitting bytes rest room hready => exact (controlKept_of_stepReady hready :)

/-- However a run from `s` ends, it keeps the command in flight and the reset input; where it waits, `place` holds. -/
abbrev KeepsControl {π α : Type} (place : π → Prop) (s : State) (r : Run π α) : Prop :=
  Ensures r (fun _ => ControlKept s) (fun p t => place p ∧ ControlKept s t) (ControlKept s)

theorem decBody_keepsControl (p : Point) (s : State) : KeepsControl (fun _ => True) s (decBody p s) :=
  (decBody_runs p s).mono (fun _ _ => controlKept_of_bodyDone) (fun _ _ hw => ⟨trivial, controlKept_of_bodyWaits hw⟩)
    fun _ hf => controlKept_of_failedAfter hf fun _ => controlKept_of_bitsRead

/-- Counting a time-step leaves the loop as bounded, or as unbounded, as it was (45_frame_sequencing.md R167, R168). -/
theorem countStep_isSome (bound : Option Nat) (s : State) : (countStep bound s).isSome = bound.isSome := by
  unfold countStep
  split <;> simp

/-- What a decode loop keeps: it waits in a DEC_STEP if it is bounded, and in a DEC_FRAME if not. -/
abbrev LoopKeepsControl (bound : Option Nat) (s : State) (r : Run (Option Nat × Point) Unit) : Prop :=
  KeepsControl (fun place => place.1.isSome = bound.isSome) s r

/-- One body of the loop, when what the loop after the body keeps is known. -/
theorem decResume_keepsControl_of_decRun {bound : Option Nat} {p : Point} {s m : State} (hm : ControlKept s m)
    (hloop : ∀ t, decBody p m = .done () t → ControlKept s t →
      LoopKeepsControl (countStep bound t) s (decRun (countStep bound t) t)) :
    LoopKeepsControl bound s (decResume bound p m) := by
  have hbody := decBody_keepsControl p m
  unfold decResume
  cases hb : decBody p m with
  | stuck e => trivial
  | wait q t => rw [hb] at hbody; exact ⟨rfl, hm.trans hbody.2⟩
  | failed t => rw [hb] at hbody; exact hm.trans hbody
  | done a t =>
    rw [hb] at hbody
    have hrest := hloop t hb (hm.trans hbody)
    rw [LoopKeepsControl, countStep_isSome] at hrest
    exact hrest

theorem decRun_keepsControl (bound : Option Nat) {s m : State} (hm : ControlKept s m) :
    LoopKeepsControl bound s (decRun bound m) := by
  induction hn : bitsAvail m using Nat.strong_induction_on generalizing bound m with
  | _ n ih =>
    rw [decRun_unroll]
    split
    · exact hm
    · exact decResume_keepsControl_of_decRun hm fun t hb ht => ih _ (hn ▸ decBody_done_bitsAvail hb) _ ht rfl

theorem decResume_keepsControl (bound : Option Nat) (p : Point) (s : State) :
    LoopKeepsControl bound s (decResume bound p s) :=
  decResume_keepsControl_of_decRun ⟨rfl, rfl⟩ fun t _ ht => decRun_keepsControl (countStep bound t) ht

theorem verifyFrom_keepsControl {s m : State} (hm : ControlKept s m) (sum : Word) (got : List Byte) :
    KeepsControl (fun _ => True) s (verifyFrom sum got m) := by
  refine (verifyFrom_runs sum got m).mono ?_ (fun _ _ hw => ⟨trivial, hm.trans (controlKept_of_bytesMoved hw.2)⟩)
    fun _ hf => controlKept_of_failedAfter hf fun _ hmoved => hm.trans (controlKept_of_bytesMoved hmoved)
  rintro _ _ ⟨u, stored, hmoved, rfl⟩
  exact (hm.trans (controlKept_of_bytesMoved hmoved) :)

theorem rawFrom_keepsControl (left : Nat) (held : Option Byte) (s : State) :
    KeepsControl (fun _ => True) s (rawFrom left held s) :=
  (rawFrom_runs left held s).mono (fun _ _ => controlKept_of_bytesMoved)
    (fun _ _ hw => ⟨trivial, controlKept_of_bytesMoved hw.2⟩)
    fun _ hf => controlKept_of_failedAfter hf fun _ => controlKept_of_bytesMoved

/-! ## The rest of a command in flight -/

/-- The rest of the command that waits at `j`, before it is settled. -/
def resumeRun (j : Job) (s : State) : Run Job Unit :=
  match j with
  | .sample p => (decBody p s).mapWait .sample
  | .steps left p => (decResume (some left) p s).mapWait loopJob
  | .frame p => thenVerify (decResume none p s)
  | .verify sum got => verifyFrom sum got s
  | .raw left held => rawFrom left held s

theorem resume_eq_settle (j : Job) (s : State) : resume j s = settle (resumeRun j s) := by
  cases j <;> rfl

theorem resumeRun_keepsControl (j : Job) (s : State) : KeepsControl (fun _ => True) s (resumeRun j s) := by
  have hloop (bound : Option Nat) (p : Point) : KeepsControl (fun _ => True) s ((decResume bound p s).mapWait loopJob) :=
    .mapWait ((decResume_keepsControl bound p s).mono (fun _ _ hd => hd) (fun _ _ hw => ⟨trivial, hw.2⟩) fun _ hf => hf)
  cases j with
  | sample p => exact .mapWait (decBody_keepsControl p s)
  | steps left p => exact hloop (some left) p
  | frame p => exact (hloop none p).bind fun _ t ht => verifyFrom_keepsControl ht _ []
  | verify sum got => exact verifyFrom_keepsControl ⟨rfl, rfl⟩ sum got
  | raw left held => exact rawFrom_keepsControl left held s

/-! ### One read of VERIFY and of RAW -/

theorem verifyFrom_full {sum : Word} {got : List Byte} {s : State} (hfull : 4 ≤ got.length) :
    verifyFrom sum got s = .done () (concludeVerify sum (littleEndian (config.trailerOrder got)) s) := by
  rw [verifyFrom, Nat.sub_eq_zero_of_le hfull]
  rfl

section
variable {sum : Word} {got : List Byte} {b : Byte} {s t : State} (hshort : got.length < 4)
include hshort

/-- A trailer byte that is there is read (41_checksum.md R132). -/
theorem verifyFrom_got (hb : nextByte s = .got b t) : verifyFrom sum got s = verifyFrom sum (got ++ [b]) t := by
  have hleft : 4 - got.length = 4 - (got ++ [b]).length + 1 := by
    rw [List.length_append, List.length_singleton]
    omega
  simp only [verifyFrom, hleft, readTrailer, hb, trailerByte_eq]

theorem verifyFrom_notYet (hb : nextByte s = .notYet) : verifyFrom sum got s = .wait (.verify sum got) s := by
  have hleft : 4 - got.length = 3 - got.length + 1 := by omega
  simp only [verifyFrom, hleft, readTrailer, hb, Run.bind_wait]

theorem verifyFrom_failed (hb : nextByte s = .failed t) : verifyFrom sum got s = .failed t := by
  have hleft : 4 - got.length = 3 - got.length + 1 := by omega
  simp only [verifyFrom, hleft, readTrailer, hb, Run.bind_failed]

end

/-- A byte of RAW that is there is read, and held until it is emitted (46_config_control.md R189). -/
theorem passBytes_succ_got {left : Nat} {b : Byte} {s t : State} (hb : nextByte s = .got b t) :
    passBytes (left + 1) s = rawFrom left (some b) t := by
  simp only [passBytes, rawFrom, hb]

section
variable (h : Provision)

theorem verifyFrom_act (sum : Word) (got : List Byte) (s : State) :
    verifyFrom sum got (h.act s) = takenUp h.act resumeRun (verifyFrom sum got s) := by
  induction hn : 4 - got.length generalizing got s with
  | zero =>
    have hfull : 4 ≤ got.length := by omega
    rw [verifyFrom_full hfull, verifyFrom_full hfull]
    rfl
  | succ n ih =>
    have hshort : got.length < 4 := by omega
    cases hb : nextByte s with
    | notYet => rw [verifyFrom_notYet hshort hb, takenUp_wait, resumeRun]
    | failed t => rw [verifyFrom_failed hshort hb, verifyFrom_failed hshort (nextByte_act_failed h hb), takenUp_failed]
    | got b t =>
      rw [verifyFrom_got hshort hb, verifyFrom_got hshort (nextByte_act_got h hb)]
      exact ih _ t (by rw [List.length_append, List.length_singleton]; omega)

/-- RAW with a byte in hand, when the reads after it are known to be taken up (46_config_control.md R189). -/
theorem rawFrom_some_act {left : Nat} (b : Byte)
    (hpass : ∀ t, passBytes left (h.act t) = takenUp h.act resumeRun (passBytes left t)) (s : State) :
    rawFrom left (some b) (h.act s) = takenUp h.act resumeRun (rawFrom left (some b) s) := by
  cases he : emitRaw b s with
  | none => simp only [rawFrom, he, takenUp_wait, resumeRun]
  | some t => simp only [rawFrom, he, emitRaw_act h he, hpass]

theorem passBytes_act (left : Nat) (s : State) :
    passBytes left (h.act s) = takenUp h.act resumeRun (passBytes left s) := by
  induction left generalizing s with
  | zero => rfl
  | succ left ih =>
    cases hb : nextByte s with
    | notYet => simp only [passBytes, hb, takenUp_wait, resumeRun, rawFrom]
    | failed t => simp only [passBytes, hb, nextByte_act_failed h hb, takenUp_failed]
    | got b t =>
      rw [passBytes_succ_got hb, passBytes_succ_got (nextByte_act_got h hb)]
      exact rawFrom_some_act h b ih t

/-- A bounded loop, the rest of a DEC_STEP (45_frame_sequencing.md R167). -/
theorem decResume_some_act (left : Nat) (p : Point) (s : State) :
    (decResume (some left) p (h.act s)).mapWait loopJob =
      takenUp h.act resumeRun ((decResume (some left) p s).mapWait loopJob) := by
  change (loopFrom (some left, p) (h.act s)).mapWait loopJob = _
  rw [loopFrom_act]
  refine takenUp_mapWait fun place t hw => ?_
  have hkeeps := decResume_keepsControl (some left) p s
  rw [show decResume (some left) p s = .wait place t from hw] at hkeeps
  obtain ⟨_ | left', q⟩ := place
  · cases hkeeps.1
  · rfl

/-- An unbounded loop and its VERIFY, the rest of a DEC_FRAME (45_frame_sequencing.md R168). -/
theorem decResume_none_act (p : Point) (s : State) :
    thenVerify (decResume none p (h.act s)) = takenUp h.act resumeRun (thenVerify (decResume none p s)) := by
  change thenVerify (loopFrom (none, p) (h.act s)) = takenUp h.act resumeRun (thenVerify (loopFrom (none, p) s))
  have hkeeps := decResume_keepsControl none p s
  rw [loopFrom_act]
  cases hr : loopFrom (none, p) s with
  | done a t => exact verifyFrom_act h _ [] t
  | failed t => rfl
  | stuck e => rfl
  | wait place t =>
    rw [show decResume none p s = .wait place t from hr] at hkeeps
    obtain ⟨_ | left', q⟩ := place
    · rfl
    · cases hkeeps.1

/-- The law behind both statements on waiting: with more bytes and more room there from the start, the rest of a command is
what it is without them, taken up with them where it waits (20_memory.md R61(b), R66). -/
theorem resumeRun_act (j : Job) (s : State) : resumeRun j (h.act s) = takenUp h.act resumeRun (resumeRun j s) := by
  cases j with
  | sample p =>
    rw [resumeRun, decBody_act]
    exact takenUp_mapWait fun q t _ => rfl
  | steps left p => exact decResume_some_act h left p s
  | frame p => exact decResume_none_act h p s
  | verify sum got => exact verifyFrom_act h sum got s
  | raw left held =>
    cases held with
    | none => exact passBytes_act h left s
    | some b => exact rawFrom_some_act h b (passBytes_act h left) s

end

/-! ## How a command comes to be in flight -/

/-- The command in flight, at its first place, that a streaming command is (45_frame_sequencing.md R166 to R168,
41_checksum.md R132, 46_config_control.md R189). -/
def startedJob (i : Instr) (s : State) : Option Job :=
  match i with
  | .decSample => some (.sample (.unary 0))
  | .decStep n => if n = 0 ∨ s.phase ≠ .decoding then none else some (.steps n (.unary 0))
  | .decFrame => some (if s.phase = .decoding then .frame (.unary 0) else .verify (s.crc ^^^ config.crcXorOut) [])
  | .verify => some (.verify (s.crc ^^^ config.crcXorOut) [])
  | .raw n => some (.raw n none)
  | _ => none

theorem startedJob_act (h : Provision) (i : Instr) (s : State) : startedJob i (h.act s) = startedJob i s := by
  cases i <;> rfl

theorem decRun_of_go {bound : Option Nat} {s : State} (hbound : bound ≠ some 0) (hphase : s.phase = .decoding) :
    decRun bound s = decResume bound (.unary 0) s := by
  rw [decRun_unroll, if_neg (by simp [hbound, hphase])]

theorem decRun_of_stop {bound : Option Nat} {s : State} (hstop : bound = some 0 ∨ s.phase ≠ .decoding) :
    decRun bound s = .done () s := by
  rw [decRun_unroll, if_pos hstop]

theorem ownRule_started {i : Instr} {j : Job} {s : State} (hj : startedJob i s = some j) : ownRule i s = resume j s := by
  cases i with
  | decSample | verify | raw => cases hj; rfl
  | decStep n =>
    obtain ⟨hgo, rfl⟩ : (n ≠ 0 ∧ s.phase = .decoding) ∧ .steps n (.unary 0) = j := by simpa [startedJob] using hj
    rw [ownRule, decRun_of_go (by simpa using hgo.1) hgo.2, resume]
  | decFrame =>
    by_cases hphase : s.phase = .decoding
    · obtain rfl : .frame (.unary 0) = j := by simpa [startedJob, hphase] using hj
      rw [ownRule, decRun_of_go (by simp) hphase, resume]
    · obtain rfl : .verify (s.crc ^^^ config.crcXorOut) [] = j := by simpa [startedJob, hphase] using hj
      rw [ownRule, decRun_of_stop (.inr hphase)]
      rfl
  | nop | cfgNch | cfgBps | cfgFmt | cfgKey | cfgFlen | frameInit | rdReset | softReset => cases hj

theorem configure_inFlight {c : Prop} [Decidable c] {s u t : State} (hu : u.inFlight = s.inFlight)
    (h : (if c then .next u else .next (raise .errCfg s) : Result) = .next t) : t.inFlight = s.inFlight := by
  split at h
  · cases h; exact hu
  · cases h; rfl

/-- A command that starts nothing leaves nothing in flight. -/
theorem ownRule_inFlight {i : Instr} {s t : State} (hs : s.inFlight = none) (hj : startedJob i s = none)
    (h : ownRule i s = .next t) : t.inFlight = none := by
  cases i with
  | nop | cfgKey | rdReset => cases h; exact hs
  | softReset => cases h; rfl
  | cfgNch | cfgBps | cfgFlen | frameInit => exact (configure_inFlight (by rfl) h).trans hs
  | cfgFmt f =>
    rw [ownRule] at h
    split at h
    · cases h; exact hs
    · exact (configure_inFlight (by rfl) h).trans hs
  | decStep n =>
    have hstop : some n = some 0 ∨ s.phase ≠ .decoding := by simpa [startedJob, or_iff_not_imp_left] using hj
    rw [ownRule, decRun_of_stop hstop] at h
    cases h
    exact hs
  | decSample | decFrame | verify | raw => cases hj

/-- A command that ends in flight is taken up from its first place, whatever the host provides before. -/
theorem exec_takes_up {i : Instr} {s t : State} (hs : s.inFlight = none) (hexec : exec i s = .next t)
    (hwait : t.inFlight ≠ none) :
    ∃ j, resume j s = .next t ∧ ∀ h : Provision, exec i (h.act s) = resume j (h.act s) := by
  rw [exec_eq_prologue] at hexec
  rcases prologue_next hexec with rfl | ⟨haccepts, hown⟩
  · exact absurd hs hwait
  · cases hj : startedJob i s with
    | none => exact absurd (ownRule_inFlight hs hj hown) hwait
    | some j =>
      refine ⟨j, (ownRule_started hj).symm.trans hown, fun h => ?_⟩
      rw [exec_eq_prologue, prologue_accepted (s := h.act s) haccepts]
      exact ownRule_started ((startedJob_act h i s).trans hj)

theorem step_inFlight {s : State} {j : Job} (hreset : s.resetReq = false) (hflight : s.inFlight = some j) :
    step s = resume j { s with inFlight := none } := by
  simp [step, hreset, hflight]

theorem step_idle {s : State} (hreset : s.resetReq = false) (hflight : s.inFlight = none) (hcmd : s.cmd = []) :
    step s = .next s := by
  simp [step, hreset, hflight, hcmd, fetchCommand]

theorem step_illegal {s : State} {w : Word} {rest : List Word} {why : Illegal} (hreset : s.resetReq = false)
    (hflight : s.inFlight = none) (hcmd : s.cmd = w :: rest) (hdecode : decode w = .illegal why) :
    step s = .next (raise .errCmd { s with cmd := rest }) := by
  simp [step, hreset, hflight, hcmd, fetchCommand, hdecode]

/-- A step that ends with a command in flight took it up, from flight or from its first place, and takes up the same one
whatever the host provides before. -/
theorem step_takes_up {s t : State} (hreset : s.resetReq = false) (hstep : step s = .next t) (hwait : t.inFlight ≠ none) :
    ∃ j m, m.inFlight = none ∧ m.resetReq = false ∧ resume j m = .next t ∧
      ∀ h : Provision, step (h.act s) = resume j (h.act m) := by
  cases hflight : s.inFlight with
  | some j =>
    rw [step_inFlight hreset hflight] at hstep
    exact ⟨j, { s with inFlight := none }, rfl, hreset, hstep, fun h => step_inFlight (s := h.act s) hreset hflight⟩
  | none =>
    cases hcmd : s.cmd with
    | nil =>
      rw [step_idle hreset hflight hcmd] at hstep
      cases hstep
      exact absurd hflight hwait
    | cons w rest =>
      cases hdecode : decode w with
      | illegal why =>
        rw [step_illegal hreset hflight hcmd hdecode] at hstep
        cases hstep
        exact absurd hflight hwait
      | command i =>
        rw [step_command hreset hflight hcmd hdecode] at hstep
        obtain ⟨j, hj, hact⟩ := exec_takes_up (s := { s with cmd := rest }) hflight hstep hwait
        exact ⟨j, { s with cmd := rest }, hflight, hreset, hj, fun h =>
          (step_command (s := h.act s) hreset hflight hcmd hdecode).trans (hact h)⟩

/-- A command that ends in flight stands at a wait of its run. -/
theorem resumeRun_of_waiting {j : Job} {s t : State} (hs : s.inFlight = none) (h : resume j s = .next t)
    (hwait : t.inFlight ≠ none) :
    ∃ q m, resumeRun j s = .wait q m ∧ ControlKept s m ∧ t = { m with inFlight := some q } := by
  have hkeeps := resumeRun_keepsControl j s
  rw [resume_eq_settle] at h
  rcases settle_next h with hr | hr | ⟨q, m, hr, ht⟩
  · rw [hr] at hkeeps
    exact absurd (hkeeps.1.trans hs) hwait
  · rw [hr] at hkeeps
    exact absurd (hkeeps.1.trans hs) hwait
  · rw [hr] at hkeeps
    exact ⟨q, m, hr, hkeeps.2, ht⟩

/-! ## The statements on waiting -/

theorem step_act_waiting (h : Provision) {s t : State} (hreset : s.resetReq = false) (hstep : step s = .next t)
    (hwait : t.inFlight ≠ none) : step (h.act t) = step (h.act s) := by
  obtain ⟨j, m, hflight, hmreset, hresume, hact⟩ := step_takes_up hreset hstep hwait
  obtain ⟨q, u, hr, ⟨huflight, hureset⟩, rfl⟩ := resumeRun_of_waiting hflight hresume hwait
  have hu : { u with inFlight := none } = u := by rw [← huflight.trans hflight]
  calc step (h.act { u with inFlight := some q })
      = resume q (h.act { u with inFlight := none }) := step_inFlight (hureset.trans hmreset) rfl
    _ = settle (resumeRun q (h.act u)) := by rw [hu, resume_eq_settle]
    _ = settle (resumeRun j (h.act m)) := by rw [resumeRun_act h j, hr, takenUp_wait]
    _ = step (h.act s) := by rw [hact, resume_eq_settle]

/-- Settles O8: a step that ends in a wait is the run of a command up to it, and the run is taken up there. -/
theorem waitingChangesNoResult : Obligations.WaitingChangesNoResult := by
  intro s t pcmMore rawMore items hreset hstep hwait
  exact step_act_waiting ⟨pcmMore, rawMore, items⟩ hreset hstep hwait

/-- Settles O7: a host that provides nothing changes nothing, so the command goes on as it did and waits where it waits. -/
theorem waitingKeepsAllState : Obligations.WaitingKeepsAllState := by
  intro s t hreset hstep hwait
  have hsame := step_act_waiting ⟨some 0, some 0, []⟩ hreset hstep hwait
  rw [act_nothing, act_nothing] at hsame
  exact hsame.trans hstep

/-! ## Packing -/

/-- The value of bytes, least significant first. -/
abbrev bytesValue (bytes : List Byte) : Nat := bytes.foldr (fun b acc => b.toNat + 256 * acc) 0

/-- Bytes cut out of a word from byte `k` on spell what is left of it there, modulo their number. -/
theorem bytesValue_extract (v : Word) (depth k : Nat) :
    bytesValue ((List.range depth).map fun j => v.extractLsb' (8 * (k + j)) 8) = v.toNat / 256 ^ k % 256 ^ depth := by
  induction depth generalizing k with
  | zero => simp [Nat.mod_one]
  | succ depth ih =>
    have hfirst : (v.extractLsb' (8 * (k + 0)) 8).toNat = v.toNat / 256 ^ k % 256 := by
      rw [BitVec.extractLsb'_toNat, Nat.shiftRight_eq_div_pow, Nat.add_zero, Nat.pow_mul]
    have hrest := ih (k + 1)
    simp only [List.range_succ_eq_map, List.map_cons, List.map_map, bytesValue, List.foldr_cons, hfirst]
    rw [pow_succ', Nat.mod_mul, Nat.div_div_eq_div_mul, ← pow_succ, ← hrest]
    simp only [Function.comp_def, Nat.succ_eq_add_one, Nat.add_right_comm k 1, Nat.add_assoc]

theorem length_sampleBytes (depth : Nat) (v : Word) : (sampleBytes depth v).length = depth := by
  simp [sampleBytes_eq]

theorem bytesValue_sampleBytes (depth : Nat) (v : Word) :
    bytesValue (sampleBytes depth v) = v.toNat % 256 ^ depth := by
  simpa [sampleBytes_eq] using bytesValue_extract v depth 0

theorem stepBytes_succ (n depth : Nat) (x : Vector Word 6) :
    stepBytes (n + 1) depth x = stepBytes n depth x ++ sampleBytes depth (cacheAt x n) := by
  simp [stepBytes, List.range_succ]

theorem length_stepBytes (n depth : Nat) (x : Vector Word 6) : (stepBytes n depth x).length = n * depth := by
  induction n with
  | zero => simp [stepBytes]
  | succ n ih => rw [stepBytes_succ, List.length_append, ih, length_sampleBytes, Nat.succ_mul]

/-- Each sample stands at its place in the time-step (44_decorrelator_output.md R158). -/
theorem take_drop_stepBytes {n c : Nat} (depth : Nat) (x : Vector Word 6) (hc : c < n) :
    ((stepBytes n depth x).drop (c * depth)).take depth = sampleBytes depth (cacheAt x c) := by
  induction n with
  | zero => omega
  | succ n ih =>
    rw [stepBytes_succ]
    rcases Nat.lt_succ_iff_lt_or_eq.mp hc with hlt | rfl
    · have hinside : c * depth + depth ≤ (stepBytes n depth x).length := by
        rw [length_stepBytes, ← Nat.succ_mul]
        exact Nat.mul_le_mul_right depth hlt
      rw [List.drop_append_of_le_length (by omega), List.take_append_of_le_length (by rw [List.length_drop]; omega)]
      exact ih hlt
    · rw [List.drop_left' (length_stepBytes c depth x), List.take_of_length_le (length_sampleBytes ..).le]

theorem cacheAt_eq (x : Vector Word 6) (c : Fin 6) : cacheAt x c.val = x[c] := by
  simp [cacheAt]

/-- Settles O39. -/
theorem samplesArePackedLittleEndian : Obligations.SamplesArePackedLittleEndian :=
  ⟨fun depth v _ => ⟨length_sampleBytes depth v, bytesValue_sampleBytes depth v⟩,
    fun n depth x => ⟨length_stepBytes n depth x, fun c hc => cacheAt_eq x c ▸ take_drop_stepBytes depth x hc⟩⟩

/-! ## A wait inside a codeword -/

/-- `s` after its unread bits, the rest of the bit cache and then the bytes there are, have all been read (20_memory.md
R61, R63). -/
def drained (bytes : List Byte) (s : State) : State :=
  { s with
    inp := [], crc := crcAfter s.crc bytes, count := s.count + BitVec.ofNat 32 bytes.length
    bcache := if bytes = [] then s.bcache >>> s.bcount.toNat else 0, bcount := 0 }

/-- The source has bytes only, and reading all the bits there are leads from `s` to `d`. -/
def DrainsTo (d s : State) : Prop := ∃ bytes, s.inp = delivered bytes ∧ drained bytes s = d

/-- A bit read on the way leaves the end of the way as it was. -/
theorem DrainsTo.of_got {d s t : State} {b : Bool} (hd : DrainsTo d s) (h : nextBit s = .got b t) : DrainsTo d t := by
  obtain ⟨bytes, hinp, rfl⟩ := hd
  by_cases h0 : s.bcount = 0
  · cases bytes with
    | nil => simp [nextBit_empty h0 hinp] at h
    | cons c bytes =>
      rw [nextBit_fetch h0 hinp, Got.got.injEq] at h
      obtain ⟨-, rfl⟩ := h
      have hcache : c >>> 1 >>> 7 = 0 := by rw [← BitVec.shiftRight_add]; exact BitVec.ushiftRight_eq_zero (by decide)
      exact ⟨bytes, rfl, by simpa [drained, crcAfter, hcache] using add_one_add_ofNat s.count bytes.length⟩
  · rw [nextBit_cached h0, Got.got.injEq] at h
    obtain ⟨-, rfl⟩ := h
    have hcount : s.bcount.toNat = 1 + (s.bcount - 1).toNat := by
      have : s.bcount.toNat ≠ 0 := fun e => h0 (BitVec.eq_of_toNat_eq e)
      bv_omega
    exact ⟨bytes, hinp, by simp only [drained, hcount, BitVec.shiftRight_add]⟩

/-- At its end no bit is there, and a read has to wait. -/
theorem DrainsTo.notYet {d s : State} (hd : DrainsTo d s) (h : unreadBits s = []) : nextBit s = .notYet ∧ s = d := by
  obtain ⟨bytes, hinp, rfl⟩ := hd
  obtain ⟨h0, -⟩ := unreadBits_nil h
  cases bytes with
  | nil =>
    have hnil : s.inp = [] := hinp
    have hkept : drained [] s = { s with inp := [], bcount := 0 } := by simp [drained, crcAfter, h0]
    exact ⟨nextBit_empty h0 hnil, by rw [hkept, ← h0, ← hnil]⟩
  | cons c bytes =>
    rcases nextBit_of_no_bits h with ⟨hnil, -⟩ | ⟨rest, hfail, -⟩
    · simp [hinp, delivered] at hnil
    · simp [hinp, delivered] at hfail

theorem DrainsTo.readUnary_done {d s t : State} {n : Nat} {u u' : Word} (hd : DrainsTo d s)
    (h : readUnary n u s = .done u' t) : DrainsTo d t := by
  induction n generalizing u s with
  | zero => simp [readUnary] at h
  | succ n ih =>
    cases hb : nextBit s with
    | notYet => simp [readUnary, hb] at h
    | failed x => simp [readUnary, hb] at h
    | got b m =>
      cases b with
      | false =>
        rw [readUnary_got_end hb, Run.done.injEq] at h
        exact h.2 ▸ hd.of_got hb
      | true =>
        rw [readUnary_got_run hb] at h
        exact ih (hd.of_got hb) h

/-- Ones to the end of the bits: the run is not over (40_entropy_decoder.md R110). -/
theorem DrainsTo.readUnary_waits {d s : State} {n k : Nat} (hd : DrainsTo d s) (hn : k < n) (u : Word)
    (h : unreadBits s = List.replicate k true) : ∃ p, readUnary n u s = .wait p d := by
  obtain ⟨n, rfl⟩ : ∃ m, n = m + 1 := ⟨n - 1, by omega⟩
  induction k generalizing n u s with
  | zero =>
    obtain ⟨hbit, rfl⟩ := hd.notYet h
    exact ⟨.unary u, by simp only [readUnary, hbit]⟩
  | succ k ih =>
    obtain ⟨n, rfl⟩ : ∃ m, n = m + 1 := ⟨n - 1, by omega⟩
    obtain ⟨t, hbit, hrest⟩ := nextBit_of_bits (h.trans List.replicate_succ)
    rw [readUnary_got_run hbit]
    exact ih (hd.of_got hbit) (u + 1) hrest n (by omega)

/-- Fewer bits than the field has: the suffix is not over (40_entropy_decoder.md R111). -/
theorem DrainsTo.readBits_waits {d s : State} {left : Nat} (hd : DrainsTo d s) (level : Level) (a : Word) (i : Nat)
    (acc : Word) (h : (unreadBits s).length < left) : ∃ p, readBits level a left i acc s = .wait p d := by
  induction left generalizing i acc s with
  | zero => omega
  | succ left ih =>
    cases hbits : unreadBits s with
    | nil =>
      obtain ⟨hbit, rfl⟩ := hd.notYet hbits
      exact ⟨.suffix level a (left + 1) i acc, by simp only [readBits, hbit]⟩
    | cons b rest =>
      obtain ⟨t, hbit, hrest⟩ := nextBit_of_bits hbits
      rw [hbits, List.length_cons] at h
      simp only [readBits, hbit]
      exact ih (hd.of_got hbit) _ _ (by rw [hrest]; omega)

/-- After `u` one-bits the suffix is read, of the width `u` gives it (30_encoding.md R90, R91). -/
theorem afterUnary_ofNat (ch : Channel) {u : Nat} (hu : u < 2 ^ 32) :
    ∃ level a, ∀ s, afterUnary ch (BitVec.ofNat 32 u) s = readSuffix level a (suffixWidth ch u) 0 0 s := by
  by_cases h0 : u = 0
  · exact ⟨_, _, fun s => by rw [afterUnary_eq, if_pos (by rw [h0]; rfl), suffixWidth, if_pos h0]⟩
  · have hne : BitVec.ofNat 32 u ≠ 0 := fun h => h0 (by
      rw [← Nat.mod_eq_of_lt hu, ← BitVec.toNat_ofNat, h]
      rfl)
    exact ⟨_, _, fun s => by rw [afterUnary_eq, if_neg hne, suffixWidth, if_neg h0]⟩

/-- Bits that stop inside a codeword: `DecodeValue` takes them all and waits (30_encoding.md R92, 20_memory.md R61(b)). -/
theorem DrainsTo.decodeValue_waits {d s : State} {ch : Channel} (hd : DrainsTo d s)
    (hshort : shortOfCodeword ch (unreadBits s)) : ∃ p, decodeValue ch 0 s = .wait p d := by
  have hbound := length_unreadBits_le s
  unfold decodeValue
  rcases hshort with ⟨k, hbits⟩ | ⟨u, suffix, hbits, hu, hlength⟩
  · rw [hbits, List.length_replicate] at hbound
    obtain ⟨p, hp⟩ := hd.readUnary_waits (Nat.lt_succ_of_le hbound) 0 hbits
    exact ⟨p, by rw [hp, Run.bind_wait]⟩
  · rw [hbits, codeword, List.length_append, List.length_replicate] at hbound
    obtain ⟨m, -, hdone, hrest, -⟩ := readUnary_of_bits u (n := bitsAvail s + 1) (u := 0) (by omega) hbits
    have hcount : (0 + BitVec.ofNat 32 u : Word) = BitVec.ofNat 32 u := by simp
    obtain ⟨level, a, hsuffix⟩ := afterUnary_ofNat ch hu
    obtain ⟨p, hp⟩ := (hd.readUnary_done hdone).readBits_waits level a 0 0 (hrest ▸ hlength)
    exact ⟨p, by rw [hdone, Run.bind_done, hcount, hsuffix, readSuffix, hp, Run.bind_wait]⟩

theorem geometryOk_of_insideFrame {s : State} (h : insideFrame s) : geometryOk s = true := by
  obtain ⟨hch, hnch, hbps⟩ := h
  simp only [geometryOk, Bool.and_eq_true, decide_eq_true_iff]
  exact ⟨⟨hnch, hch⟩, (legalBps_iff _).mpr hbps⟩

/-- Settles O43: the codeword's bits that are there are taken, and its next bit is waited for. -/
theorem decSampleWaitsInsideACodeword : Obligations.DecSampleWaitsInsideACodeword := by
  intro s bytes hphase hinside hinp hshort
  have hd : DrainsTo (drained bytes s) s := ⟨bytes, hinp, rfl⟩
  obtain ⟨p, hp⟩ := hd.decodeValue_waits hshort
  have hbody : decBody (.unary 0) s = .wait p (drained bytes s) := by
    rw [decBody_reads (p := .unary 0) trivial (geometryOk_of_insideFrame hinside), valueFrom, hp, Run.bind_wait]
  refine ⟨_, p, ?_, rfl⟩
  rw [exec_eq_prologue, prologue_accepted (by rw [hphase]; rfl), ownRule, resume, hbody]
  rfl

end Sys2Proof.Proofs.Memory

/-! Proofs of the statements about 30_encoding.md: the decoder and the encoder (R80 to R82), the opcode map (R82, R84), the
printed words (R86), the illegal words (R85) and the codewords (R90, R91). The decoder is first said in terms of a command's
form: its opcode, and the width its format gives the operand field. -/

namespace Sys2Proof.Proofs.Encoding

open Sys2Proof Sys2Proof.Machine

/-! ## The form of a command -/

/-- How many low bits of `w[27:0]` the format of a command uses (30_encoding.md R80). -/
def operandWidth : Instr → Nat
  | .cfgNch _ => 4
  | .cfgBps _ => 6
  | .cfgFmt _ => 2
  | .cfgKey _ _ => 11
  | .cfgFlen _ | .decStep _ | .raw _ => 28
  | .nop | .frameInit | .decSample | .decFrame | .verify | .rdReset | .softReset => 0

/-- The command of the same opcode whose operands are read from the operand field `f` (30_encoding.md R80, R81). -/
def withField (f : Nat) : Instr → Instr
  | .cfgNch _ => .cfgNch f
  | .cfgBps _ => .cfgBps f
  | .cfgFmt _ => .cfgFmt f
  | .cfgKey _ _ => .cfgKey (f / 256) (f % 256)
  | .cfgFlen _ => .cfgFlen f
  | .decStep _ => .decStep f
  | .raw _ => .raw f
  | i => i

@[simp] theorem opcode_withField (f : Nat) (i : Instr) : (withField f i).opcode = i.opcode := by cases i <;> rfl
@[simp] theorem mnemonic_withField (f : Nat) (i : Instr) : (withField f i).mnemonic = i.mnemonic := by cases i <;> rfl

theorem operandWidth_le (i : Instr) : operandWidth i ≤ 28 := by cases i <;> simp [operandWidth]

/-- Operands read from a field of the format's width fit. -/
theorem wellFormed_withField {f : Nat} {i : Instr} (hf : f < 2 ^ operandWidth i) : (withField f i).wellFormed = true := by
  cases i
  case cfgKey k d =>
    simp only [operandWidth] at hf
    simp only [withField, Instr.wellFormed, Bool.and_eq_true, decide_eq_true_iff]
    omega
  case cfgNch | cfgBps | cfgFmt | cfgFlen | decStep | raw => exact decide_eq_true hf
  case nop | frameInit | decSample | decFrame | verify | rdReset | softReset => rfl

/-- The field the operands were read from is the one they are encoded with. -/
theorem operandField_withField {f : Nat} {i : Instr} (hf : f < 2 ^ operandWidth i) :
    (withField f i).operandField = f := by
  cases i
  case cfgKey k d => exact Nat.div_add_mod f 256
  case cfgNch | cfgBps | cfgFmt | cfgFlen | decStep | raw => rfl
  case nop | frameInit | decSample | decFrame | verify | rdReset | softReset => exact (Nat.lt_one_iff.mp hf).symm

/-- A well-formed command's operand field has the width its format gives it (30_encoding.md R80, R81). -/
theorem operandField_lt {i : Instr} (h : i.wellFormed = true) : i.operandField < 2 ^ operandWidth i := by
  cases i
  case cfgKey k d =>
    simp only [Instr.wellFormed, Bool.and_eq_true, decide_eq_true_iff] at h
    simp only [Instr.operandField, operandWidth]
    omega
  case cfgNch | cfgBps | cfgFmt | cfgFlen | decStep | raw => exact of_decide_eq_true h
  case nop | frameInit | decSample | decFrame | verify | rdReset | softReset => exact Nat.one_pos

/-- A well-formed command's operands are read back from its operand field. -/
theorem withField_operandField {i : Instr} (h : i.wellFormed = true) : withField i.operandField i = i := by
  cases i
  case cfgKey k d =>
    simp only [Instr.wellFormed, Bool.and_eq_true, decide_eq_true_iff] at h
    simp only [Instr.operandField, withField, Instr.cfgKey.injEq]
    omega
  all_goals rfl

/-- An encoded well-formed command holds its opcode and its operand field, law by law for the fourteen
(30_encoding.md R80). -/
theorem slices_encode (i : Instr) : Laws.EncodedFields.Statement i := by
  cases i with
  | nop => exact Laws.EncodedFields.nop
  | cfgNch n => exact Laws.EncodedFields.cfgNch n
  | cfgBps b => exact Laws.EncodedFields.cfgBps b
  | cfgFmt f => exact Laws.EncodedFields.cfgFmt f
  | cfgKey k d => exact Laws.EncodedFields.cfgKey k d
  | cfgFlen n => exact Laws.EncodedFields.cfgFlen n
  | frameInit => exact Laws.EncodedFields.frameInit
  | decSample => exact Laws.EncodedFields.decSample
  | decStep n => exact Laws.EncodedFields.decStep n
  | decFrame => exact Laws.EncodedFields.decFrame
  | verify => exact Laws.EncodedFields.verify
  | raw n => exact Laws.EncodedFields.raw n
  | rdReset => exact Laws.EncodedFields.rdReset
  | softReset => exact Laws.EncodedFields.softReset

/-! ## The decoder by its forms -/

/-- The must-be-zero bits above a field are the rest of `w[27:0]` (30_encoding.md R80). -/
theorem slice_above {k : Nat} (hk : k ≤ 28) (w : Word) : slice w 27 k = slice w 27 0 / 2 ^ k := by
  have hsplit : 2 ^ 28 = 2 ^ k * 2 ^ (28 - k) := by rw [← pow_add, Nat.add_sub_cancel' hk]
  simp only [slice, pow_zero, Nat.div_one, Nat.reduceAdd, Nat.sub_zero]
  rw [hsplit, Nat.mod_mul_right_div_self]

/-- They are zero exactly when `w[27:0]` fits the field. -/
theorem slice_above_eq_zero_iff {k : Nat} (hk : k ≤ 28) (w : Word) : slice w 27 k = 0 ↔ slice w 27 0 < 2 ^ k := by
  rw [slice_above hk, Nat.div_eq_zero_iff_lt (Nat.two_pow_pos k)]

/-- The low field of `w[27:0]` is all of it, if that fits. -/
theorem slice_low_eq {k : Nat} {w : Word} (h0 : 0 < k) (hk : k ≤ 28) (hf : slice w 27 0 < 2 ^ k) :
    slice w (k - 1) 0 = slice w 27 0 := by
  have hlow : slice w (k - 1) 0 = slice w 27 0 % 2 ^ k := by
    simp only [slice, pow_zero, Nat.div_one, Nat.sub_add_cancel h0, Nat.sub_zero]
    exact (Nat.mod_mod_of_dvd _ (Nat.pow_dvd_pow 2 hk)).symm
  rw [hlow, Nat.mod_eq_of_lt hf]

/-- A word `w` decoded as a command of the form of `i`: legal exactly when `w[27:0]` fits the width of the format
(30_encoding.md R80, R85). -/
def decodedAs (w : Word) (i : Instr) : Decoded :=
  if slice w 27 0 < 2 ^ operandWidth i then .command (withField (slice w 27 0) i)
  else .illegal (.mustBeZero (slice w 31 28))

theorem decodedAs_of_lt {w : Word} {i : Instr} (hf : slice w 27 0 < 2 ^ operandWidth i) :
    decodedAs w i = .command (withField (slice w 27 0) i) := if_pos hf

theorem decodedAs_of_not_lt {w : Word} {i : Instr} (hf : ¬slice w 27 0 < 2 ^ operandWidth i) :
    decodedAs w i = .illegal (.mustBeZero (slice w 31 28)) := if_neg hf

theorem formatZ_eq_decodedAs {w : Word} {i : Instr} (hwidth : operandWidth i = 0)
    (hmk : withField (slice w 27 0) i = i) : formatZ w i = decodedAs w i := by
  simp only [formatZ, decodedAs, hwidth, hmk, pow_zero, Nat.lt_one_iff]

theorem formatN_eq_decodedAs {k : Nat} {w : Word} {mk : Nat → Instr} {i : Instr} (h0 : 0 < k) (hwidth : operandWidth i = k)
    (hmk : withField (slice w 27 0) i = mk (slice w 27 0)) : formatN k w mk = decodedAs w i := by
  subst hwidth
  rw [formatN]
  by_cases hf : slice w 27 0 < 2 ^ operandWidth i
  · rw [if_pos ((slice_above_eq_zero_iff (operandWidth_le i) w).mpr hf), slice_low_eq h0 (operandWidth_le i) hf,
      decodedAs_of_lt hf, hmk]
  · rw [if_neg (mt (slice_above_eq_zero_iff (operandWidth_le i) w).mp hf), decodedAs_of_not_lt hf]

theorem formatKB_eq_decodedAs {w : Word} (k d : Nat) : formatKB w .cfgKey = decodedAs w (.cfgKey k d) := by
  rw [formatKB]
  by_cases hf : slice w 27 0 < 2 ^ 11
  · have hindex : slice w 10 8 = slice w 27 0 / 256 := by simp only [slice] at hf ⊢; omega
    have hbyte : slice w 7 0 = slice w 27 0 % 256 := by simp only [slice] at hf ⊢; omega
    rw [if_pos ((slice_above_eq_zero_iff (by decide) w).mpr hf), decodedAs_of_lt hf, hindex, hbyte, withField]
  · rw [if_neg (mt (slice_above_eq_zero_iff (by decide) w).mp hf), decodedAs_of_not_lt hf]

/-- A word with a command's opcode is decoded in that command's form (30_encoding.md R82). -/
theorem decode_of_opcode {w : Word} {i : Instr} (h : slice w 31 28 = i.opcode) : decode w = decodedAs w i := by
  cases i
  all_goals simp only [decode, h, Instr.opcode]
  case cfgKey k d => exact formatKB_eq_decodedAs k d
  case nop | frameInit | decSample | decFrame | verify | rdReset | softReset => exact formatZ_eq_decodedAs rfl rfl
  case cfgNch | cfgBps | cfgFmt | cfgFlen | decStep | raw => exact formatN_eq_decodedAs (by decide) rfl rfl

/-- A legal word has the opcode of its command (30_encoding.md R82). -/
theorem opcode_of_decode {w : Word} {i : Instr} (h : decode w = .command i) : slice w 31 28 = i.opcode := by
  unfold decode at h
  split at h
  case h_15 => simp at h
  all_goals
    simp only [BlockState.formatZ_eq_command, BlockState.formatN_eq_command, BlockState.formatKB_eq_command] at h
    obtain ⟨-, rfl⟩ := h
    assumption

/-- A word is the command `i` exactly when `i` is well-formed and the word holds its opcode and its operand field
(30_encoding.md R80 to R82). -/
theorem decode_eq_command_iff {w : Word} {i : Instr} :
    decode w = .command i ↔ i.wellFormed = true ∧ slice w 31 28 = i.opcode ∧ slice w 27 0 = i.operandField := by
  constructor
  · intro h
    have hopcode := opcode_of_decode h
    rw [decode_of_opcode hopcode] at h
    by_cases hf : slice w 27 0 < 2 ^ operandWidth i
    · have hi : withField (slice w 27 0) i = i := Decoded.command.inj ((decodedAs_of_lt hf).symm.trans h)
      exact ⟨hi ▸ wellFormed_withField hf, hopcode, by rw [← operandField_withField hf, hi]⟩
    · simp [decodedAs_of_not_lt hf] at h
  · rintro ⟨hwf, hopcode, hfield⟩
    rw [decode_of_opcode hopcode, decodedAs_of_lt (hfield ▸ operandField_lt hwf), hfield, withField_operandField hwf]

/-- Settles O1: the encoded word holds the command's two fields, which is what the decoder reads. -/
theorem decodeInvertsEncode : Obligations.DecodeInvertsEncode := by
  intro i hwf
  exact decode_eq_command_iff.mpr ⟨hwf, slices_encode i hwf⟩

/-- Settles O2: a word is no more than its two fields. -/
theorem encodeInvertsDecode : Obligations.EncodeInvertsDecode := by
  intro w i h
  obtain ⟨hwf, hopcode, hfield⟩ := decode_eq_command_iff.mp h
  refine ⟨hwf, ?_⟩
  rw [encode, ← hopcode, ← hfield, ← BlockState.toNat_eq_of_slices, BitVec.ofNat_toNat, BitVec.setWidth_eq]

/-- Settles O4: each printed word is the encoding of the command beside it. -/
theorem printedWordsDecode : Obligations.PrintedWordsDecode :=
  ⟨decodeInvertsEncode (.cfgNch 2) rfl, decodeInvertsEncode (.cfgBps 24) rfl, decodeInvertsEncode (.cfgKey 3 0x80) rfl,
    decodeInvertsEncode (.cfgFlen 46080) rfl, decodeInvertsEncode (.decStep 5) rfl, decodeInvertsEncode (.raw 18) rfl⟩

/-! ## The opcode map -/

/-- The row of a command: its opcode above zeros, under a mask that leaves out the operand's bits (30_encoding.md R82). -/
def rowOf (i : Instr) : OpcodeRow :=
  ⟨i.mnemonic, BitVec.ofNat 32 (i.opcode * 2 ^ 28), BitVec.allOnes 32 <<< operandWidth i⟩

@[simp] theorem rowOf_withField (f : Nat) (i : Instr) : rowOf (withField f i) = rowOf i := by cases i <;> rfl

/-- Every form of a command once, in the order of 30_encoding.md R82. -/
def forms : List Instr :=
  [.nop, .cfgNch 0, .cfgBps 0, .cfgFmt 0, .cfgKey 0 0, .cfgFlen 0, .frameInit, .decSample, .decStep 0, .decFrame, .verify,
    .raw 0, .rdReset, .softReset]

theorem opcodeMap_eq_map_forms : opcodeMap = forms.map rowOf := by decide

theorem withField_zero_mem_forms (i : Instr) : withField 0 i ∈ forms := by cases i <;> simp [forms, withField]

/-- The printed map is the rows of the commands, and of nothing else (30_encoding.md R82). -/
theorem mem_opcodeMap_iff {r : OpcodeRow} : r ∈ opcodeMap ↔ ∃ i, rowOf i = r := by
  rw [opcodeMap_eq_map_forms, List.mem_map]
  constructor
  · rintro ⟨i, -, hi⟩
    exact ⟨i, hi⟩
  · rintro ⟨i, rfl⟩
    exact ⟨withField 0 i, withField_zero_mem_forms i, rowOf_withField 0 i⟩

/-- Two rows that ask for the same opcode are one (30_encoding.md R82). -/
theorem opcodeMap_eq_of_mtch_eq : ∀ r ∈ opcodeMap, ∀ r' ∈ opcodeMap, r.mtch = r'.mtch → r = r' := by decide

theorem opcode_lt (i : Instr) : i.opcode < 16 := by cases i <;> simp [Instr.opcode]

/-- Under the mask of a row a word keeps its opcode and loses the operand's bits (30_encoding.md R82). -/
theorem toNat_and_mask {k : Nat} (hk : k ≤ 28) (w : Word) :
    (w &&& BitVec.allOnes 32 <<< k).toNat = slice w 31 28 * 2 ^ 28 + slice w 27 0 / 2 ^ k * 2 ^ k := by
  have hsplit : 2 ^ 28 = 2 ^ (28 - k) * 2 ^ k := by rw [← pow_add, Nat.sub_add_cancel hk]
  have hdiv : w.toNat / 2 ^ k = slice w 31 28 * 2 ^ (28 - k) + slice w 27 0 / 2 ^ k := by
    rw [BlockState.toNat_eq_of_slices w, hsplit, ← Nat.mul_assoc, Nat.add_comm,
      Nat.add_mul_div_right _ _ (Nat.two_pow_pos k), Nat.add_comm]
  rw [← BitVec.shiftLeft_ushiftRight, BitVec.toNat_shiftLeft, BitVec.toNat_ushiftRight, Nat.shiftRight_eq_div_pow,
    Nat.shiftLeft_eq, Nat.mod_eq_of_lt ((Nat.div_mul_le_self _ _).trans_lt w.isLt), hdiv, Nat.add_mul,
    Nat.mul_assoc, ← hsplit]

/-- A word matches a row exactly when it has the row's opcode and its operand field fits (30_encoding.md R82). -/
theorem matchesWord_rowOf_iff {w : Word} {i : Instr} :
    (rowOf i).matchesWord w = true ↔ slice w 31 28 = i.opcode ∧ slice w 27 0 < 2 ^ operandWidth i := by
  have hopcode := opcode_lt i
  have hfield : slice w 27 0 / 2 ^ operandWidth i * 2 ^ operandWidth i < 2 ^ 28 :=
    (Nat.div_mul_le_self _ _).trans_lt (Nat.mod_lt _ (Nat.two_pow_pos 28))
  have hzero : slice w 27 0 / 2 ^ operandWidth i * 2 ^ operandWidth i = 0 ↔ slice w 27 0 < 2 ^ operandWidth i := by
    rw [← Nat.div_eq_zero_iff_lt (Nat.two_pow_pos _), Nat.mul_eq_zero, or_iff_left (Nat.two_pow_pos _).ne']
  rw [OpcodeRow.matchesWord, beq_iff_eq, ← BitVec.toNat_inj, rowOf, toNat_and_mask (operandWidth_le i),
    BitVec.toNat_ofNat, ← hzero]
  simp only [Config.wordBits]
  omega

/-- Settles O3: the rows are the commands' rows, and a row says of a word what the decoder asks of it. -/
theorem legalExactlyWhenARowMatches : Obligations.LegalExactlyWhenARowMatches := by
  intro w
  refine ⟨fun i h => ?_, fun r hr hmatch => ?_, fun r hr r' hr' hmatch hmatch' => ?_⟩
  · obtain ⟨hwf, hopcode, hfield⟩ := decode_eq_command_iff.mp h
    exact ⟨rowOf i, mem_opcodeMap_iff.mpr ⟨i, rfl⟩,
      matchesWord_rowOf_iff.mpr ⟨hopcode, hfield ▸ operandField_lt hwf⟩, rfl⟩
  · obtain ⟨i, rfl⟩ := mem_opcodeMap_iff.mp hr
    obtain ⟨hopcode, hf⟩ := matchesWord_rowOf_iff.mp hmatch
    exact ⟨withField (slice w 27 0) i, (decode_of_opcode hopcode).trans (decodedAs_of_lt hf), mnemonic_withField _ i⟩
  · apply opcodeMap_eq_of_mtch_eq r hr r' hr'
    obtain ⟨i, rfl⟩ := mem_opcodeMap_iff.mp hr
    obtain ⟨i', rfl⟩ := mem_opcodeMap_iff.mp hr'
    obtain ⟨hopcode, -⟩ := matchesWord_rowOf_iff.mp hmatch
    obtain ⟨hopcode', -⟩ := matchesWord_rowOf_iff.mp hmatch'
    rw [rowOf, rowOf, ← hopcode, ← hopcode']

/-- Settles O6: a legal word would match the row of its command, so the word is illegal. -/
theorem illegalWordOnlySetsErrCmd : Obligations.IllegalWordOnlySetsErrCmd := by
  intro s w rest hreset hflight hcmd hnone
  cases hdecode : decode w with
  | illegal why => exact Memory.step_illegal hreset hflight hcmd hdecode
  | command i =>
    obtain ⟨hlegal, -, -⟩ := legalExactlyWhenARowMatches w
    obtain ⟨r, hr, hmatch, -⟩ := hlegal i hdecode
    simp [hnone r hr] at hmatch

/-! ## Codewords -/

/-- Every number below `2^k` is the value of a binary field of `k` bits (30_encoding.md R90). -/
theorem exists_fieldValue_eq {k n : Nat} (hn : n < 2 ^ k) : ∃ bits : List Bool, bits.length = k ∧ fieldValue bits = n := by
  induction k generalizing n with
  | zero => exact ⟨[], rfl, (Nat.lt_one_iff.mp hn).symm⟩
  | succ k ih =>
    obtain ⟨bits, hlength, hvalue⟩ := ih (n := n / 2) (by omega)
    refine ⟨decide (n % 2 = 1) :: bits, by rw [List.length_cons, hlength], ?_⟩
    rw [fieldValue, hvalue]
    rcases Nat.mod_two_eq_zero_or_one n with hbit | hbit
    · simp [hbit]; omega
    · simp [hbit]; omega

/-- A value below `2^K0` is spelled at level 0 (30_encoding.md R90). -/
theorem exists_codeword_zero {ch : Channel} {v : Word} (hv : v.toNat < 2 ^ ch.k0.toNat) :
    ∃ suffix : List Bool, suffix.length = suffixWidth ch 0 ∧ codeValue ch (levelOf 0, spelled 0 suffix) = v := by
  obtain ⟨suffix, hlength, hvalue⟩ := exists_fieldValue_eq hv
  refine ⟨suffix, hlength, ?_⟩
  simp [levelOf, spelled, hvalue]

/-- The count of one-bits and the suffix that spell `v` at level 1, where it lies on or above the offset `2^K0`
(30_encoding.md R91). -/
theorem exists_codeword_one {ch : Channel} {v : Word} (hv : 2 ^ ch.k0.toNat ≤ v.toNat) :
    ∃ (u : Nat) (suffix : List Bool), u < 2 ^ 32 ∧ suffix.length = suffixWidth ch u ∧
      codeValue ch (levelOf u, spelled u suffix) = v := by
  obtain ⟨a, ha⟩ := Nat.exists_eq_add_of_le' hv
  obtain ⟨suffix, hlength, hvalue⟩ := exists_fieldValue_eq (Nat.mod_lt a (Nat.two_pow_pos ch.k1.toNat))
  have hword : v.toNat < 2 ^ 32 := v.isLt
  have hshort : a / 2 ^ ch.k1.toNat + 1 < 2 ^ 32 := by
    have hhigh : a / 2 ^ ch.k1.toNat ≤ a := Nat.div_le_self ..
    have hoffset : 0 < 2 ^ ch.k0.toNat := Nat.two_pow_pos _
    omega
  have hk0 : ch.k0.toNat < 32 := (Nat.pow_lt_pow_iff_right (by decide)).mp (hv.trans_lt hword)
  have hspelled : spelled (a / 2 ^ ch.k1.toNat + 1) suffix = BitVec.ofNat 32 a := by
    rw [spelled, hlength, hvalue, Nat.add_sub_cancel, Nat.div_add_mod']
  have hshl : shl 1 ch.k0.toNat = BitVec.ofNat 32 (2 ^ ch.k0.toNat) := by
    rw [shl, if_pos hk0]
    simp
  refine ⟨a / 2 ^ ch.k1.toNat + 1, suffix, hshort, hlength, ?_⟩
  rw [levelOf, if_neg (Nat.succ_ne_zero _), codeValue_one, hspelled, hshl, ← BitVec.ofNat_add, ← ha, BitVec.ofNat_toNat,
    BitVec.setWidth_eq]

/-- Settles O33: level 0 spells the values below the offset `2^K0`, level 1 the others. -/
theorem everyCodeValueHasACodeword : Obligations.EveryCodeValueHasACodeword := by
  intro ch v
  rcases lt_or_ge v.toNat (2 ^ ch.k0.toNat) with hbelow | habove
  · exact ⟨0, (exists_codeword_zero hbelow).imp fun suffix h => ⟨by decide, h⟩⟩
  · exact exists_codeword_one habove

end Sys2Proof.Proofs.Encoding

/-! Proofs of the statements about 40_entropy_decoder.md: the adaptation of a channel (R113, R115, R116) and the sign map
(R117). The word operations are first said as arithmetic on the unsigned readings. -/

namespace Sys2Proof.Proofs.EntropyDecoder

open Sys2Proof Sys2Proof.Machine

/-! ## The sign map -/

theorem getLsbD_zero_iff (v : Word) : v.getLsbD 0 = true ↔ v.toNat % 2 = 1 := by
  rw [BitVec.getLsbD, Nat.testBit_zero, decide_eq_true_iff]

/-- An odd code value stands for half of its successor (40_entropy_decoder.md R117). -/
theorem toInt_unmap_of_odd {v : Word} (hodd : v.toNat % 2 = 1) : (unmap v).toInt = (v + 1).toInt / 2 := by
  rw [unmap, config_signMap, oddPositive, if_pos ((getLsbD_zero_iff v).mpr hodd), Scope.toInt_sar_of_lt _ (by decide),
    pow_one]

/-- An even code value stands for half of its negation (40_entropy_decoder.md R117). -/
theorem toInt_unmap_of_even {v : Word} (heven : v.toNat % 2 = 0) : (unmap v).toInt = (-v).toInt / 2 := by
  have hbit : ¬ v.getLsbD 0 = true := by rw [getLsbD_zero_iff]; omega
  rw [unmap, config_signMap, oddPositive, if_neg hbit, zero_sub, Scope.toInt_sar_of_lt _ (by decide), pow_one]

/-- Up to `0x7FFFFFFE` the successor of a code value is no negative word. -/
theorem toInt_add_one_of_le {v : BitVec 32} (hle : v.toNat ≤ 0x7FFFFFFE) : (v + 1).toInt = (v.toNat : Int) + 1 := by
  have hsucc : (v + 1).toNat = v.toNat + 1 := by bv_omega
  rw [BitVec.toInt_eq_toNat_of_lt (by omega), hsucc, Nat.cast_succ]

/-- Up to `0x7FFFFFFE` a code value is no negative word, and negates as a number. -/
theorem toInt_neg_of_le {v : BitVec 32} (hle : v.toNat ≤ 0x7FFFFFFE) : (-v).toInt = -(v.toNat : Int) := by
  rw [BitVec.toInt_neg, BitVec.toInt_eq_toNat_of_lt (by omega)]
  exact Int.bmod_eq_of_le (by omega) (by omega)

/-- Settles O32: an odd value takes the first branch of the sign map and an even value the second; where neither the
successor nor the negation leaves the signed range, the branch is the closed form. -/
theorem unmapIsTheSignMap : Obligations.UnmapIsTheSignMap := by
  intro v
  refine ⟨toInt_unmap_of_odd, toInt_unmap_of_even, fun hle hodd => ?_, fun hle heven => ?_, ?extremes⟩
  · rw [toInt_unmap_of_odd hodd, toInt_add_one_of_le hle]
  · rw [toInt_unmap_of_even heven, toInt_neg_of_le hle]
    omega
  case extremes => decide

/-! ## The adaptation -/

/-- The watermark table in numbers (40_entropy_decoder.md R113). -/
theorem toNat_powerWatermark (k : Nat) : (powerWatermark k).toNat = 2 ^ min (k + 4) 31 :=
  Nat.mod_eq_of_lt (Nat.pow_lt_pow_right (by decide) (Nat.lt_succ_of_le (min_le_right ..)))

theorem sub_one_eq_ofNat {k : BitVec 32} (hk : 0 < k.toNat) : k - 1 = BitVec.ofNat 32 (k.toNat - 1) := by bv_omega

theorem add_one_eq_ofNat (k : BitVec 32) : k + 1 = BitVec.ofNat 32 ((k.toNat + 1) % 2 ^ 32) := by bv_omega

/-- The low watermark is that of the parameter before the move, the high one that of its successor
(40_entropy_decoder.md R113, R115). -/
theorem moveByOne_powerWatermark (k sum : Word) :
    moveByOne powerWatermark k sum = BitVec.ofNat 32 (parameterAfter k.toNat sum.toNat) := by
  have hpositive : 0 < k ↔ 0 < k.toNat := BitVec.lt_def
  have hlow : sum < powerWatermark k.toNat ↔ sum.toNat < 2 ^ min (k.toNat + 4) 31 := by
    rw [BitVec.lt_def, toNat_powerWatermark]
  have hhigh : powerWatermark (k.toNat + 1) < sum ↔ 2 ^ min (k.toNat + 5) 31 < sum.toNat := by
    rw [BitVec.lt_def, toNat_powerWatermark]
  simp only [moveByOne, parameterAfter, hpositive, hlow, hhigh]
  split
  · next hdown => exact sub_one_eq_ofNat hdown.1
  · split
    · exact add_one_eq_ofNat k
    · rw [BitVec.ofNat_toNat, BitVec.setWidth_eq]

/-- `shr(sum, 4)` takes a sixteenth of the sum away, and no more than the sum (40_entropy_decoder.md R115). -/
theorem decayingSum_eq_sumAfter (sum v : BitVec 32) : sum + v - shr sum 4 = sumAfter sum v := by
  have hshr : shr sum 4 = BitVec.ofNat 32 (sum.toNat / 16) := rfl
  rw [hshr, sumAfter]
  bv_omega

/-- One adaptation in numbers (40_entropy_decoder.md R115, R116). -/
theorem adapt_eq_sumAfter (k sum v : Word) :
    adapt k sum v = (BitVec.ofNat 32 (parameterAfter k.toNat (sumAfter sum v).toNat), sumAfter sum v) := by
  rw [adapt_eq, decayingSum_eq_sumAfter, moveByOne_powerWatermark]

/-- The offset of a level-1 value, at parameters of 32 and more as well (30_encoding.md R91, 00_scope.md R9). -/
theorem shl_one (n : Nat) : shl 1 n = BitVec.ofNat 32 (2 ^ n) := by
  unfold shl
  split
  · rw [show (1 : Word).toNat = 1 from rfl, Nat.one_mul]
  · next hwide =>
    have hdvd : 2 ^ 32 ∣ 2 ^ n := Nat.pow_dvd_pow 2 (Nat.not_lt.mp hwide)
    exact BitVec.eq_of_toNat_eq (Nat.mod_eq_zero_of_dvd hdvd).symm

theorem codeValue_one_eq_ofNat (ch : Channel) (a : Word) :
    codeValue ch (.one, a) = BitVec.ofNat 32 (a.toNat + 2 ^ ch.k0.toNat) := by
  rw [codeValue_one, shl_one, BitVec.ofNat_add, BitVec.ofNat_toNat, BitVec.setWidth_eq]

/-- Settles O34: a value of level 0 is one adaptation and a value of level 1 is two, each in numbers. -/
theorem entropyUpdateAdapts : Obligations.EntropyUpdateAdapts := by
  intro ch a
  refine ⟨rfl, ?zero, fun v hv => ⟨?residual, ?one⟩⟩
  case zero => rw [entropyUpdate_zero, adapt_eq_sumAfter]
  case residual => rw [entropyUpdate_residual, codeValue_one_eq_ofNat, hv]
  case one => rw [entropyUpdate_one, codeValue_one_eq_ofNat, ← hv, adapt_eq_sumAfter, adapt_eq_sumAfter]

end Sys2Proof.Proofs.EntropyDecoder

/-! Proofs of the statements about 41_checksum.md: `CrcStep` (R130), VERIFY (R132, R133), the check of a unit (R135) and the
check value (R136). The reads of VERIFY and RAW are first said for a whole run of bytes that the source has. -/

namespace Sys2Proof.Proofs.Checksum

open Sys2Proof Sys2Proof.Machine Sys2Proof.Proofs.Memory

/-! ## `CrcStep` -/

theorem toNat_shr_one (x : Word) : (shr x 1).toNat = x.toNat / 2 := by
  have hx : x.toNat < 2 ^ 32 := x.isLt
  exact Nat.mod_eq_of_lt (by omega)

theorem msb_shr_one (x : Word) : (shr x 1).msb = false := by
  have hx : x.toNat < 2 ^ 32 := x.isLt
  rw [BitVec.msb_eq_false_iff_two_mul_lt, toNat_shr_one]
  omega

/-- A word is the bit that `shr(x, 1)` drops and the bits that it keeps (00_scope.md R9). -/
theorem eq_of_shr_one_eq {x y : Word} (hlow : x.getLsbD 0 = y.getLsbD 0) (hhigh : shr x 1 = shr y 1) : x = y := by
  have hparity : x.toNat % 2 = 1 ↔ y.toNat % 2 = 1 := by
    rw [← EntropyDecoder.getLsbD_zero_iff, hlow, EntropyDecoder.getLsbD_zero_iff]
  have hhalf : x.toNat / 2 = y.toNat / 2 := by rw [← toNat_shr_one, hhigh, toNat_shr_one]
  exact BitVec.eq_of_toNat_eq (by omega)

/-- A round shifts, and adds the polynomial when the bit shifted out is set (41_checksum.md R130). -/
theorem reflectedRound_eq (poly x : Word) :
    reflectedRound poly x = shr x 1 ^^^ if x.getLsbD 0 then poly else 0 := by
  unfold reflectedRound
  split
  · rfl
  · exact BitVec.xor_zero.symm

section
variable {poly : Word} (hpoly : poly.msb = true)
include hpoly

/-- The top bit of a round's result tells which branch the round took, as the shift leaves it clear and the polynomial sets
it (41_checksum.md R130). -/
theorem msb_reflectedRound (x : Word) : (reflectedRound poly x).msb = x.getLsbD 0 := by
  rw [reflectedRound_eq, BitVec.msb_xor, msb_shr_one, Bool.false_xor]
  cases x.getLsbD 0 with
  | false => exact BitVec.msb_zero
  | true => exact hpoly

theorem reflectedRound_injective : Function.Injective (reflectedRound poly) := by
  intro x y heq
  have hlow : x.getLsbD 0 = y.getLsbD 0 := by rw [← msb_reflectedRound hpoly, heq, msb_reflectedRound hpoly]
  rw [reflectedRound_eq, reflectedRound_eq, hlow] at heq
  exact eq_of_shr_one_eq hlow ((BitVec.xor_left_inj _).mp heq)

theorem reflectedRounds_injective (n : Nat) : Function.Injective (reflectedRounds poly n) := by
  induction n with
  | zero => exact Function.injective_id
  | succ n ih => exact ih.comp (reflectedRound_injective hpoly)

end

/-- Two results of `CrcStep` are the same exactly when what is fed into the rounds is (41_checksum.md R130). -/
theorem crcStep_eq_iff {crc crc' : Word} {b b' : Byte} :
    crcStep crc b = crcStep crc' b' ↔ crc ^^^ b.setWidth 32 = crc' ^^^ b'.setWidth 32 := by
  rw [crcStep_eq, crcStep_eq, (reflectedRounds_injective (by decide) 8).eq_iff]

/-- Settles O29: the rounds are injective, and so is the fold of the byte in either argument. -/
theorem checksumStepLosesNothing : Obligations.ChecksumStepLosesNothing := by
  refine ⟨fun crc crc' b heq => ?accumulator, fun crc b b' heq => ?byte⟩
  case accumulator => exact (BitVec.xor_left_inj _).mp (crcStep_eq_iff.mp heq)
  case byte =>
    have hwide : b.setWidth 32 = b'.setWidth 32 := (BitVec.xor_right_inj _).mp (crcStep_eq_iff.mp heq)
    bv_omega

/-- Settles O28, by evaluating the rounds of the nine bytes. -/
theorem checksumCheckValue : Obligations.ChecksumCheckValue := by
  simp [Obligations.ChecksumCheckValue, crcAfter, crcStep_eq, reflectedRounds, reflectedRound_eq, shr]

/-! ## Reads of a run of bytes -/

/-- `s` after it has read `bytes`, with `rest` still to come (20_memory.md R61(a)). -/
def consumed (bytes : List Byte) (rest : List SrcItem) (s : State) : State :=
  { s with inp := rest, crc := crcAfter s.crc bytes, count := s.count + BitVec.ofNat 32 bytes.length }

theorem consumed_nil (s : State) : consumed [] s.inp s = s := by
  simp [consumed, crcAfter]

/-- The first byte is one read, the others the rest (20_memory.md R61(a)). -/
theorem nextByte_delivered {b : Byte} {bytes : List Byte} {rest : List SrcItem} {s : State}
    (hinp : s.inp = delivered (b :: bytes) ++ rest) :
    nextByte s = .got b (consumed [b] (delivered bytes ++ rest) s) :=
  nextByte_byte hinp

theorem consumed_consumed (b : Byte) (bytes : List Byte) (more rest : List SrcItem) (s : State) :
    consumed bytes rest (consumed [b] more s) = consumed (b :: bytes) rest s := by
  have hcount : s.count + 1 + BitVec.ofNat 32 bytes.length = s.count + BitVec.ofNat 32 (bytes.length + 1) :=
    add_one_add_ofNat s.count bytes.length
  simpa [consumed, crcAfter] using hcount

/-- VERIFY reads the trailer bytes that are there (41_checksum.md R132). -/
theorem verifyFrom_delivered {sum : Word} {got bytes : List Byte} {rest : List SrcItem} {s : State}
    (hfits : got.length + bytes.length ≤ 4) (hinp : s.inp = delivered bytes ++ rest) :
    verifyFrom sum got s = verifyFrom sum (got ++ bytes) (consumed bytes rest s) := by
  induction bytes generalizing got s with
  | nil =>
    obtain rfl : s.inp = rest := hinp
    rw [List.append_nil, consumed_nil]
  | cons b bytes ih =>
    rw [List.length_cons] at hfits
    rw [verifyFrom_got (by omega) (nextByte_delivered hinp),
      ih (by rw [List.length_append, List.length_singleton]; omega) rfl, List.append_assoc, List.singleton_append,
      consumed_consumed]

/-! ## The outcome of VERIFY -/

/-- In a phase that accepts it a command follows its own rule (46_config_control.md R190 step 5). -/
theorem exec_accepted {i : Instr} {s : State} (h : accepts i s.phase = true) :
    exec i s = BlockState.ownRule i s := by
  rw [BlockState.exec_eq_prologue, prologue_accepted h]

/-- In the phases that accept VERIFY the checksum is taken before the trailer is read (41_checksum.md R132). -/
theorem exec_verify {s : State} (hphase : s.phase = .idle ∨ s.phase = .frameEnd) :
    exec .verify s = settle (verifyFrom (s.crc ^^^ 0xFFFFFFFF) [] s) :=
  exec_accepted (by simpa [accepts] using hphase)

/-- The trailer as a number (20_memory.md R64). -/
theorem toNat_littleEndian_four (b0 b1 b2 b3 : Byte) :
    (littleEndian [b0, b1, b2, b3]).toNat =
      b0.toNat + 2 ^ 8 * b1.toNat + 2 ^ 16 * b2.toNat + 2 ^ 24 * b3.toNat := by
  simp only [littleEndian, Config.wordBits]
  bv_omega

/-- VERIFY with the whole trailer there (41_checksum.md R132, R133). -/
theorem exec_verify_full {s : State} {trailer : List Byte} {rest : List SrcItem}
    (hphase : s.phase = .idle ∨ s.phase = .frameEnd) (hfour : trailer.length = 4)
    (hinp : s.inp = delivered trailer ++ rest) :
    exec .verify s =
      .next (concludeVerify (s.crc ^^^ 0xFFFFFFFF) (littleEndian trailer) (consumed trailer rest s)) := by
  rw [exec_verify hphase, verifyFrom_delivered (by simp [hfour]) hinp, List.nil_append, verifyFrom_full hfour.ge,
    settle_done, config_trailerOrder]

/-- Settles O25: the four bytes are there, and what they spell is compared with the checksum taken before them. -/
theorem verifyComparesTheTrailer : Obligations.VerifyComparesTheTrailer := by
  intro s b0 b1 b2 b3 rest hphase hinp
  refine ⟨s.crc ^^^ 0xFFFFFFFF, littleEndian [b0, b1, b2, b3], rfl, toNat_littleEndian_four b0 b1 b2 b3, ?_⟩
  rw [exec_verify_full hphase rfl hinp]
  simp [concludeVerify, readerReset, reportChecksum, consumed, bne, beq_eq_decide]

/-- Settles O26: the bytes there are have been read when the source fails or has no more, and the report is not reached. -/
theorem verifyWithTooFewBytes : Obligations.VerifyWithTooFewBytes := by
  intro s bytes rest hphase hfew
  refine ⟨fun hinp => ?fails, fun hinp => ?waits⟩
  case fails =>
    have hfail : nextByte (consumed bytes (.failure :: rest) s) = .failed (raise .errIo (consumed bytes rest s)) :=
      nextByte_failure rfl
    rw [exec_verify hphase, verifyFrom_delivered (by simpa using hfew.le) hinp, List.nil_append,
      verifyFrom_failed hfew hfail, settle_failed]
    rfl
  case waits =>
    rw [← List.append_nil (delivered bytes)] at hinp
    rw [exec_verify hphase, verifyFrom_delivered (by simpa using hfew.le) hinp, List.nil_append,
      verifyFrom_notYet hfew (nextByte_nil rfl), settle_wait]
    rfl

/-! ## The check of a unit -/

/-- Room for one byte and `n` more is room for the one, and then for the `n` (20_memory.md R66). -/
theorem takeRoom_of_roomFor_succ {room room' : Option Nat} {n : Nat} (h : roomFor room (n + 1) room') :
    ∃ left, takeRoom room = some left ∧ roomFor left n room' := by
  rcases h with ⟨rfl, rfl⟩ | ⟨r, rfl, rfl⟩
  · exact ⟨none, rfl, .inl ⟨rfl, rfl⟩⟩
  · exact ⟨some (r + n), rfl, .inr ⟨r, rfl, rfl⟩⟩

theorem roomFor_zero_iff {room room' : Option Nat} : roomFor room 0 room' ↔ room' = room := by
  cases room <;> simp [roomFor, eq_comm]

/-- RAW passes on the bytes that are there and find room (46_config_control.md R189). -/
theorem passBytes_delivered {bytes : List Byte} {rest : List SrcItem} {room : Option Nat} {s : State}
    (hinp : s.inp = delivered bytes ++ rest) (hroom : roomFor s.rawRoom bytes.length room) :
    passBytes bytes.length s =
      .done () { consumed bytes rest s with rawOut := s.rawOut ++ bytes, rawRoom := room } := by
  induction bytes generalizing s with
  | nil =>
    obtain rfl : s.inp = rest := hinp
    obtain rfl := roomFor_zero_iff.mp hroom
    rw [consumed_nil, List.append_nil]
    rfl
  | cons b bytes ih =>
    obtain ⟨left, htake, hleft⟩ := takeRoom_of_roomFor_succ hroom
    have hemit := emitRaw_room (b := b) (s := consumed [b] (delivered bytes ++ rest) s) htake
    rw [List.length_cons, passBytes_succ_got (nextByte_delivered hinp), rawFrom]
    simp only [hemit]
    rw [ih rfl hleft, ← consumed_consumed b bytes (delivered bytes ++ rest)]
    simp [consumed]

/-- RAW in IDLE with its bytes and the room for them there (46_config_control.md R189). -/
theorem exec_raw_delivered {bytes : List Byte} {rest : List SrcItem} {room : Option Nat} {s : State}
    (hidle : s.phase = .idle) (hinp : s.inp = delivered bytes ++ rest) (hroom : roomFor s.rawRoom bytes.length room) :
    exec (.raw bytes.length) s =
      .next { consumed bytes rest s with rawOut := s.rawOut ++ bytes, rawRoom := room } := by
  have hown : exec (.raw bytes.length) s = settle (passBytes bytes.length s) :=
    exec_accepted (by simp [accepts, hidle])
  rw [hown, passBytes_delivered hinp hroom, settle_done]

theorem exec_rdReset {s : State} (hrunning : s.phase ≠ .halt) : exec .rdReset s = .next (restartReader s) :=
  exec_accepted (by simpa [accepts] using hrunning)

/-- Settles O27: RD_RESET starts the checksum afresh, RAW takes in the unit's bytes, and VERIFY compares. -/
theorem unitCheckComparesExactlyItsBytes : Obligations.UnitCheckComparesExactlyItsBytes := by
  intro s bytes b0 b1 b2 b3 rest hrunning hroom hinp
  have hunit : (restartReader s).inp = delivered bytes ++ (delivered [b0, b1, b2, b3] ++ rest) := by
    rw [restartReader_inp, hinp, delivered, List.map_append, List.append_assoc]
    rfl
  have hraw := exec_raw_delivered (restartReader_phase s) hunit (.inl ⟨hroom, rfl⟩)
  refine ⟨_, _, _, exec_rdReset hrunning, hraw, exec_verify_full (.inl rfl) rfl rfl, rfl, rfl, rfl, rfl, ?_⟩
  rw [← toNat_littleEndian_four, BitVec.toNat_inj]
  exact beq_iff_eq

end Sys2Proof.Proofs.Checksum

/-! Proofs of the statements about 42_hybrid_filter.md: the prediction, the sign agreement and the shift-in of a step
(R142, R143). -/

namespace Sys2Proof.Proofs.HybridFilter

open Sys2Proof Sys2Proof.Machine

/-! ## The prediction -/

/-- The accumulator of R142 ends at the sum of the products. -/
theorem weightedSum_eq_sum (hist coef : Vector Word 8) : weightedSum hist coef = ∑ i : Fin 8, hist[i] * coef[i] := by
  rw [Fin.sum_univ_def, List.sum_eq_foldl, List.foldl_map]
  rfl

/-- Below 32 the shift of R142 divides the signed sum, rounding toward minus infinity (00_scope.md R8). -/
theorem prediction_of_lt {shift : Nat} (hshift : shift < 32) (f : FilterState) :
    prediction shift f = BitVec.ofInt 32 ((weightedSum f.hist f.coef).toInt / 2 ^ shift) := by
  rw [prediction, sar, if_pos hshift]

/-! ## The sign agreement -/

theorem sgn_of_pos {v : Word} (h : 0 < v.toInt) : sgn v = 1 := by
  rw [sgn, Int.sign_eq_one_of_pos h]
  rfl

theorem sgn_of_neg {v : Word} (h : v.toInt < 0) : sgn v = -1 := by
  rw [sgn, Int.sign_eq_neg_one_of_neg h]
  rfl

theorem sgn_of_zero {v : Word} (h : v.toInt = 0) : sgn v = 0 := by
  rw [sgn, h]
  rfl

/-- With `SGN_H0` at 0 a zero history entry has no case of its own (42_hybrid_filter.md R143(b)). -/
theorem historySign_zero (h : Word) : historySign 0 h = sgn h := by
  rw [historySign]
  split
  case isTrue hzero => exact hzero.symm
  case isFalse => rfl

/-- The product of the two signs is the move by sign agreement (42_hybrid_filter.md R143(b)). -/
theorem sgn_mul_sgn (r h : Word) : sgn r * sgn h = coefficientMove r h := by
  rcases lt_trichotomy r.toInt 0 with hr | hr | hr
  · rcases lt_trichotomy h.toInt 0 with hh | hh | hh
    · simp [coefficientMove, sgn_of_neg, hr, hh]
    · simp [coefficientMove, sgn_of_zero hh, hh]
    · simp [coefficientMove, sgn_of_neg hr, sgn_of_pos hh, hr, hh, hr.le, hh.le]
  · simp [coefficientMove, sgn_of_zero hr, hr]
  · rcases lt_trichotomy h.toInt 0 with hh | hh | hh
    · simp [coefficientMove, sgn_of_pos hr, sgn_of_neg hh, hr, hh, hr.le, hh.le]
    · simp [coefficientMove, sgn_of_zero hh, hh]
    · simp [coefficientMove, sgn_of_pos, hr, hh]

/-- Each coefficient's move looks at its own entry of the history before the shift-in (42_hybrid_filter.md R143). -/
theorem adaptCoefficients_getElem (e : Word) (f : FilterState) (i : Fin 8) :
    (adaptCoefficients 0 e f)[i] = f.coef[i] + coefficientMove e f.hist[i] := by
  rw [adaptCoefficients, Fin.getElem_fin, Vector.getElem_ofFn, historySign_zero, sgn_mul_sgn]

/-! ## The shift-in -/

/-- Every entry but the newest takes the next newer one (10_state.md R26). -/
theorem shiftIn_getElem_of_succ (y : Word) (hist : Vector Word 8) {i j : Fin 8} (hnext : j.val = i.val + 1) :
    (shiftIn y hist)[i] = hist[j] := by
  have hi : i.val + 1 < 8 := hnext ▸ j.isLt
  rw [shiftIn, Fin.getElem_fin, Vector.getElem_ofFn, dif_pos hi]
  simp only [Fin.getElem_fin, hnext]

theorem shiftIn_newest (y : Word) (hist : Vector Word 8) : (shiftIn y hist)[7] = y := by
  rw [shiftIn, Vector.getElem_ofFn, dif_neg (by decide)]

/-! ## The step -/

/-- Settles O35: the output is the residual and the prediction, and the channel is the old one with its coefficients moved and
the output shifted into its history. -/
theorem filterStepPredictsAndAdapts : Obligations.FilterStepPredictsAndAdapts := by
  intro shift r ch hshift
  have hchannel := filterStep_channel shift r ch
  refine ⟨?output, fun i => ?moves, fun i j hnext => ?shifts, ?newest, ?frame⟩
  case output =>
    rw [filterStep_output, prediction_of_lt hshift, weightedSum_eq_sum, Channel.filter_hist,
      Channel.filter_coef]
  case moves =>
    rw [hchannel]
    exact adaptCoefficients_getElem r ch.filter i
  case shifts =>
    rw [hchannel]
    exact shiftIn_getElem_of_succ _ ch.hist hnext
  case newest =>
    rw [hchannel]
    exact shiftIn_newest _ ch.hist
  case frame => rw [hchannel]

end Sys2Proof.Proofs.HybridFilter

/-! Proofs of the statements about 43_fixed_predictor.md: a step of the predictor (R151). -/

namespace Sys2Proof.Proofs.FixedPredictor

open Sys2Proof Sys2Proof.Machine

/-- The reconstructed value: the shift is inside the term, the sum is not shifted (43_fixed_predictor.md R151). -/
theorem predStep_output (y : Word) (ch : Channel) : (predStep y ch).1 = y + predictorTerm ch.prev := rfl

/-- The channel after a predictor step: only the previous value changes (43_fixed_predictor.md R151). -/
theorem predStep_channel (y : Word) (ch : Channel) :
    (predStep y ch).2 = { ch with prev := (predStep y ch).1 } := rfl

/-- The shift by 5 divides the signed reading of the wrapped product by 32, rounding toward minus infinity
(43_fixed_predictor.md R151, 00_scope.md R8). -/
theorem predictorTerm_eq (prev : Word) : predictorTerm prev = BitVec.ofInt 32 ((prev * 31).toInt / 32) := by
  have hshift : 5 < Config.wordBits := by decide
  have hdivisor : (2 : Int) ^ 5 = 32 := by decide
  rw [predictorTerm, sar, if_pos hshift, hdivisor]

/-- Settles O36: the output is the input and the flooring quotient of the product, and the channel is the old one with that
output as its previous value. -/
theorem predictorAddsThirtyOneThirtySeconds : Obligations.PredictorAddsThirtyOneThirtySeconds := by
  intro y ch
  constructor
  case left => rw [predStep_output, predictorTerm_eq]
  case right => exact predStep_channel y ch

end Sys2Proof.Proofs.FixedPredictor

/-! Proofs of the statements about 44_decorrelator_output.md: `Decorrelate()` (R156, R157) and the forward transform it inverts
(R161). Both are described by one equation per entry of the cache; the round trips are read off those equations. -/

namespace Sys2Proof.Proofs.Decorrelator

open Sys2Proof Sys2Proof.Machine

/-! ## The entries of the cache -/

theorem cache_ext {x y : Vector Word 6} (h : ∀ k < 6, cacheAt x k = cacheAt y k) : x = y := by
  ext1 k hk
  simpa [cacheAt, hk] using h k hk

@[simp] theorem cacheAt_cacheSet_same (x : Vector Word 6) {k : Nat} (hk : k < 6) (v : Word) :
    cacheAt (cacheSet x k v) k = v := by
  simp [cacheAt, cacheSet, hk]

theorem cacheAt_cacheSet_of_ne (x : Vector Word 6) {j k : Nat} (hne : j ≠ k) (v : Word) :
    cacheAt (cacheSet x k v) j = cacheAt x j := by
  simp [cacheAt, cacheSet, Vector.getElem?_setIfInBounds_ne hne.symm]

/-! ## The loop -/

/-- The loop writes only the entries below its start. -/
theorem cacheAt_differenceDown_of_le (x : Vector Word 6) {m j : Nat} (hj : m ≤ j) :
    cacheAt (differenceDown m x) j = cacheAt x j := by
  induction m generalizing x with
  | zero => rfl
  | succ m ih => rw [differenceDown, ih _ (by omega), cacheAt_cacheSet_of_ne x (by omega)]

/-- Every entry below the loop's start ends as the updated next entry less its own old value (44_decorrelator_output.md R156). -/
theorem cacheAt_differenceDown_of_lt (x : Vector Word 6) {m k : Nat} (hm : m ≤ 6) (hk : k < m) :
    cacheAt (differenceDown m x) k = cacheAt (differenceDown m x) (k + 1) - cacheAt x k := by
  induction m generalizing x with
  | zero => omega
  | succ m ih =>
    rw [differenceDown]
    by_cases htop : k = m
    case pos =>
      subst htop
      rw [cacheAt_differenceDown_of_le _ k.le_refl, cacheAt_differenceDown_of_le _ k.le_succ,
        cacheAt_cacheSet_same x hm, cacheAt_cacheSet_of_ne x k.succ_ne_self]
    case neg => rw [ih _ (by omega) (by omega), cacheAt_cacheSet_of_ne x htop]

/-! ## The decorrelator, entry by entry -/

theorem decorrelate_one (x : Vector Word 6) : decorrelate 1 x = x := if_neg (by decide)

theorem decorrelate_add_two (m : Nat) (x : Vector Word 6) :
    decorrelate (m + 2) x =
      differenceDown (m + 1) (cacheSet x (m + 1) (cacheAt x (m + 1) + tdiv2 (cacheAt x m))) :=
  if_pos (by omega)

/-- The last channel takes half of the old value of the one before it (44_decorrelator_output.md R156). -/
theorem cacheAt_decorrelate_last (x : Vector Word 6) {m : Nat} (hm : m + 2 ≤ 6) :
    cacheAt (decorrelate (m + 2) x) (m + 1) = cacheAt x (m + 1) + tdiv2 (cacheAt x m) := by
  rw [decorrelate_add_two, cacheAt_differenceDown_of_le _ (m + 1).le_refl, cacheAt_cacheSet_same x hm]

/-- Every other channel is the final sample of the next one less its own old value (44_decorrelator_output.md R156). -/
theorem cacheAt_decorrelate_of_lt (x : Vector Word 6) {m k : Nat} (hm : m + 2 ≤ 6) (hk : k < m + 1) :
    cacheAt (decorrelate (m + 2) x) k = cacheAt (decorrelate (m + 2) x) (k + 1) - cacheAt x k := by
  rw [decorrelate_add_two, cacheAt_differenceDown_of_lt _ (by omega) hk,
    cacheAt_cacheSet_of_ne x hk.ne]

theorem cacheAt_decorrelate_of_le (x : Vector Word 6) {n k : Nat} (hn : 1 ≤ n) (hk : n ≤ k) :
    cacheAt (decorrelate n x) k = cacheAt x k := by
  match n, hn with
  | 1, _ => rw [decorrelate_one]
  | m + 2, _ =>
    rw [decorrelate_add_two, cacheAt_differenceDown_of_le _ (by omega), cacheAt_cacheSet_of_ne x (by omega)]

/-! ## The forward transform, entry by entry -/

theorem cacheAt_correlate (n : Nat) (s : Vector Word 6) {k : Nat} (hk : k < 6) :
    cacheAt (correlate n s) k =
      if k + 1 < n then cacheAt s (k + 1) - cacheAt s k
      else if k + 1 = n ∧ 1 < n then cacheAt s k - tdiv2 (cacheAt s k - cacheAt s (k - 1))
      else cacheAt s k := by
  simp [cacheAt, correlate, hk]

theorem cacheAt_correlate_of_lt (s : Vector Word 6) {n k : Nat} (hn : n ≤ 6) (hk : k + 1 < n) :
    cacheAt (correlate n s) k = cacheAt s (k + 1) - cacheAt s k := by
  rw [cacheAt_correlate n s (by omega), if_pos hk]

theorem cacheAt_correlate_last (s : Vector Word 6) {m : Nat} (hm : m + 2 ≤ 6) :
    cacheAt (correlate (m + 2) s) (m + 1) =
      cacheAt s (m + 1) - tdiv2 (cacheAt s (m + 1) - cacheAt s m) := by
  rw [cacheAt_correlate _ s hm, if_neg (by omega), if_pos (by omega), Nat.add_sub_cancel]

theorem cacheAt_correlate_of_le (s : Vector Word 6) {n k : Nat} (hn : n ≤ k) (hk : k < 6) :
    cacheAt (correlate n s) k = cacheAt s k := by
  rw [cacheAt_correlate n s hk, if_neg (by omega), if_neg (by omega)]

theorem correlate_one (s : Vector Word 6) : correlate 1 s = s := by
  refine cache_ext fun k hk => ?_
  rw [cacheAt_correlate 1 s hk, if_neg (by omega), if_neg (by omega)]

/-! ## The round trips -/

/-- The differences of the final samples are the old values, so the forward transform also finds the half that the last channel
took (44_decorrelator_output.md R161). -/
theorem correlate_decorrelate {n : Nat} (hn : 1 ≤ n) (hmax : n ≤ 6) (x : Vector Word 6) :
    correlate n (decorrelate n x) = x := by
  match n, hn with
  | 1, _ => rw [decorrelate_one, correlate_one]
  | m + 2, hn =>
    refine cache_ext fun k hk => ?_
    obtain hlow | rfl | hhigh : k < m + 1 ∨ k = m + 1 ∨ m + 2 ≤ k := by omega
    · rw [cacheAt_correlate_of_lt _ hmax (by omega), cacheAt_decorrelate_of_lt x hmax hlow, sub_sub_cancel]
    · rw [cacheAt_correlate_last _ hmax, cacheAt_decorrelate_of_lt x hmax m.lt_succ_self,
        sub_sub_cancel, cacheAt_decorrelate_last x hmax, add_sub_cancel_right]
    · rw [cacheAt_correlate_of_le _ hhigh hk, cacheAt_decorrelate_of_le x hn hhigh]

/-- From the last channel down: each final sample is found from the one above it, as the loop does
(44_decorrelator_output.md R156). -/
theorem cacheAt_decorrelate_correlate {m k : Nat} (hmax : m + 2 ≤ 6) (hk : k ≤ m + 1) (s : Vector Word 6) :
    cacheAt (decorrelate (m + 2) (correlate (m + 2) s)) k = cacheAt s k := by
  induction hk using Nat.decreasingInduction with
  | self =>
    rw [cacheAt_decorrelate_last _ hmax, cacheAt_correlate_last s hmax,
      cacheAt_correlate_of_lt s hmax (by omega), sub_add_cancel]
  | of_succ k hk ih =>
    rw [cacheAt_decorrelate_of_lt _ hmax hk, ih, cacheAt_correlate_of_lt s hmax (by omega), sub_sub_cancel]

theorem decorrelate_correlate {n : Nat} (hn : 1 ≤ n) (hmax : n ≤ 6) (s : Vector Word 6) :
    decorrelate n (correlate n s) = s := by
  match n, hn with
  | 1, _ => rw [correlate_one, decorrelate_one]
  | m + 2, hn =>
    refine cache_ext fun k hk => ?_
    obtain hlow | hhigh : k ≤ m + 1 ∨ m + 2 ≤ k := by omega
    · exact cacheAt_decorrelate_correlate hmax hlow s
    · rw [cacheAt_decorrelate_of_le _ hn hhigh, cacheAt_correlate_of_le s hhigh hk]

/-- Settles O37: both round trips, and the frame of the decorrelator. -/
theorem decorrelateInvertsTheForwardTransform : Obligations.DecorrelateInvertsTheForwardTransform := by
  intro n x hn hmax
  refine ⟨decorrelate_correlate hn hmax x, correlate_decorrelate hn hmax x, fun k hk => ?_⟩
  rw [← Memory.cacheAt_eq, ← Memory.cacheAt_eq, cacheAt_decorrelate_of_le x hn hk]

/-! ## One channel and two -/

theorem decorrelate_two_second (x : Vector Word 6) : (decorrelate 2 x)[1] = x[1] + tdiv2 x[0] :=
  cacheAt_decorrelate_last x (m := 0) (by decide)

theorem decorrelate_two_first (x : Vector Word 6) : (decorrelate 2 x)[0] = x[1] + tdiv2 x[0] - x[0] := by
  rw [← decorrelate_two_second x]
  exact cacheAt_decorrelate_of_lt x (m := 0) (k := 0) (by decide) (by decide)

/-- Settles O38: one channel passes through, and the two entries of a stereo cache are the last channel and the one below it. -/
theorem decorrelateMonoAndStereo : Obligations.DecorrelateMonoAndStereo := fun x =>
  ⟨decorrelate_one x, decorrelate_two_first x, decorrelate_two_second x⟩

end Sys2Proof.Proofs.Decorrelator

/-! Proofs of the statements about 45_frame_sequencing.md: DEC_SAMPLE (R166, R172), DEC_STEP (R167), DEC_FRAME (R168), the
resumption law (R170) and the fresh start of a frame (R171). What one body does on a whole codeword is said once; DEC_STEP and
DEC_FRAME on the codewords of a frame are one induction over them; that a frame forgets the past is a simulation of one run by
the other. -/

namespace Sys2Proof.Proofs.FrameSequencing

open Sys2Proof Sys2Proof.Machine Sys2Proof.Proofs.BlockState Sys2Proof.Proofs.Memory Sys2Proof.Proofs.Checksum

/-! ## The commands in DECODING and in FRAME_END -/

section
variable {s t : State}

theorem exec_decSample (hphase : s.phase = .decoding) :
    exec .decSample s = settle ((decBody (.unary 0) s).mapWait .sample) :=
  exec_accepted (by rw [hphase]; rfl)

theorem exec_decStep (hphase : s.phase = .decoding) (n : Nat) :
    exec (.decStep n) s = settle ((decRun (some n) s).mapWait loopJob) :=
  exec_accepted (by rw [hphase]; rfl)

theorem exec_decFrame (hphase : s.phase = .decoding ∨ s.phase = .frameEnd) :
    exec .decFrame s = settle (thenVerify (decRun none s)) :=
  exec_accepted (by simpa [accepts] using hphase)

/-- A DEC_FRAME whose decode loop ends at `t` is the VERIFY at `t` (45_frame_sequencing.md R168). -/
theorem exec_decFrame_of_done (hphase : s.phase = .decoding ∨ s.phase = .frameEnd) (hrun : decRun none s = .done () t)
    (hend : t.phase = .frameEnd) : exec .decFrame s = exec .verify t := by
  rw [exec_decFrame hphase, hrun, exec_verify (.inr hend)]
  rfl

/-- Settles O47: the decode loop has nothing to do. -/
theorem decFrameInFrameEndIsVerify : Obligations.DecFrameInFrameEndIsVerify := fun _ hend =>
  exec_decFrame_of_done (.inr hend) (decRun_of_stop (.inr (by simp [hend]))) hend

end

/-! ## A body on a whole codeword -/

/-- `s` with the reader and the room in `PCM` of `d`: what reads and emissions are paid from (20_memory.md R61, R63, R66). -/
def withStreams (d s : State) : State :=
  { s with inp := d.inp, crc := d.crc, count := d.count, bcache := d.bcache, bcount := d.bcount, pcmRoom := d.pcmRoom }

theorem exists_withStreams_of_readFrom {s m : State} {bytes : List Byte} (h : readFrom s m bytes) :
    ∃ d, d.pcmRoom = s.pcmRoom ∧ m = withStreams d s :=
  ⟨{ s with
      inp := m.inp, crc := crcAfter s.crc bytes, count := s.count + BitVec.ofNat 32 bytes.length
      bcache := m.bcache, bcount := m.bcount }, rfl, h.2⟩

/-- A body that finds a whole codeword takes it and goes on with the value it spells (45_frame_sequencing.md R166). -/
theorem decBody_of_codeword {s : State} {u : Nat} {suffix rest : List Bool} (hinside : insideFrame s) (hu : u < 2 ^ 32)
    (hlength : suffix.length = suffixWidth (channelAt s s.ch.toNat) u)
    (hbits : unreadBits s = codeword u suffix ++ rest) :
    ∃ m bytes, decBody (.unary 0) s = afterValue (levelOf u, spelled u suffix) m ∧ unreadBits m = rest ∧
      readFrom s m bytes := by
  obtain ⟨m, bytes, hvalue, hrest, hread⟩ := decodeValue_of_bits hu hlength hbits
  refine ⟨m, bytes, ?_, hrest, hread⟩
  rw [decBody_reads (p := .unary 0) trivial (geometryOk_of_insideFrame hinside), valueFrom, hvalue, Run.bind_done]

section
variable {s : State} {v : Level × Word} {r y out : Word} {ch0 ch1 ch2 : Channel}
  (hentropy : entropyUpdate (channelAt s s.ch.toNat) v = (r, ch0)) (hfilter : filterStep (shiftOf s) r ch0 = (y, ch1))
  (hpredict : predStep y ch1 = (out, ch2))
include hentropy hfilter hpredict

/-- The three stages in their order, each on the result of the one before (45_frame_sequencing.md R166). -/
theorem storeSample_of_stages :
    storeSample v s =
      { s with chan := s.chan.setIfInBounds s.ch.toNat ch2, cache := s.cache.setIfInBounds s.ch.toNat out } := by
  have hstages : sampleStages (shiftOf s) v (channelAt s s.ch.toNat) = (out, ch2) := by
    simp only [sampleStages, hentropy, hfilter, hpredict]
  simp only [storeSample, hstages]
  rfl

theorem timeStepBytes_of_stages :
    timeStepBytes v s =
      stepBytes s.nch.toNat (depthOf s) (decorrelate s.nch.toNat (s.cache.setIfInBounds s.ch.toNat out)) := by
  rw [timeStepBytes, storeSample_of_stages hentropy hfilter hpredict]

end

theorem length_timeStepBytes (v : Level × Word) (s : State) :
    (timeStepBytes v s).length = s.nch.toNat * depthOf s := length_stepBytes ..

/-- Settles O40: the body on the codeword, with the next channel after it. -/
theorem decSampleDecodesOneChannel : Obligations.DecSampleDecodesOneChannel := by
  intro s u suffix rest r y out ch0 ch1 ch2 hphase hinside hmore hu hlength hbits hentropy hfilter hpredict
  obtain ⟨m, bytes, hbody, hrest, hread⟩ := decBody_of_codeword hinside hu hlength hbits
  obtain ⟨d, -, rfl⟩ := exists_withStreams_of_readFrom hread
  refine ⟨_, withStreams d s, bytes, ?_, hread, by exact hrest, rfl⟩
  rw [exec_decSample hphase, hbody, afterValue_of_lt (s := withStreams d s) hmore,
    storeSample_of_stages (s := withStreams d s) hentropy hfilter hpredict]
  rfl

/-- With room for `k` of the bytes only, those go out and the rest waits (45_frame_sequencing.md R166, 20_memory.md R66). -/
theorem emitAndClose_short {bytes : List Byte} {k : Nat} {s : State} (hroom : s.pcmRoom = some k)
    (hshort : k < bytes.length) :
    emitAndClose bytes s =
      .wait (.emit (bytes.drop k)) { s with pcm := s.pcm ++ bytes.take k, pcmRoom := some 0 } := by
  have hleft : bytes.drop k = bytes[k] :: bytes.drop (k + 1) := List.drop_eq_getElem_cons hshort
  simp only [emitAndClose, emitPcm_short hroom hshort, hleft]

/-- Settles O41: the body on the codeword, with the time-step's emission after it, complete or short of room. -/
theorem decSampleCompletesATimeStep : Obligations.DecSampleCompletesATimeStep := by
  intro s u suffix rest r y out ch0 ch1 ch2 x hphase hinside hlast hu hlength hbits hentropy hfilter hpredict hx
  obtain ⟨m, bytes, hbody, hrest, hread⟩ := decBody_of_codeword hinside hu hlength hbits
  obtain ⟨d, hroom, rfl⟩ := exists_withStreams_of_readFrom hread
  have hsum := length_stepBytes s.nch.toNat (depthOf s) x
  have hready : decorrelateCache (storeSample (levelOf u, spelled u suffix) (withStreams d s)) =
      { withStreams d s with chan := s.chan.setIfInBounds s.ch.toNat ch2, cache := x } := by
    rw [storeSample_of_stages (s := withStreams d s) hentropy hfilter hpredict, hx]
    rfl
  have hstep : decBody (.unary 0) s = emitAndClose (stepBytes s.nch.toNat (depthOf s) x)
      (decorrelateCache (storeSample (levelOf u, spelled u suffix) (withStreams d s))) := by
    rw [hbody, afterValue_of_not_lt (s := withStreams d s) hlast.not_lt,
      timeStepBytes_of_stages (s := withStreams d s) hentropy hfilter hpredict, hx]
    rfl
  rw [exec_decSample hphase, hstep]
  refine ⟨fun room hfits => ⟨_, withStreams d s, bytes, ?done, hread, by exact hrest, rfl⟩,
    fun k hk hshort => ⟨_, withStreams d s, bytes, ?waits, hread, by exact hrest, rfl⟩⟩
  case done =>
    rw [emitAndClose_room (hsum.symm ▸ hroom ▸ hfits), hready, ← hphase]
    rfl
  case waits =>
    rw [emitAndClose_short (s := decorrelateCache (storeSample _ (withStreams d s))) (hroom.trans hk)
      (hsum ▸ hshort), hready]
    rfl

/-! ## A failure inside a codeword -/

/-- Where a value waits for a bit that then fails to come, the value fails (20_memory.md R61(c)). -/
theorem valueFrom_of_failing {ch : Channel} {p q : Point} {d e f t : State} (hp : Reads p)
    (hwait : valueFrom ch p d = .wait q e) (hfail : nextBit f = .failed t) : valueFrom ch p f = .failed t := by
  cases p with
  | emit rest => exact hp.elim
  | unary u => simp only [valueFrom, decodeValue, readUnary, hfail, Run.bind_failed]
  | suffix level a left i acc =>
    cases left with
    | zero => simp [valueFrom, readSuffix, readBits] at hwait
    | succ left => simp only [valueFrom, readSuffix, readBits, hfail, Run.bind_failed]

/-- What waits for a bit waits at the same place when nothing is provided. -/
theorem valueFrom_waits_again {ch : Channel} {p q : Point} {s d : State} (hwait : valueFrom ch p s = .wait q d) :
    valueFrom ch q d = .wait q d := by
  have hagain := valueFrom_act ⟨some 0, some 0, []⟩ ch p s
  rw [act_nothing, hwait, takenUp_wait, act_nothing] at hagain
  exact hagain.symm

/-- The source's answers that come after those there are. -/
abbrev later (items : List SrcItem) : Provision := ⟨some 0, some 0, items⟩

theorem later_act (items : List SrcItem) (s : State) : (later items).act s = { s with inp := s.inp ++ items } := by
  have hroom (room : Option Nat) : moreRoom (some 0) room = room := by cases room <;> rfl
  simp [Provision.act, hostProvides, hostSupply, hostGrant, hroom]

/-- The bits there are, up to the first failure, are those of the bytes before it (20_memory.md R61). -/
theorem sourceBits_delivered_failure (bytes : List Byte) (rest : List SrcItem) :
    sourceBits (delivered bytes ++ .failure :: rest) = sourceBits (delivered bytes) := by
  induction bytes with
  | nil => rfl
  | cons b bytes ih => exact congrArg (lowBits 8 b ++ ·) ih

/-- Bits that stop inside a codeword, and then a failure: without the failure the value would wait for a bit with every byte
taken, and there the failure meets it (30_encoding.md R92, 45_frame_sequencing.md R172). -/
theorem decodeValue_failed_of_short {ch : Channel} {s : State} {bytes : List Byte} {rest : List SrcItem}
    (hinp : s.inp = delivered bytes ++ .failure :: rest) (hshort : shortOfCodeword ch (unreadBits s)) :
    decodeValue ch 0 s = .failed (raise .errIo { drained bytes s with inp := rest }) := by
  rw [unreadBits, hinp, sourceBits_delivered_failure] at hshort
  have hd : DrainsTo (drained bytes s) { s with inp := delivered bytes } := ⟨bytes, rfl, rfl⟩
  obtain ⟨p, hwait⟩ : ∃ p, valueFrom ch (.unary 0) { s with inp := delivered bytes } = .wait p (drained bytes s) :=
    hd.decodeValue_waits hshort
  have hreads := valueFrom_readsBits ch (p := .unary 0) trivial { s with inp := delivered bytes }
  rw [hwait] at hreads
  have hact : (later (.failure :: rest)).act { s with inp := delivered bytes } = s := by rw [later_act, ← hinp]
  calc valueFrom ch (.unary 0) s
      = valueFrom ch p ((later (.failure :: rest)).act (drained bytes s)) := by
        rw [← takenUp_wait (k := valueFrom ch), ← hwait, ← valueFrom_act, hact]
    _ = .failed (raise .errIo { drained bytes s with inp := rest }) := by
        rw [later_act]
        exact valueFrom_of_failing hreads.1 (valueFrom_waits_again hwait) (nextBit_failing rfl rfl)

/-- Settles O42: the value fails, and the body with it. -/
theorem decSampleReadFailureChangesNoChannel : Obligations.DecSampleReadFailureChangesNoChannel := by
  intro s bytes rest hphase hinside hinp hshort
  refine ⟨_, ?_, rfl⟩
  rw [exec_decSample hphase, decBody_reads (p := .unary 0) trivial (geometryOk_of_insideFrame hinside), valueFrom,
    decodeValue_failed_of_short hinp hshort]
  rfl

/-! ## The resumption law -/

theorem phase_of_bitsRead {s t : State} (h : BitsRead s t) : t.phase = s.phase := by
  obtain ⟨⟨_, _, _, _, _, rfl⟩, -⟩ := h
  rfl

/-- A fresh body leaves an open frame open, in DECODING or in FRAME_END (45_frame_sequencing.md R166). -/
theorem phase_of_bodyDone {s t : State} (h : BodyDone (.unary 0) s t) (hphase : s.phase = .decoding) :
    t.phase = .decoding ∨ t.phase = .frameEnd := by
  cases h with
  | nextChannel v hplace hread hmore => exact .inl ((phase_of_bitsRead hread).trans hphase)
  | timeStep bytes room hready =>
    cases hready with
    | decoded v hplace' hread hlast =>
      have hopen := (phase_of_bitsRead hread).trans hphase
      rw [closeTimeStep_phase]
      split
      · exact .inr rfl
      · exact .inl hopen

/-- A fresh body that waits has not left DECODING (20_memory.md R61(b), R66). -/
theorem phase_of_bodyWaits {q : Point} {s t : State} (h : BodyWaits (.unary 0) s q t) : t.phase = s.phase := by
  cases h with
  | reading hplace hthere hread => exact phase_of_bitsRead hread
  | emitting bytes rest room hready =>
    cases hready with
    | decoded v hplace' hread hlast => exact (phase_of_bitsRead hread :)

/-- How a DEC_SAMPLE of an open frame ends, and with which marks in the state: completed, failed in HALT, or in flight. -/
inductive SampleEnds (s : State) : State → Prop
  | done {t : State} (hbody : decBody (.unary 0) s = .done () t) (hflight : t.inFlight = none)
      (hopen : t.phase = .decoding ∨ t.phase = .frameEnd) : SampleEnds s t
  | failed {t : State} (hbody : decBody (.unary 0) s = .failed t) (hflight : t.inFlight = none)
      (hhalt : t.phase = .halt) : SampleEnds s t
  | waits {p : Point} {m : State} (hbody : decBody (.unary 0) s = .wait p m) (hphase : m.phase = .decoding) :
      SampleEnds s { m with inFlight := some (.sample p) }

theorem sampleEnds_of_next {s t : State} (hphase : s.phase = .decoding) (hflight : s.inFlight = none)
    (h : exec .decSample s = .next t) : SampleEnds s t := by
  rw [exec_decSample hphase] at h
  have hruns := decBody_runs (.unary 0) s
  have hkeeps := decBody_keepsControl (.unary 0) s
  cases hb : decBody (.unary 0) s with
  | stuck e => rw [hb] at h; cases h
  | done a m =>
    rw [hb] at h hruns hkeeps
    cases h
    exact .done hb (hkeeps.1.trans hflight) (phase_of_bodyDone hruns hphase)
  | failed m =>
    rw [hb] at h hruns hkeeps
    cases h
    obtain ⟨_, _, _, rfl⟩ := hruns
    exact .failed hb (hkeeps.1.trans hflight) rfl
  | wait p m =>
    rw [hb] at h hruns
    cases h
    exact .waits hb ((phase_of_bodyWaits hruns).trans hphase)

section
variable {s t : State} {bound : Option Nat} (hphase : s.phase = .decoding) (hbound : bound ≠ some 0)
include hphase hbound

/-- The first body of a decode loop, and the loop after it (45_frame_sequencing.md R167, R168, R170). -/
theorem decRun_of_body_done (hbody : decBody (.unary 0) s = .done () t) :
    decRun bound s = decRun (countStep bound t) t := by
  rw [decRun_of_go hbound hphase, decResume, hbody]
  rfl

theorem decRun_of_body_failed (hbody : decBody (.unary 0) s = .failed t) : decRun bound s = .failed t := by
  rw [decRun_of_go hbound hphase, decResume, hbody]
  rfl

theorem decRun_of_body_wait {p : Point} (hbody : decBody (.unary 0) s = .wait p t) :
    decRun bound s = .wait (bound, p) t := by
  rw [decRun_of_go hbound hphase, decResume, hbody]
  rfl

end

theorem countStep_none (s : State) : countStep none s = none := by
  simp [countStep]

theorem countStep_succ (n : Nat) (s : State) : countStep (some (n + 1)) s = some (if s.ch = 0 then n else n + 1) := by
  unfold countStep
  split <;> rfl

/-- Settles O48: the first body of either command is the DEC_SAMPLE, whichever way that ends. -/
theorem decodingResumesWhereItLeftOff : Obligations.DecodingResumesWhereItLeftOff := by
  intro s t hphase hflight hsample
  rw [exec_decFrame (.inl hphase)]
  simp only [exec_decStep hphase]
  cases sampleEnds_of_next hphase hflight hsample with
  | done hbody hnone hopen =>
    have hrun (n : Nat) : decRun (some (n + 1)) s = decRun (some (if t.ch = 0 then n else n + 1)) t := by
      rw [decRun_of_body_done hphase (by simp) hbody, countStep_succ]
    refine ⟨fun _ _ => ?frame, fun _ hdecoding n => ?steps, fun _ hend n => ?ended, fun hhalt => ?halted, ?waiting⟩
    case frame => rw [exec_decFrame hopen, decRun_of_body_done hphase (by simp) hbody, countStep_none]
    case steps => rw [exec_decStep hdecoding, hrun]
    case ended => rw [hrun, decRun_of_stop (.inr (by simp [hend]))]; rfl
    case halted => simp [hhalt] at hopen
    case waiting => simp [hnone]
  | failed hbody hnone hhalt =>
    have hrun {bound : Option Nat} (hbound : bound ≠ some 0) : decRun bound s = .failed t :=
      decRun_of_body_failed hphase hbound hbody
    refine ⟨fun _ hrunning => absurd hhalt hrunning, by simp [hhalt], by simp [hhalt], fun _ => ⟨?frame, fun n => ?steps⟩,
      by simp [hnone]⟩
    case frame => rw [hrun (by simp)]; rfl
    case steps => rw [hrun (by simp)]; rfl
  | waits hbody hdecoding =>
    refine ⟨by simp, by simp, by simp, by simp [hdecoding], ?_⟩
    rintro p ⟨⟩
    have hrun {bound : Option Nat} (hbound : bound ≠ some 0) := decRun_of_body_wait hphase hbound hbody
    refine ⟨?frame, fun n => ?steps⟩
    case frame => rw [hrun (by simp)]; rfl
    case steps => rw [hrun (by simp)]; rfl

/-! ## Codewords in turn -/

theorem afterSample_of_lt {s : State} (hmore : s.ch.toNat + 1 < s.nch.toNat) (v : Level × Word) :
    afterSample v s = { storeSample v s with ch := s.ch + 1 } := if_pos hmore

theorem afterSample_of_not_lt {s : State} (hlast : ¬ s.ch.toNat + 1 < s.nch.toNat) (v : Level × Word) :
    afterSample v s =
      closeTimeStep { decorrelateCache (storeSample v s) with pcm := s.pcm ++ timeStepBytes v s } := if_neg hlast

/-- What a body does to the block does not depend on the reader or on the room in the sink. -/
theorem afterSample_withStreams (v : Level × Word) (d s : State) :
    afterSample v (withStreams d s) = withStreams d (afterSample v s) := by
  by_cases hmore : s.ch.toNat + 1 < s.nch.toNat
  · rw [afterSample_of_lt hmore, afterSample_of_lt (s := withStreams d s) hmore]
    rfl
  · rw [afterSample_of_not_lt hmore, afterSample_of_not_lt (s := withStreams d s) hmore]
    rfl

/-- A body changes neither the configuration nor the length of the frame (45_frame_sequencing.md R165). -/
theorem afterSample_config (v : Level × Word) (s : State) :
    (afterSample v s).nch = s.nch ∧ (afterSample v s).bps = s.bps ∧ (afterSample v s).flen = s.flen := by
  unfold afterSample
  split <;> exact ⟨rfl, rfl, rfl⟩

theorem afterCodewords_withStreams (cws : List (Nat × List Bool)) (d s : State) :
    afterCodewords cws (withStreams d s) = withStreams d (afterCodewords cws s) := by
  induction cws generalizing s with
  | nil => rfl
  | cons cw cws ih => rw [afterCodewords, afterSample_withStreams, ih, afterCodewords]

theorem codewordsFit_withStreams {cws : List (Nat × List Bool)} {d s : State} :
    codewordsFit cws (withStreams d s) ↔ codewordsFit cws s := by
  induction cws generalizing s with
  | nil => exact Iff.rfl
  | cons cw cws ih =>
    rw [codewordsFit, afterSample_withStreams, ih]
    exact Iff.rfl

/-- `t` is `s` after DEC_SAMPLE bodies on `cws` in turn, with `bytes` read for them and `room` left in the sink
(45_frame_sequencing.md R166, 20_memory.md R61, R66). -/
structure DecodesTo (cws : List (Nat × List Bool)) (s t : State) (bytes : List Byte) (room : Option Nat) : Prop where
  /-- Exactly these bytes have been read. -/
  inp : s.inp = delivered bytes ++ t.inp
  crc : t.crc = crcAfter s.crc bytes
  count : t.count = s.count + BitVec.ofNat 32 bytes.length
  room : t.pcmRoom = room
  /-- Apart from the reader and the room, the block is as the bodies leave it. -/
  block : t = withStreams t (afterCodewords cws s)

theorem DecodesTo.refl (s : State) : DecodesTo [] s s [] s.pcmRoom :=
  ⟨rfl, rfl, (BitVec.add_zero s.count).symm, rfl, rfl⟩

theorem afterCodewords_flen (cws : List (Nat × List Bool)) (s : State) : (afterCodewords cws s).flen = s.flen := by
  induction cws generalizing s with
  | nil => rfl
  | cons cw cws ih =>
    obtain ⟨-, -, hflen⟩ := afterSample_config (levelOf cw.1, spelled cw.1 cw.2) s
    exact (ih _).trans hflen

theorem DecodesTo.flen {cws : List (Nat × List Bool)} {s t : State} {bytes : List Byte} {room : Option Nat}
    (h : DecodesTo cws s t bytes room) : t.flen = s.flen :=
  (congrArg State.flen h.block).trans (afterCodewords_flen cws s)

/-- One body more in front: bytes read and bodies run one after the other. -/
theorem DecodesTo.cons {u : Nat} {suffix : List Bool} {cws : List (Nat × List Bool)} {s m t : State}
    {bytes more : List Byte} {left room : Option Nat} (h1 : DecodesTo [(u, suffix)] s m bytes left)
    (h2 : DecodesTo cws m t more room) : DecodesTo ((u, suffix) :: cws) s t (bytes ++ more) room where
  inp := by rw [h1.inp, h2.inp, delivered, delivered, delivered, List.map_append, List.append_assoc]
  crc := by rw [h2.crc, h1.crc, crcAfter, crcAfter, crcAfter, List.foldl_append]
  count := by rw [h2.count, h1.count, List.length_append, BitVec.ofNat_add, BitVec.add_assoc]
  room := h2.room
  block := by
    have hblock := h2.block
    rw [h1.block, afterCodewords_withStreams] at hblock
    exact hblock

/-! ## The place in the frame -/

/-- An open frame between two bodies: in DECODING inside the frame, or in FRAME_END at its end (10_state.md R28, R29). -/
structure Between (s : State) : Prop where
  inside : insideFrame s
  place : (s.phase = .decoding ∧ s.pos.toNat < s.flen.toNat) ∨ (s.phase = .frameEnd ∧ s.pos = s.flen ∧ s.ch = 0)

/-- The time-steps that a decode loop with this bound has still to complete (45_frame_sequencing.md R167, R168). -/
def stepsLeft (bound : Option Nat) (s : State) : Nat :=
  match bound with
  | none => s.flen.toNat - s.pos.toNat
  | some n => min n (s.flen.toNat - s.pos.toNat)

/-- The bytes that DEC_SAMPLE emits on channel `CH`: none before the last channel (45_frame_sequencing.md R166). -/
def bytesDue (s : State) : Nat := if s.ch.toNat + 1 < s.nch.toNat then 0 else s.nch.toNat * depthOf s

theorem Between.stepsLeft_eq_zero_iff {s : State} (h : Between s) (bound : Option Nat) :
    stepsLeft bound s = 0 ↔ bound = some 0 ∨ s.phase ≠ .decoding := by
  rcases h.place with ⟨hphase, hpos⟩ | ⟨hphase, hpos, -⟩
  · cases bound with
    | none => simp [stepsLeft, hphase]; omega
    | some n => simp [stepsLeft, hphase]; omega
  · cases bound <;> simp [stepsLeft, hphase, hpos]

/-- How `CH` and `POS` move: to the next channel, or from the last channel to the next time-step
(45_frame_sequencing.md R166). -/
inductive Moves (s t : State) : Prop
  | channel (hmore : s.ch.toNat + 1 < s.nch.toNat) (hch : t.ch.toNat = s.ch.toNat + 1) (hpos : t.pos = s.pos)
  | timeStep (hlast : s.ch.toNat + 1 = s.nch.toNat) (hch : t.ch = 0) (hpos : t.pos.toNat = s.pos.toNat + 1)

theorem Between.ch_add_one {s : State} (h : Between s) (hmore : s.ch.toNat + 1 < s.nch.toNat) :
    (s.ch + 1).toNat = s.ch.toNat + 1 := by
  obtain ⟨-, hnch, -⟩ := h.inside
  bv_omega

section
variable {s : State} (h : Between s) (hphase : s.phase = .decoding)
include h hphase

theorem Between.pos_lt : s.pos.toNat < s.flen.toNat := by
  rcases h.place with ⟨-, hpos⟩ | ⟨hend, -, -⟩
  · exact hpos
  · simp [hphase] at hend

theorem Between.moves (v : Level × Word) : Moves s (afterSample v s) := by
  obtain ⟨hch, -, -⟩ := h.inside
  by_cases hmore : s.ch.toNat + 1 < s.nch.toNat
  · rw [afterSample_of_lt hmore]
    exact .channel hmore (h.ch_add_one hmore) rfl
  · rw [afterSample_of_not_lt hmore]
    exact .timeStep (by omega) rfl (pos_add_one (h.pos_lt hphase))

theorem Between.afterSample (v : Level × Word) : Between (afterSample v s) := by
  obtain ⟨hch, hnch, hbps⟩ := h.inside
  have hpos := h.pos_lt hphase
  by_cases hmore : s.ch.toNat + 1 < s.nch.toNat
  · rw [afterSample_of_lt hmore]
    exact ⟨⟨h.ch_add_one hmore ▸ hmore, hnch, hbps⟩, .inl ⟨hphase, hpos⟩⟩
  · rw [afterSample_of_not_lt hmore]
    refine ⟨⟨Nat.lt_of_le_of_lt (Nat.zero_le _) hch, hnch, hbps⟩, ?_⟩
    by_cases hend : s.pos + 1 = s.flen
    · exact .inr ⟨if_pos hend, hend, rfl⟩
    · refine .inl ⟨(if_neg hend).trans hphase, ?_⟩
      have hnext := pos_add_one hpos
      have hne : (s.pos + 1).toNat ≠ s.flen.toNat := fun heq => hend (BitVec.eq_of_toNat_eq heq)
      change (s.pos + 1).toNat < s.flen.toNat
      omega

end

/-- Inside a time-step the loop has as many to complete as before. -/
theorem stepsLeft_of_channel {s t : State} (bound : Option Nat) (hflen : t.flen = s.flen)
    (hch : t.ch.toNat = s.ch.toNat + 1) (hpos : t.pos = s.pos) :
    stepsLeft (countStep bound t) t = stepsLeft bound s := by
  have hne : t.ch ≠ 0 := fun hzero => by simp [hzero] at hch
  rw [countStep, if_neg hne]
  simp only [stepsLeft, hflen, hpos]

/-- With a time-step completed the loop has one fewer to complete. -/
theorem stepsLeft_of_timeStep {s t : State} {bound : Option Nat} (hflen : t.flen = s.flen) (hch : t.ch = 0)
    (hpos : t.pos.toNat = s.pos.toNat + 1) (hleft : stepsLeft bound s ≠ 0) :
    stepsLeft (countStep bound t) t + 1 = stepsLeft bound s := by
  rw [countStep, if_pos hch]
  cases bound with
  | none => simp only [stepsLeft, Option.map_none, hflen, hpos] at hleft ⊢; omega
  | some n => simp only [stepsLeft, Option.map_some, hflen, hpos] at hleft ⊢; omega

/-- What a body takes off the loop's work: one codeword, the bytes it emits, and a time-step where it completes one. -/
theorem Moves.work {s t : State} {bound : Option Nat} (h : Moves s t) (hnch : t.nch = s.nch) (hflen : t.flen = s.flen)
    (hleft : stepsLeft bound s ≠ 0) :
    stepsLeft bound s * s.nch.toNat - s.ch.toNat =
        stepsLeft (countStep bound t) t * t.nch.toNat - t.ch.toNat + 1 ∧
      stepsLeft bound s * (s.nch.toNat * depthOf s) =
        bytesDue s + stepsLeft (countStep bound t) t * (s.nch.toNat * depthOf s) ∧
      s.pos.toNat + stepsLeft bound s = t.pos.toNat + stepsLeft (countStep bound t) t ∧
      (t.ch = 0 ∨ 1 ≤ stepsLeft (countStep bound t) t) := by
  rw [hnch]
  cases h with
  | channel hmore hch hpos =>
    have hroom : s.nch.toNat ≤ stepsLeft bound s * s.nch.toNat := Nat.le_mul_of_pos_left _ (Nat.pos_of_ne_zero hleft)
    rw [stepsLeft_of_channel bound hflen hch hpos, bytesDue, if_pos hmore, Nat.zero_add, hpos]
    exact ⟨by omega, rfl, rfl, .inr (Nat.pos_of_ne_zero hleft)⟩
  | timeStep hlast hch hpos =>
    have hzero : t.ch.toNat = 0 := congrArg BitVec.toNat hch
    rw [← stepsLeft_of_timeStep hflen hch hpos hleft, bytesDue, if_neg (by omega), Nat.succ_mul, Nat.succ_mul, hzero, hpos]
    exact ⟨by omega, Nat.add_comm .., by omega, .inl hch⟩

/-! ## The decode loop on the codewords of its time-steps -/

theorem roomFor_add {room room' : Option Nat} {n m : Nat} (h : roomFor room (n + m) room') :
    ∃ left, roomFor room n left ∧ roomFor left m room' := by
  rcases h with ⟨rfl, rfl⟩ | ⟨r, rfl, rfl⟩
  · exact ⟨none, .inl ⟨rfl, rfl⟩, .inl ⟨rfl, rfl⟩⟩
  · exact ⟨some (r + m), .inr ⟨r + m, by rw [Nat.add_assoc, Nat.add_comm m], rfl⟩, .inr ⟨r, rfl, rfl⟩⟩

/-- A body on a codeword, with room for what it emits (45_frame_sequencing.md R166). -/
theorem decBody_decodes {s : State} {u : Nat} {suffix rest : List Bool} {left : Option Nat} (hinside : insideFrame s)
    (hu : u < 2 ^ 32) (hlength : suffix.length = suffixWidth (channelAt s s.ch.toNat) u)
    (hbits : unreadBits s = codeword u suffix ++ rest) (hroom : roomFor s.pcmRoom (bytesDue s) left) :
    ∃ d bytes, decBody (.unary 0) s = .done () (withStreams d (afterSample (levelOf u, spelled u suffix) s)) ∧
      unreadBits d = rest ∧
      DecodesTo [(u, suffix)] s (withStreams d (afterSample (levelOf u, spelled u suffix) s)) bytes left := by
  obtain ⟨m, bytes, hbody, hrest, hread⟩ := decBody_of_codeword hinside hu hlength hbits
  obtain ⟨d, hkept, rfl⟩ := exists_withStreams_of_readFrom hread
  refine ⟨{ d with pcmRoom := left }, bytes, ?_, hrest,
    ⟨hread.1, congrArg State.crc hread.2, congrArg State.count hread.2, rfl, rfl⟩⟩
  rw [hbody]
  by_cases hmore : s.ch.toNat + 1 < s.nch.toNat
  · rw [bytesDue, if_pos hmore, roomFor_zero_iff] at hroom
    rw [afterValue_of_lt (s := withStreams d s) hmore, afterSample_of_lt hmore, hroom, ← hkept]
    rfl
  · rw [bytesDue, if_neg hmore, ← hkept, ← length_timeStepBytes (levelOf u, spelled u suffix)] at hroom
    rw [afterValue_room (s := withStreams d s) (Nat.not_lt.mp hmore) hroom, afterSample_of_not_lt hmore]
    rfl

/-- The decode loop on the codewords of the time-steps it has to complete: it takes exactly their bits and is the bodies on
them in turn (45_frame_sequencing.md R167, R168). -/
theorem decRun_decodes {cws : List (Nat × List Bool)} {bound : Option Nat} {s : State} {rest : List Bool}
    {room : Option Nat} (h : Between s) (hlength : cws.length = stepsLeft bound s * s.nch.toNat - s.ch.toNat)
    (hfit : codewordsFit cws s) (hbits : unreadBits s = codewordBits cws ++ rest)
    (hroom : roomFor s.pcmRoom (stepsLeft bound s * (s.nch.toNat * depthOf s)) room) :
    ∃ t bytes, decRun bound s = .done () t ∧ unreadBits t = rest ∧ DecodesTo cws s t bytes room ∧ Between t ∧
      t.pos.toNat = s.pos.toNat + stepsLeft bound s ∧ (s.ch = 0 ∨ 1 ≤ stepsLeft bound s → t.ch = 0) := by
  have hch := h.inside.1
  induction cws generalizing bound s with
  | nil =>
    have hzero : stepsLeft bound s = 0 := by
      by_contra hne
      have : 1 * s.nch.toNat ≤ stepsLeft bound s * s.nch.toNat := Nat.mul_le_mul_right _ (by omega)
      simp only [List.length_nil] at hlength
      omega
    rw [hzero, Nat.zero_mul, roomFor_zero_iff] at hroom
    refine ⟨s, [], decRun_of_stop ((h.stepsLeft_eq_zero_iff bound).mp hzero), hbits, hroom ▸ .refl s, h, ?_, ?_⟩
    · rw [hzero]; rfl
    · simp [hzero]
  | cons cw cws ih =>
    obtain ⟨u, suffix⟩ := cw
    obtain ⟨⟨hu, hwidth⟩, hfit⟩ := hfit
    have hleft : stepsLeft bound s ≠ 0 := fun hzero => by simp [hzero] at hlength
    obtain ⟨hbound, hphase⟩ : bound ≠ some 0 ∧ s.phase = .decoding := by
      simpa using (h.stepsLeft_eq_zero_iff bound).not.mp hleft
    rw [codewordBits, List.flatMap_cons, List.append_assoc] at hbits
    have hnext := h.afterSample hphase (levelOf u, spelled u suffix)
    have hmoves := h.moves hphase (levelOf u, spelled u suffix)
    obtain ⟨hnch, hbps, hflen⟩ := afterSample_config (levelOf u, spelled u suffix) s
    obtain ⟨hcodewords, hbytes, hplace, hch0⟩ := hmoves.work hnch hflen hleft
    obtain ⟨left, hdue, hroom⟩ := roomFor_add (hbytes ▸ hroom)
    obtain ⟨d, bytes, hbody, hrest, hfirst⟩ := decBody_decodes h.inside hu hwidth hbits hdue
    generalize afterSample (levelOf u, spelled u suffix) s = next at *
    have hdepth : depthOf next = depthOf s := by rw [depthOf, depthOf, hbps]
    rw [← hnch, ← hdepth, ← hfirst.room] at hroom
    obtain ⟨t, more, hrun, hend, hdec, hbetween, hpos, hzero⟩ :=
      ih (bound := countStep bound next) (s := withStreams d next) ⟨hnext.inside, hnext.place⟩
        (Nat.succ.inj (hlength.trans hcodewords)) (codewordsFit_withStreams.mpr hfit) hrest hroom hnext.inside.1
    refine ⟨t, bytes ++ more, ?_, hend, hfirst.cons hdec, hbetween, hpos.trans hplace.symm, fun _ => hzero hch0⟩
    exact (decRun_of_body_done hphase hbound hbody).trans hrun

/-- The same with the bytes read before the bodies are run, as the statements have it. -/
theorem DecodesTo.exists_readFrom {cws : List (Nat × List Bool)} {s t : State} {bytes : List Byte} {room : Option Nat}
    (h : DecodesTo cws s t bytes room) :
    ∃ m, readFrom s m bytes ∧ t = { afterCodewords cws m with pcmRoom := room } := by
  refine ⟨withStreams { t with pcmRoom := s.pcmRoom } s, ⟨h.inp, ?_⟩, ?_⟩
  · rw [withStreams, h.crc, h.count]
  · rw [afterCodewords_withStreams, ← h.room]
    exact h.block

/-- Settles O45: the loop on the codewords of its time-steps, the bound counting those that the frame has left. -/
theorem decStepDecodesItsTimeSteps : Obligations.DecStepDecodesItsTimeSteps := by
  intro s n todo cws rest room hphase hinside hpos htodo hlength hfit hbits hroom
  subst htodo
  obtain ⟨t, bytes, hrun, hrest, hdec, hbetween, hplace, hch⟩ :=
    decRun_decodes (bound := some n) ⟨hinside, .inl ⟨hphase, hpos⟩⟩ hlength hfit hbits hroom
  obtain ⟨m, hread, ht⟩ := hdec.exists_readFrom
  refine ⟨t, m, bytes, ?_, hread, hrest, ht, fun hn => ⟨hch (.inr ?_), hplace, ?_⟩⟩
  · rw [exec_decStep hphase, hrun]
    rfl
  · exact Nat.le_min.mpr ⟨hn, by omega⟩
  · have hflen : t.flen = s.flen := hdec.flen
    rcases hbetween.place with ⟨hopen, hbefore⟩ | ⟨hend, hat, -⟩
    · rw [if_neg (fun heq => by rw [heq, hflen] at hbefore; exact absurd hbefore (lt_irrefl _)), hopen]
    · rw [if_pos (hat.trans hflen), hend]

/-! ## A whole frame -/

/-- Fewer than eight bits left of bytes are no whole byte: all of them have been read (20_memory.md R63, R68). -/
theorem all_read_of_padding {bytes read : List Byte} {t : State} (hinp : delivered bytes = delivered read ++ t.inp)
    (hpad : (unreadBits t).length < 8) : t.inp = [] ∧ read = bytes := by
  have hinj : Function.Injective delivered := List.map_injective_iff.mpr fun _ _ => SrcItem.byte.inj
  cases hrest : t.inp with
  | nil =>
    rw [hrest, List.append_nil] at hinp
    exact ⟨rfl, (hinj hinp).symm⟩
  | cons item items =>
    have hmem : item ∈ delivered bytes := by rw [hinp, hrest]; simp
    obtain ⟨b, -, rfl⟩ := List.mem_map.mp hmem
    simp [unreadBits, hrest, sourceBits, lowBits] at hpad
    omega

/-- The unbounded loop on the codewords that the frame has left ends in FRAME_END (45_frame_sequencing.md R168). -/
theorem decRun_decodes_frame {cws : List (Nat × List Bool)} {s : State} {rest : List Bool} {room : Option Nat}
    (hphase : s.phase = .decoding) (hinside : insideFrame s) (hpos : s.pos.toNat < s.flen.toNat)
    (hlength : cws.length = (s.flen.toNat - s.pos.toNat) * s.nch.toNat - s.ch.toNat) (hfit : codewordsFit cws s)
    (hbits : unreadBits s = codewordBits cws ++ rest)
    (hroom : roomFor s.pcmRoom ((s.flen.toNat - s.pos.toNat) * (s.nch.toNat * depthOf s)) room) :
    ∃ t bytes, decRun none s = .done () t ∧ unreadBits t = rest ∧ DecodesTo cws s t bytes room ∧ t.phase = .frameEnd ∧
      t.pos = s.flen ∧ t.ch = 0 := by
  obtain ⟨t, bytes, hrun, hrest, hdec, hbetween, hplace, -⟩ :=
    decRun_decodes (bound := none) ⟨hinside, .inl ⟨hphase, hpos⟩⟩ hlength hfit hbits hroom
  refine ⟨t, bytes, hrun, hrest, hdec, ?_⟩
  rw [← hdec.flen]
  rcases hbetween.place with ⟨-, hbefore⟩ | hend
  · rw [hplace, stepsLeft, hdec.flen] at hbefore
    omega
  · exact hend

/-- The loop on the frame's bytes alone takes all of them, so it ends alike with more answers of the source behind them
(45_frame_sequencing.md R168, 20_memory.md R68). -/
theorem decRun_frame_of_bytes {cws : List (Nat × List Bool)} {s : State} {bytes : List Byte} {pad : List Bool}
    {behind : List SrcItem} {room : Option Nat} (hphase : s.phase = .decoding) (hinside : insideFrame s)
    (hpos : s.pos.toNat < s.flen.toNat)
    (hlength : cws.length = (s.flen.toNat - s.pos.toNat) * s.nch.toNat - s.ch.toNat) (hfit : codewordsFit cws s)
    (hinp : s.inp = delivered bytes ++ behind)
    (hbits : lowBits s.bcount.toNat s.bcache ++ sourceBits (delivered bytes) = codewordBits cws ++ pad)
    (hpad : pad.length < 8)
    (hroom : roomFor s.pcmRoom ((s.flen.toNat - s.pos.toNat) * (s.nch.toNat * depthOf s)) room) :
    ∃ x n, decRun none s = .done () { afterCodewords cws s with
      inp := behind, crc := crcAfter s.crc bytes, count := s.count + BitVec.ofNat 32 bytes.length, bcache := x, bcount := n
      pcmRoom := room, phase := .frameEnd, pos := s.flen, ch := 0 } := by
  have halone : { s with inp := delivered bytes } = withStreams { s with inp := delivered bytes } s := rfl
  obtain ⟨t, read, hrun, hrest, hdec, hend, hat, hzero⟩ :=
    decRun_decodes_frame (s := { s with inp := delivered bytes }) hphase hinside hpos hlength
      (halone ▸ codewordsFit_withStreams.mpr hfit) hbits hroom
  obtain ⟨hnil, rfl⟩ := all_read_of_padding hdec.inp (hrest ▸ hpad)
  have hall : (later behind).act { s with inp := delivered read } = s := by rw [later_act, ← hinp]
  have hrunall := decRun_act (later behind) none { s with inp := delivered read }
  rw [hall, hrun, takenUp_done, later_act, hnil] at hrunall
  obtain ⟨-, hcrc, hcount, hleft, hblock⟩ := hdec
  rw [halone, afterCodewords_withStreams] at hblock
  obtain ⟨d, rfl⟩ : ∃ d, t = withStreams d (afterCodewords cws s) := ⟨t, hblock⟩
  refine ⟨d.bcache, d.bcount, ?_⟩
  rw [hrunall, ← hend, ← hat, ← hzero, ← hleft]
  change d.crc = crcAfter s.crc read at hcrc
  change d.count = s.count + BitVec.ofNat 32 read.length at hcount
  rw [← hcrc, ← hcount]
  rfl

/-- Settles O46: the decode loop on the frame's bytes, and VERIFY on the trailer behind them. -/
theorem decFrameDecodesTheFrameAndVerifies : Obligations.DecFrameDecodesTheFrameAndVerifies := by
  intro s cws bytes pad b0 b1 b2 b3 rest room hphase hinside hpos hlength hfit hinp hbits hpad hroom
  refine ⟨_, littleEndian [b0, b1, b2, b3], rfl, toNat_littleEndian_four b0 b1 b2 b3, ?_⟩
  rw [delivered, List.map_append, List.append_assoc] at hinp
  obtain ⟨x, n, hrun⟩ := decRun_frame_of_bytes hphase hinside hpos hlength hfit hinp hbits hpad hroom
  rw [exec_decFrame_of_done (.inl hphase) hrun rfl, exec_verify_full (trailer := [b0, b1, b2, b3]) (.inr rfl) rfl rfl]
  simp [concludeVerify, readerReset, reportChecksum, consumed, bne, beq_eq_decide, BitVec.ofNat_add, BitVec.add_assoc]

/-! ## Two runs side by side -/

section
variable {π ρ α β : Type} {R : State → State → Prop}

/-- Two reads that answer alike, in states that `R` relates. -/
inductive GotAlike (R : State → State → Prop) : Got α → Got α → Prop
  | got (a : α) {s t : State} (h : R s t) : GotAlike R (.got a s) (.got a t)
  | notYet : GotAlike R .notYet .notYet
  | failed {s t : State} (h : R s t) : GotAlike R (.failed s) (.failed t)

/-- Two runs that end alike, in states that `R` relates. -/
inductive RunsAlike (R : State → State → Prop) : Run π α → Run π α → Prop
  | done (a : α) {s t : State} (h : R s t) : RunsAlike R (.done a s) (.done a t)
  | wait (p : π) {s t : State} (h : R s t) : RunsAlike R (.wait p s) (.wait p t)
  | failed {s t : State} (h : R s t) : RunsAlike R (.failed s) (.failed t)
  | stuck (e : Fault) : RunsAlike R (.stuck e) (.stuck e)

theorem RunsAlike.bind {r r' : Run π α} {f : α → State → Run π β} (h : RunsAlike R r r')
    (hf : ∀ a s t, R s t → RunsAlike R (f a s) (f a t)) : RunsAlike R (r.bind f) (r'.bind f) := by
  cases h with
  | done a h => exact hf a _ _ h
  | wait p h => exact .wait p h
  | failed h => exact .failed h
  | stuck e => exact .stuck e

theorem RunsAlike.mapWait {r r' : Run π α} (g : π → ρ) (h : RunsAlike R r r') :
    RunsAlike R (r.mapWait g) (r'.mapWait g) := by
  cases h with
  | done a h => exact .done a h
  | wait p h => exact .wait (g p) h
  | failed h => exact .failed h
  | stuck e => exact .stuck e

/-- Two commands that run alike answer alike, when keeping the command in flight keeps `R`. -/
theorem RunsAlike.settle {r r' : Run Job Unit} {s : State} (h : RunsAlike R r r')
    (hflight : ∀ j s t, R s t → R { s with inFlight := some j } { t with inFlight := some j })
    (hs : settle r = .next s) : ∃ t, Machine.settle r' = .next t ∧ R s t := by
  cases h with
  | done a h => cases hs; exact ⟨_, rfl, h⟩
  | wait j h => cases hs; exact ⟨_, rfl, hflight j _ _ h⟩
  | failed h => cases hs; exact ⟨_, rfl, h⟩
  | stuck e => cases hs

/-- The reader cannot tell states apart that `R` relates (20_memory.md R63). -/
structure SameReader (R : State → State → Prop) : Prop where
  bit : ∀ {s t}, R s t → GotAlike R (nextBit s) (nextBit t)
  avail : ∀ {s t}, R s t → bitsAvail s = bitsAvail t

variable {s t : State} (hR : SameReader R)
include hR

theorem SameReader.readUnary (h : R s t) (n : Nat) (u : Word) :
    RunsAlike R (readUnary n u s) (readUnary n u t) := by
  induction n generalizing u s t with
  | zero => exact .wait _ h
  | succ n ih =>
    have hbit := hR.bit h
    unfold Machine.readUnary
    generalize nextBit s = x at hbit ⊢
    generalize nextBit t = y at hbit ⊢
    cases hbit with
    | notYet => exact .wait _ h
    | failed hbit => exact .failed hbit
    | got b hbit =>
      cases b with
      | false => exact .done u hbit
      | true => exact ih hbit (u + 1)

theorem SameReader.readBits (h : R s t) (level : Level) (a : Word) (left i : Nat) (acc : Word) :
    RunsAlike R (readBits level a left i acc s) (readBits level a left i acc t) := by
  induction left generalizing i acc s t with
  | zero => exact .done acc h
  | succ left ih =>
    have hbit := hR.bit h
    unfold Machine.readBits
    generalize nextBit s = x at hbit ⊢
    generalize nextBit t = y at hbit ⊢
    cases hbit with
    | notYet => exact .wait _ h
    | failed hbit => exact .failed hbit
    | got b hbit => exact ih hbit _ _

theorem SameReader.readSuffix (h : R s t) (level : Level) (a : Word) (left i : Nat) (acc : Word) :
    RunsAlike R (readSuffix level a left i acc s) (readSuffix level a left i acc t) :=
  (hR.readBits h level a left i acc).bind fun _ _ _ h => .done _ h

theorem SameReader.decodeValue (h : R s t) (ch : Channel) (u : Word) :
    RunsAlike R (decodeValue ch u s) (decodeValue ch u t) := by
  unfold Machine.decodeValue
  rw [hR.avail h]
  refine (hR.readUnary h _ u).bind fun u' m n hmn => ?_
  rw [afterUnary_eq, afterUnary_eq]
  split
  · exact hR.readSuffix hmn ..
  · exact hR.readSuffix hmn ..

end

/-! ## A frame decodes alike whatever was before -/

/-- `s` with the elements that no decode command reads as `d` has them, and `out` as its `PCM`. -/
def withPast (d : State) (out : List Byte) (s : State) : State :=
  { s with
    pcm := out, crcCalc := d.crcCalc, crcStored := d.crcStored, errCmd := d.errCmd, errCfg := d.errCfg, errIo := d.errIo
    freeCount := d.freeCount, cmd := d.cmd, rawOut := d.rawOut, rawRoom := d.rawRoom, inFlight := d.inFlight
    resetReq := d.resetReq }

/-- `s` and `t` agree on all that a decode command reads, and have put the same bytes out after `p` and after `q`. -/
def Alike (p q : List Byte) (s t : State) : Prop :=
  ∃ bytes d, s.pcm = p ++ bytes ∧ t = withPast d (q ++ bytes) s

section
variable {p q : List Byte} {s t : State}

/-- What `withPast` leaves alone is the same in both. -/
theorem Alike.congr {α : Type} (h : Alike p q s t) (f : State → α) (hf : ∀ d out u, f (withPast d out u) = f u) :
    f t = f s := by
  obtain ⟨_, _, -, rfl⟩ := h
  exact hf _ _ s

/-- A failed read sets a flag that is no part of the comparison, and enters HALT (60_exceptions.md R205). -/
theorem Alike.nextByte (h : Alike p q s t) : GotAlike (Alike p q) (nextByte s) (nextByte t) := by
  obtain ⟨bytes, d, hpcm, rfl⟩ := h
  cases hinp : s.inp with
  | nil =>
    rw [nextByte_nil hinp, nextByte_nil (s := withPast d (q ++ bytes) s) hinp]
    exact .notYet
  | cons item rest =>
    cases item with
    | byte b =>
      rw [nextByte_byte hinp, nextByte_byte (s := withPast d (q ++ bytes) s) hinp]
      exact .got b ⟨bytes, d, hpcm, rfl⟩
    | failure =>
      rw [nextByte_failure hinp, nextByte_failure (s := withPast d (q ++ bytes) s) hinp]
      exact .failed ⟨bytes, { d with errIo := true }, hpcm, rfl⟩

theorem Alike.nextBit (h : Alike p q s t) : GotAlike (Alike p q) (nextBit s) (nextBit t) := by
  have hcount : t.bcount = s.bcount := h.congr State.bcount fun _ _ _ => rfl
  by_cases h0 : s.bcount = 0
  · have hbyte := h.nextByte
    rw [Machine.nextBit, Machine.nextBit, if_pos h0, if_pos (hcount.trans h0)]
    generalize Machine.nextByte s = x at hbyte ⊢
    generalize Machine.nextByte t = y at hbyte ⊢
    cases hbyte with
    | notYet => exact .notYet
    | failed hbyte => exact .failed hbyte
    | got b hbyte =>
      obtain ⟨bytes, d, hpcm, rfl⟩ := hbyte
      exact .got _ ⟨bytes, d, hpcm, rfl⟩
  · rw [nextBit_cached h0, nextBit_cached (hcount ▸ h0)]
    obtain ⟨bytes, d, hpcm, rfl⟩ := h
    exact .got _ ⟨bytes, d, hpcm, rfl⟩

theorem sameReader_alike (p q : List Byte) : SameReader (Alike p q) where
  bit := Alike.nextBit
  avail h := (h.congr bitsAvail fun _ _ _ => rfl).symm

/-- The same bytes go out and the same rest stays (20_memory.md R66). -/
theorem Alike.emitPcm (h : Alike p q s t) (bytes : List Byte) :
    (emitPcm bytes s).1 = (emitPcm bytes t).1 ∧ Alike p q (emitPcm bytes s).2 (emitPcm bytes t).2 := by
  induction bytes generalizing s t with
  | nil => exact ⟨rfl, h⟩
  | cons b bytes ih =>
    have hroom : t.pcmRoom = s.pcmRoom := h.congr State.pcmRoom fun _ _ _ => rfl
    cases htake : takeRoom s.pcmRoom with
    | none =>
      simp only [Machine.emitPcm, hroom, htake]
      exact ⟨trivial, h⟩
    | some r =>
      simp only [Machine.emitPcm, hroom, htake]
      refine ih ?_
      obtain ⟨sent, d, hpcm, rfl⟩ := h
      exact ⟨sent ++ [b], d, by rw [hpcm, List.append_assoc], by rw [← List.append_assoc]; rfl⟩

theorem Alike.emitAndClose (h : Alike p q s t) (bytes : List Byte) :
    RunsAlike (Alike p q) (emitAndClose bytes s) (emitAndClose bytes t) := by
  obtain ⟨hrest, hstate⟩ := h.emitPcm bytes
  unfold Machine.emitAndClose
  generalize Machine.emitPcm bytes s = x at hrest hstate ⊢
  generalize Machine.emitPcm bytes t = y at hrest hstate ⊢
  obtain ⟨left, u⟩ := x
  obtain ⟨left', u'⟩ := y
  obtain rfl : left = left' := hrest
  cases left with
  | cons b left => exact .wait _ hstate
  | nil =>
    obtain ⟨sent, d, hpcm, rfl⟩ : Alike p q u u' := hstate
    exact .done () ⟨sent, d, hpcm, rfl⟩

theorem Alike.afterValue (h : Alike p q s t) (v : Level × Word) :
    RunsAlike (Alike p q) (afterValue v s) (afterValue v t) := by
  obtain ⟨sent, d, hpcm, rfl⟩ := h
  by_cases hmore : s.ch.toNat + 1 < s.nch.toNat
  · rw [afterValue_of_lt hmore, afterValue_of_lt (s := withPast d (q ++ sent) s) hmore]
    exact .done () ⟨sent, d, hpcm, rfl⟩
  · rw [afterValue_of_not_lt hmore, afterValue_of_not_lt (s := withPast d (q ++ sent) s) hmore]
    exact Alike.emitAndClose (s := decorrelateCache (storeSample v s)) ⟨sent, d, hpcm, rfl⟩ (timeStepBytes v s)

theorem Alike.decBody (h : Alike p q s t) :
    RunsAlike (Alike p q) (decBody (.unary 0) s) (decBody (.unary 0) t) := by
  have hgeometry : geometryOk t = geometryOk s := h.congr geometryOk fun _ _ _ => rfl
  have hchannel : channelAt t t.ch.toNat = channelAt s s.ch.toNat :=
    h.congr (fun u => channelAt u u.ch.toNat) fun _ _ _ => rfl
  unfold Machine.decBody
  rw [hgeometry, hchannel]
  split
  · exact ((sameReader_alike p q).decodeValue h _ 0).bind fun v _ _ h => h.afterValue v
  · exact .stuck _

theorem Alike.decLoop (h : Alike p q s t) (n : Nat) (bound : Option Nat) :
    RunsAlike (Alike p q) (decLoop n bound s) (decLoop n bound t) := by
  induction n generalizing bound s t with
  | zero => exact .wait _ h
  | succ n ih =>
    have hphase : t.phase = s.phase := h.congr State.phase fun _ _ _ => rfl
    unfold Machine.decLoop
    rw [hphase]
    split
    · exact .done () h
    · refine (h.decBody.mapWait _).bind fun _ u u' hu => ?_
      have hcount : countStep bound u' = countStep bound u := hu.congr (countStep bound) fun _ _ _ => rfl
      exact hcount ▸ ih hu _

theorem Alike.readTrailer (h : Alike p q s t) (sum : Word) (left : Nat) (got : List Byte) :
    RunsAlike (Alike p q) (readTrailer sum left got s) (readTrailer sum left got t) := by
  induction left generalizing got s t with
  | zero => exact .done got h
  | succ left ih =>
    have hbyte := h.nextByte
    unfold Machine.readTrailer
    generalize Machine.nextByte s = x at hbyte ⊢
    generalize Machine.nextByte t = y at hbyte ⊢
    cases hbyte with
    | notYet => exact .wait _ h
    | failed hbyte => exact .failed hbyte
    | got b hbyte => exact ih hbyte _

/-- VERIFY overwrites what it reports (41_checksum.md R132, R133). -/
theorem Alike.verifyRun (h : Alike p q s t) : RunsAlike (Alike p q) (verifyRun s) (verifyRun t) := by
  have hcrc : t.crc = s.crc := h.congr State.crc fun _ _ _ => rfl
  unfold Machine.verifyRun
  rw [hcrc]
  refine (h.readTrailer _ _ []).bind fun got _ _ hu => ?_
  obtain ⟨sent, d, hpcm, rfl⟩ := hu
  exact .done () ⟨sent, { d with crcCalc := _, crcStored := _ }, hpcm, rfl⟩

/-- DEC_FRAME answers alike (45_frame_sequencing.md R168). -/
theorem Alike.exec_decFrame {s' : State} (h : Alike p q s t) (hphase : s.phase = .decoding)
    (hs : exec .decFrame s = .next s') : ∃ t', exec .decFrame t = .next t' ∧ Alike p q s' t' := by
  have hphase' : t.phase = s.phase := h.congr State.phase fun _ _ _ => rfl
  rw [FrameSequencing.exec_decFrame (.inl hphase)] at hs
  rw [FrameSequencing.exec_decFrame (.inl (hphase'.trans hphase))]
  have hloop : RunsAlike (Alike p q) (decRun none s) (decRun none t) := by
    unfold decRun
    rw [(sameReader_alike p q).avail h]
    exact h.decLoop _ none
  refine RunsAlike.settle ((hloop.mapWait loopJob).bind fun _ _ _ hu => hu.verifyRun) ?_ hs
  rintro j _ _ ⟨sent, d, hpcm, rfl⟩
  exact ⟨sent, { d with inFlight := some j }, hpcm, rfl⟩

end

/-- The test of FRAME_INIT, register by register (46_config_control.md R186). -/
theorem configComplete_iff (s : State) : configComplete s = true ↔ completeConfiguration s := by
  have hfmt (n : Nat) (hn : n < 4) : s.fmt.toNat = n ↔ s.fmt = BitVec.ofNat 2 n := by
    rw [← BitVec.toNat_inj, BitVec.toNat_ofNat, Nat.mod_eq_of_lt hn]
  simp only [configComplete, completeConfiguration, Bool.and_eq_true, legalNch_iff, legalBps_iff, legalFmt, legalFlen,
    keyOk, Bool.or_eq_true, beq_iff_eq, decide_eq_true_iff, hfmt 1 (by decide), hfmt 2 (by decide), and_assoc]
  exact Iff.rfl

theorem exec_frameInit {s : State} (hrunning : s.phase ≠ .halt) (hcomplete : completeConfiguration s) :
    exec .frameInit s = .next (openFrame s) := by
  rw [exec_accepted (by simpa [accepts] using hrunning), ownRule, if_pos ((configComplete_iff s).mpr hcomplete)]

theorem completeConfiguration_of_sameConfig {s t : State} (h : sameConfig s t) (hs : completeConfiguration s) :
    completeConfiguration t := by
  obtain ⟨hnch, hbps, hfmt, hflen, -, hkeymask⟩ := h
  rwa [completeConfiguration, hnch, hbps, hfmt, hflen, hkeymask] at hs

/-- FRAME_INIT makes a channel from the configuration alone (46_config_control.md R186). -/
theorem initChannel_eq_of_sameConfig {s t : State} (h : sameConfig s t) (ch ch' : Channel) :
    initChannel s ch = initChannel t ch' := by
  obtain ⟨-, -, hfmt, -, hkey, -⟩ := h
  simp only [initChannel, predInit, filterInit_eq, entropyInit_eq, hfmt, hkey]

/-- What FRAME_INIT leaves of the past no decode command reads (45_frame_sequencing.md R171). -/
theorem openFrame_alike {s t : State} (h : sameConfig s t) (hinp : s.inp = t.inp) (hroom : s.pcmRoom = t.pcmRoom) :
    Alike s.pcm t.pcm (openFrame s) (openFrame t) := by
  refine ⟨[], t, (List.append_nil _).symm, ?_⟩
  have hchan : (Vector.ofFn fun c => initChannel s s.chan[c]) = Vector.ofFn fun c => initChannel t t.chan[c] :=
    congrArg Vector.ofFn (funext fun c => initChannel_eq_of_sameConfig h _ _)
  obtain ⟨hnch, hbps, hfmt, hflen, hkey, hkeymask⟩ := h
  simp only [openFrame, withPast, clearChecksumFlags, readerReset, List.append_nil, hchan, hnch, hbps, hfmt, hflen, hkey,
    hkeymask, hinp, hroom]

/-- Settles O22: the two frames are opened alike, and decode alike. -/
theorem frameInitForgetsThePast : Obligations.FrameInitForgetsThePast := by
  intro s1 s2 a b a' hconfig hcomplete hinp hroom hrunning1 hrunning2 ha hb hframe
  rw [exec_frameInit hrunning1 hcomplete] at ha
  rw [exec_frameInit hrunning2 (completeConfiguration_of_sameConfig hconfig hcomplete)] at hb
  cases ha
  cases hb
  obtain ⟨b', hframe', bytes, d, hpcm, rfl⟩ := (openFrame_alike hconfig hinp hroom).exec_decFrame rfl hframe
  exact ⟨_, bytes, hframe', hpcm, rfl, rfl, rfl, rfl, rfl, rfl, rfl, rfl, rfl, rfl, rfl, rfl, rfl⟩

end Sys2Proof.Proofs.FrameSequencing

/-! Proofs of the statements about 46_config_control.md: the prologue (R190), the configuration commands (R180 to R185),
FRAME_INIT (R186), the resets (R187, R188) and RAW (R189). -/

namespace Sys2Proof.Proofs.ConfigControl

open Sys2Proof Sys2Proof.Machine Sys2Proof.Proofs.BlockState Sys2Proof.Proofs.Memory Sys2Proof.Proofs.Encoding
  Sys2Proof.Proofs.Checksum Sys2Proof.Proofs.FrameSequencing

/-! ## The prologue -/

section
variable {i : Instr} {s : State}

/-- In a phase that does not accept it a command only sets `ERR_CMD` (46_config_control.md R190 steps 3 and 4). -/
theorem exec_refused (h : accepts i s.phase = false) : exec i s = .next { s with errCmd := true } := by
  rw [exec_eq_prologue, prologue_refused h]
  rfl

/-- What IDLE accepts follows its own rule there (46_config_control.md R190 step 5). -/
theorem exec_idle (hidle : s.phase = .idle) (h : accepts i .idle = true) : exec i s = ownRule i s :=
  exec_accepted (hidle ▸ h)

theorem accepts_halt (h : i ≠ .softReset) : accepts i .halt = false := by
  cases i with
  | softReset => exact absurd rfl h
  | _ => rfl

theorem exec_halt (hhalt : s.phase = .halt) (h : i ≠ .softReset) : exec i s = .next { s with errCmd := true } :=
  exec_refused (hhalt ▸ accepts_halt h)

end

/-- Settles O10: the HALT column of the legality table holds SOFT_RESET alone. -/
theorem haltAcceptsOnlySoftReset : Obligations.HaltAcceptsOnlySoftReset := fun _ _ => exec_halt

/-- Settles O11, column by column of the legality table. -/
theorem refusedPhaseOnlySetsErrCmd : Obligations.RefusedPhaseOnlySetsErrCmd := by
  intro s
  refine ⟨fun hphase n k i hi => exec_refused ?idle, fun hphase n i hi => exec_refused ?decoding,
    fun hdecoding hend => exec_refused ?decFrame, fun hidle hend => exec_refused ?verify,
    fun hhalt i hi => exec_halt hhalt ?halt⟩
  case idle =>
    revert i
    simpa [accepts] using hphase
  case decoding =>
    revert i
    simpa [accepts] using hphase
  case decFrame => simp [accepts, hdecoding, hend]
  case verify => simp [accepts, hidle, hend]
  case halt =>
    rintro rfl
    simp at hi

/-! ## NOP and the configuration commands -/

/-- A word put together as the number of its opcode above its operand field (30_encoding.md R80). -/
theorem decode_opcode_add_operandField (i : Instr) {opcode base : Nat} (hopcode : i.opcode = opcode)
    (hbase : opcode * 2 ^ 28 = base) (hwf : i.wellFormed = true) :
    decode (BitVec.ofNat 32 (base + i.operandField)) = .command i := by
  subst hopcode hbase
  exact decodeInvertsEncode i hwf

/-- Settles O12: the word is the encoding of NOP, whose own rule does nothing. -/
theorem nopChangesNothing : Obligations.NopChangesNothing :=
  ⟨decodeInvertsEncode .nop rfl, fun _ =>
    ⟨fun hrunning => exec_accepted (bne_iff_ne.mpr hrunning), fun hhalt => exec_halt hhalt nofun⟩⟩

/-- Outside IDLE a command that only IDLE accepts is refused (46_config_control.md R190 step 4). -/
theorem exec_refused_of_idle_only {i : Instr} {s : State} (h : ∀ p, accepts i p = (p == .idle))
    (hphase : s.phase ≠ .idle) : exec i s = .next { s with errCmd := true } :=
  exec_refused ((h _).trans (beq_false_of_ne hphase))

/-- Settles O13: the test of the operand is the range 1 to 6, and a value in it fits the register. -/
theorem cfgNchWritesLegalCounts : Obligations.CfgNchWritesLegalCounts := by
  refine ⟨fun n hn => decode_opcode_add_operandField (.cfgNch n) (opcode := 1) rfl rfl (decide_eq_true hn), fun n s =>
    ⟨fun hidle hlow hhigh => ⟨{ s with nch := BitVec.ofNat 4 n }, ?legal, ?value, rfl⟩, fun hidle hout => ?illegal,
      exec_refused_of_idle_only fun _ => rfl⟩⟩
  case legal => exact (exec_idle hidle rfl).trans (if_pos ((legalNch_iff n).mpr ⟨hlow, hhigh⟩))
  case value => exact Nat.mod_eq_of_lt (by omega)
  case illegal =>
    have hillegal : ¬legalNch n = true := by rw [legalNch_iff]; omega
    exact (exec_idle hidle rfl).trans (if_neg hillegal)

/-- `DEPTH` is the width in whole bytes (10_state.md R21). -/
theorem depthOf_eq (s : State) : depthOf s = (s.bps.toNat + 7) / 8 := rfl

/-- `SHIFT` at the legal widths (10_state.md R21). -/
theorem shiftOf_of_legalBps {s : State} (h : legalBps s.bps.toNat = true) :
    shiftOf s = if depthOf s = 2 then 9 else 10 := by
  obtain ⟨hlow, hhigh⟩ := (legalBps_iff _).mp h
  have hdepth : depthOf s = 2 ∨ depthOf s = 3 := by rw [depthOf_eq]; omega
  rw [shiftOf, config_shiftTab]
  rcases hdepth with h2 | h3
  · rw [h2]; rfl
  · rw [h3]; rfl

/-- Settles O14: the test of the operand is the range 16 to 24, a value in it fits the register, and `DEPTH` and `SHIFT` are
functions of the register. -/
theorem cfgBpsWritesLegalWidths : Obligations.CfgBpsWritesLegalWidths := by
  refine ⟨fun b hb => decode_opcode_add_operandField (.cfgBps b) (opcode := 2) rfl rfl (decide_eq_true hb), fun b s =>
    ⟨fun hidle hlow hhigh => ?legal, fun hidle hout => ?illegal, exec_refused_of_idle_only fun _ => rfl⟩⟩
  case legal =>
    have hlegal := (legalBps_iff b).mpr ⟨hlow, hhigh⟩
    have hvalue : (BitVec.ofNat 6 b).toNat = b := Nat.mod_eq_of_lt (by omega)
    refine ⟨{ s with bps := BitVec.ofNat 6 b }, (exec_idle hidle rfl).trans (if_pos hlegal), hvalue, rfl, ?_,
      shiftOf_of_legalBps (hvalue.symm ▸ hlegal)⟩
    rw [depthOf_eq, hvalue]
  case illegal =>
    have hillegal : ¬legalBps b = true := by rw [legalBps_iff]; omega
    exact (exec_idle hidle rfl).trans (if_neg hillegal)

/-- Settles O15, by the three cases of the operand. -/
theorem cfgFmtSelectsTheFormat : Obligations.CfgFmtSelectsTheFormat := by
  refine ⟨fun f hf => decode_opcode_add_operandField (.cfgFmt f) (opcode := 3) rfl rfl (decide_eq_true hf), fun s =>
    ⟨fun hidle => ⟨setPlain s, exec_idle hidle rfl, fun i => ?cleared, rfl⟩, fun hidle => exec_idle hidle rfl,
      fun hidle f hplain hencrypted => ?illegal, fun hphase f => exec_refused_of_idle_only (fun _ => rfl) hphase⟩⟩
  case cleared => simp
  case illegal => rw [exec_idle hidle rfl, ownRule, if_neg hplain, if_neg hencrypted]; rfl

/-- CFG_KEY writes byte `k` of the key alone (46_config_control.md R184). -/
theorem setKey_key_getElem (k i : Fin 8) (d : Nat) (s : State) :
    (setKey k.val d s).key[i] = if i = k then BitVec.ofNat 8 d else s.key[i] := by
  simp [Vector.getElem_setIfInBounds, Fin.ext_iff, eq_comm]

/-- CFG_KEY sets bit `k` of `KEYMASK` alone (46_config_control.md R184). -/
theorem setKey_keymask_getLsbD (k i : Fin 8) (d : Nat) (s : State) :
    (setKey k.val d s).keymask.getLsbD i.val = (s.keymask.getLsbD i.val || decide (i = k)) := by
  rw [setKey_keymask, BitVec.getLsbD_or, BitVec.getLsbD_ofNat, Nat.testBit_two_pow]
  simp [Fin.ext_iff, eq_comm]

/-- Settles O16, by what `setKey` writes. -/
theorem cfgKeyWritesOneByte : Obligations.CfgKeyWritesOneByte := by
  refine ⟨fun k hk d hd => ?word, fun k d s _ =>
    ⟨fun hidle => ⟨setKey k.val d s, exec_idle hidle rfl, fun i => setKey_key_getElem k i d s,
      fun i => setKey_keymask_getLsbD k i d s, rfl⟩, exec_refused_of_idle_only fun _ => rfl⟩⟩
  case word =>
    rw [Nat.add_assoc]
    exact decode_opcode_add_operandField (.cfgKey k d) (opcode := 4) rfl rfl (by simpa [Instr.wellFormed] using ⟨hk, hd⟩)

/-- Settles O17: the test of the operand leaves out 0, and an operand of 28 bits fits the register. -/
theorem cfgFlenWritesPositiveLengths : Obligations.CfgFlenWritesPositiveLengths := by
  refine ⟨fun n hn => decode_opcode_add_operandField (.cfgFlen n) (opcode := 5) rfl rfl (decide_eq_true hn), fun n s hn =>
    ⟨fun hidle hpos => ⟨{ s with flen := BitVec.ofNat Config.flenBits n }, ?legal, Nat.mod_eq_of_lt hn, rfl⟩,
      fun hidle hzero => ?illegal, exec_refused_of_idle_only fun _ => rfl⟩⟩
  case legal => exact (exec_idle hidle rfl).trans (if_pos (decide_eq_true hpos))
  case illegal =>
    subst hzero
    exact exec_idle hidle rfl

/-! ## Opening a frame, and the resets -/

/-- A channel as FRAME_INIT leaves it (46_config_control.md R186, 40_entropy_decoder.md R112, 42_hybrid_filter.md R141,
43_fixed_predictor.md R150). -/
theorem initChannel_eq (s : State) (ch : Channel) :
    initChannel s ch =
      { k0 := 10, k1 := 10, sum0 := 16384, sum1 := 16384, prev := 0
        coef := if s.fmt = 2 then signedKeyBytes s.key else Vector.replicate 8 0
        hist := Vector.replicate 8 0, extra := Vector.replicate 0 0 } := by
  have hsum : powerWatermark 10 = 16384 := by decide
  rw [initChannel, filterInit_eq, entropyInit_eq, predInit, hsum]
  simp only [beq_iff_eq]

/-- A key byte seeds its coefficient with its signed reading (42_hybrid_filter.md R141). -/
theorem signedKeyBytes_getElem (key : Vector Byte 8) (i : Fin 8) :
    (signedKeyBytes key)[i] = BitVec.ofInt 32 key[i].toInt := by
  simp only [signedKeyBytes, Fin.getElem_fin, Vector.getElem_ofFn]
  rfl

theorem exec_frameInit_incomplete {s : State} (hrunning : s.phase ≠ .halt) (h : ¬completeConfiguration s) :
    exec .frameInit s = .next { s with errCfg := true } := by
  rw [exec_accepted (by simpa [accepts] using hrunning), ownRule, if_neg (mt (configComplete_iff s).mp h)]
  rfl

/-- Settles O18: FRAME_INIT tests the configuration, and what it makes of each channel is one equation. -/
theorem frameInitOpensTheFrame : Obligations.FrameInitOpensTheFrame := by
  refine ⟨decodeInvertsEncode .frameInit rfl, fun s =>
    ⟨fun hrunning hcomplete => ⟨openFrame s, exec_frameInit hrunning hcomplete, fun c => ?channel, rfl⟩,
      exec_frameInit_incomplete, fun hhalt => exec_halt hhalt nofun⟩⟩
  have hchan : (openFrame s).chan[c] = initChannel s s.chan[c] := by simp
  rw [hchan, initChannel_eq]
  refine ⟨rfl, rfl, rfl, rfl, rfl, by simp, fun i => ⟨by simp, ?coefficient⟩⟩
  dsimp only
  split
  · exact signedKeyBytes_getElem s.key i
  · simp

/-- Settles O19: RD_RESET's own rule writes exactly the listed elements. -/
theorem rdResetRestartsTheReader : Obligations.RdResetRestartsTheReader :=
  ⟨decodeInvertsEncode .rdReset rfl, fun _ => ⟨exec_rdReset, fun hhalt => exec_halt hhalt nofun⟩⟩

/-- Settles O20: every phase accepts SOFT_RESET, whose own rule is the reset of the block. -/
theorem softResetRestoresResetValues : Obligations.SoftResetRestoresResetValues :=
  ⟨decodeInvertsEncode .softReset rfl, fun s => ⟨resetBlock s, exec_accepted rfl, rfl, rfl⟩⟩

/-! ## RAW -/

/-- `s` after RAW has passed `bytes` on, with `rest` still to come and `room` left (46_config_control.md R189). -/
def passed (bytes : List Byte) (rest : List SrcItem) (room : Option Nat) (s : State) : State :=
  { consumed bytes rest s with rawOut := s.rawOut ++ bytes, rawRoom := room }

/-- Settles O23: the bytes are there and find room. -/
theorem rawPassesBytesThrough : Obligations.RawPassesBytesThrough := by
  intro s bytes rest room hidle hinp hroom
  exact exec_raw_delivered hidle hinp hroom

/-- After `n` bytes passed on, a RAW of `n + m` bytes is one of `m` (46_config_control.md R189). -/
theorem passBytes_add_of_done {n m : Nat} {s t : State} (h : passBytes n s = .done () t) :
    passBytes (n + m) s = passBytes m t := by
  induction n generalizing s with
  | zero =>
    obtain rfl : s = t := (Run.done.inj h).2
    rw [Nat.zero_add]
  | succ n ih =>
    rw [Nat.succ_add]
    cases hb : nextByte s with
    | notYet => simp [passBytes, hb] at h
    | failed u => simp [passBytes, hb] at h
    | got b u =>
      rw [passBytes_succ_got hb, rawFrom] at h ⊢
      cases he : emitRaw b u with
      | none => simp [he] at h
      | some v =>
        simp only [he] at h ⊢
        exact ih h

section
variable {s : State} {bytes : List Byte} {rest : List SrcItem} {room : Option Nat} {n : Nat}

/-- RAW of more bytes than these, once these have found room, goes on from there (46_config_control.md R189). -/
theorem exec_raw_after (hidle : s.phase = .idle) (hinp : s.inp = delivered bytes ++ rest)
    (hroom : roomFor s.rawRoom bytes.length room) (hmore : bytes.length ≤ n) :
    exec (.raw n) s = settle (passBytes (n - bytes.length) (passed bytes rest room s)) := by
  have hown : exec (.raw n) s = settle (passBytes n s) := exec_idle hidle rfl
  rw [hown, ← Nat.add_sub_cancel' hmore, passBytes_add_of_done (passBytes_delivered hinp hroom), Nat.add_sub_cancel_left]
  rfl

theorem passBytes_failed {t : State} (hn : 0 < n) (h : nextByte s = .failed t) : passBytes n s = .failed t := by
  obtain ⟨n, rfl⟩ := Nat.exists_eq_add_of_lt hn
  simp [passBytes, h]

theorem passBytes_notYet (hn : 0 < n) (h : nextByte s = .notYet) : passBytes n s = .wait (.raw n none) s := by
  obtain ⟨n, rfl⟩ := Nat.exists_eq_add_of_lt hn
  simp [passBytes, h]

/-- A byte read that finds no room is kept (20_memory.md R66). -/
theorem passBytes_held {b : Byte} {t : State} (hn : 0 < n) (hb : nextByte s = .got b t) (hfull : t.rawRoom = some 0) :
    passBytes n s = .wait (.raw (n - 1) (some b)) t := by
  have hemit : emitRaw b t = none := by rw [emitRaw, hfull]; rfl
  obtain ⟨n, rfl⟩ := Nat.exists_eq_add_of_lt hn
  simp [passBytes, hb, hemit]

end

/-- One more byte read after these have been passed on (20_memory.md R61(a)). -/
theorem consumed_passed (bytes : List Byte) (b : Byte) (more rest : List SrcItem) (room : Option Nat) (s : State) :
    consumed [b] rest (passed bytes more room s) = { s with
      inp := rest, crc := crcAfter s.crc (bytes ++ [b]), count := s.count + BitVec.ofNat 32 (bytes.length + 1),
      rawOut := s.rawOut ++ bytes, rawRoom := room } := by
  simp [consumed, passed, crcAfter, List.foldl_append, BitVec.ofNat_add, BitVec.add_assoc]

/-- Settles O24: the bytes there are have been passed on, or the last of them is kept, when the source fails, has no more, or
`RAWOUT` is full. -/
theorem rawWithTooFewBytes : Obligations.RawWithTooFewBytes := by
  intro s n bytes rest hidle hfew
  have hleft : 0 < n - bytes.length := Nat.sub_pos_of_lt hfew
  refine ⟨fun room hroom => ⟨fun hinp => ?fails, fun hinp => ?waits⟩, fun b hroom hinp => ?full⟩
  case fails =>
    rw [exec_raw_after hidle hinp hroom hfew.le, passBytes_failed hleft (nextByte_failure rfl), settle_failed]
    rfl
  case waits =>
    rw [← List.append_nil (delivered bytes)] at hinp
    rw [exec_raw_after hidle hinp hroom hfew.le, passBytes_notYet hleft (nextByte_nil rfl), settle_wait]
    rfl
  case full =>
    have hinp' : s.inp = delivered bytes ++ (delivered [b] ++ rest) := by
      rw [hinp, delivered, List.map_append, List.append_assoc]
      rfl
    have hroom' : roomFor s.rawRoom bytes.length (some 0) := .inr ⟨0, by rw [hroom, Nat.zero_add], rfl⟩
    rw [exec_raw_after hidle hinp' hroom' hfew.le, passBytes_held hleft (nextByte_delivered rfl) rfl, settle_wait,
      consumed_passed]
    rfl

/-! ## HALT -/

theorem immediate_halt {s t : State} (h : Immediate s t) (hhalt : s.phase = .halt) : t.phase = .halt := by
  cases h with
  | opened hrunning hcomplete => exact absurd hhalt hrunning
  | restarted hrunning => exact absurd hhalt hrunning
  | _ => exact hhalt

/-- No command can be in flight in HALT (46_config_control.md R190). -/
theorem not_jobFits_halt {j : Job} {s : State} (hhalt : s.phase = .halt) : ¬jobFits j s := by
  cases j <;> simp [jobFits, hhalt]

/-- Settles O54: of what a step can do, only the two resets and the opening of a frame or the restart of the reader, which
HALT refuses, set the phase. -/
theorem onlyResetsLeaveHalt : Obligations.OnlyResetsLeaveHalt := by
  rintro s t hhalt hnone ⟨hreset, hword⟩ h
  cases step_effect h with
  | reset hreq => simp [hreset] at hreq
  | idle ht => exact ht ▸ hhalt
  | resumed j hflight => simp [hnone] at hflight
  | changed rest hflight hchange => exact immediate_halt hchange hhalt
  | softReset rest hflight hcmd => exact absurd hcmd (hword hflight rest)
  | started rest j hflight hfits => exact absurd hfits (not_jobFits_halt hhalt)

/-! ## The configuration of an open frame -/

/-- The six configuration registers together (46_config_control.md R190). -/
def configOf (s : State) :
    BitVec 4 × BitVec 6 × BitVec 2 × BitVec Config.flenBits × Vector Byte Config.keyLen × BitVec Config.keyLen :=
  (s.nch, s.bps, s.fmt, s.flen, s.key, s.keymask)

theorem sameConfig_iff {s t : State} : sameConfig s t ↔ configOf s = configOf t := by
  simp only [sameConfig, configOf, Prod.mk.injEq]

theorem configOf_of_bitsRead {s t : State} (h : BitsRead s t) : configOf t = configOf s := by
  obtain ⟨⟨_, _, _, _, _, rfl⟩, -⟩ := h
  rfl

theorem configOf_of_bytesMoved {s t : State} (h : BytesMoved s t) : configOf t = configOf s := by
  obtain ⟨_, _, _, _, _, rfl⟩ := h
  rfl

theorem configOf_of_failedAfter {R : State → Prop} {s t : State} (h : FailedAfter R t)
    (hR : ∀ m, R m → configOf m = configOf s) : configOf t = configOf s := by
  obtain ⟨m, rest, hm, rfl⟩ := h
  exact hR m hm

theorem configOf_of_stepReady {p : Point} {s t : State} (h : StepReady p s t) : configOf t = configOf s := by
  cases h with
  | decoded v hplace hread hlast => exact (configOf_of_bitsRead hread :)
  | waiting rest => rfl

theorem configOf_of_bodyDone {p : Point} {s t : State} (h : BodyDone p s t) : configOf t = configOf s := by
  cases h with
  | nextChannel v hplace hread hmore => exact (configOf_of_bitsRead hread :)
  | timeStep bytes room hready => exact (configOf_of_stepReady hready :)

theorem configOf_of_bodyWaits {p q : Point} {s t : State} (h : BodyWaits p s q t) : configOf t = configOf s := by
  cases h with
  | reading hplace hthere hread => exact (configOf_of_bitsRead hread :)
  | emitting bytes rest room hready => exact (configOf_of_stepReady hready :)

theorem verifyFrom_configOf (sum : Word) (got : List Byte) (s : State) :
    Ensures (verifyFrom sum got s) (fun _ t => configOf t = configOf s) (fun _ t => configOf t = configOf s)
      (fun t => configOf t = configOf s) := by
  refine (verifyFrom_runs sum got s).mono ?_ (fun _ _ h => configOf_of_bytesMoved h.2) fun _ h =>
    configOf_of_failedAfter h fun _ => configOf_of_bytesMoved
  rintro _ _ ⟨m, stored, hmoved, rfl⟩
  exact (configOf_of_bytesMoved hmoved :)

theorem rawFrom_configOf (left : Nat) (held : Option Byte) (s : State) :
    Ensures (rawFrom left held s) (fun _ t => configOf t = configOf s) (fun _ t => configOf t = configOf s)
      (fun t => configOf t = configOf s) :=
  (rawFrom_runs left held s).mono (fun _ _ => configOf_of_bytesMoved) (fun _ _ h => configOf_of_bytesMoved h.2) fun _ h =>
    configOf_of_failedAfter h fun _ => configOf_of_bytesMoved

theorem configOf_decodeInvariant (s : State) :
    DecodeInvariant (fun t => configOf t = configOf s) (fun t => configOf t = configOf s)
      fun _ t => configOf t = configOf s where
  body p m hm := (decBody_runs p m).mono (fun _ _ h => (configOf_of_bodyDone h).trans hm)
    (fun _ _ h => (configOf_of_bodyWaits h).trans hm)
    fun _ h => (configOf_of_failedAfter h fun _ => configOf_of_bitsRead).trans hm
  start _ h _ := h
  done _ h := h
  wait _ _ _ _ h := h
  verify sum m hm _ := (verifyFrom_configOf sum [] m).mono (fun _ _ h => h.trans hm) (fun _ _ h => h.trans hm)
    fun _ h => h.trans hm

/-- A command taken up again changes no configuration register. -/
theorem resume_configOf {j : Job} {s t : State} (h : resume j s = .next t) : configOf t = configOf s := by
  cases j with
  | verify sum got => exact Ensures.next (Q := fun t => configOf t = configOf s) (verifyFrom_configOf sum got s) h
  | raw left held => exact Ensures.next (Q := fun t => configOf t = configOf s) (rawFrom_configOf left held s) h
  | _ => exact (configOf_decodeInvariant s).resume rfl rfl h

/-- The configuration commands are for IDLE alone (46_config_control.md R190). -/
theorem immediate_configOf {s t : State} (h : Immediate s t) (hopen : s.phase ≠ .idle) : configOf t = configOf s := by
  cases h with
  | channels hidle | width hidle | plain hidle | encrypted hidle | keyByte _ _ hidle | length hidle =>
    exact absurd hidle hopen
  | _ => rfl

/-- Settles O57: of what a step can do, only the two resets and, in IDLE, the configuration commands write a configuration
register. -/
theorem configurationIsFrozenWhileAFrameIsOpen : Obligations.ConfigurationIsFrozenWhileAFrameIsOpen := by
  rintro s t hframe ⟨hreset, hword⟩ h
  have hopen : s.phase ≠ .idle := by
    intro hidle
    simp [hidle] at hframe
  refine sameConfig_iff.mpr (Eq.symm ?_)
  cases step_effect h with
  | reset hreq => simp [hreset] at hreq
  | idle ht => exact congrArg configOf ht
  | resumed j hflight hj => exact (resume_configOf hj :)
  | changed rest hflight hchange => exact (immediate_configOf hchange hopen :)
  | softReset rest hflight hcmd => exact absurd hcmd (hword hflight rest)
  | started rest j hflight hfits hj => exact (resume_configOf hj :)

end Sys2Proof.Proofs.ConfigControl

/-! Proofs of the statements about 60_exceptions.md: from a state that meets the invariant nothing stops the block (R200, R209),
and a command raises one error at most (R208). -/

namespace Sys2Proof.Proofs.Exceptions

open Sys2Proof Sys2Proof.Machine Sys2Proof.Proofs.BlockState Sys2Proof.Proofs.Memory
  Sys2Proof.Proofs.FrameSequencing

/-! ## Runs that do not stop the block -/

section
variable {π ρ α β : Type} {r : Run π α}

/-- The run completes, waits or has a failed read: it does not stop the block. -/
def Answers (r : Run π α) : Prop :=
  match r with
  | .stuck _ => False
  | _ => True

theorem Answers.bind {f : α → State → Run π β} (h : Answers r) (hf : ∀ a s, Answers (f a s)) :
    Answers (r.bind f) := by
  cases r with
  | done a s => exact hf a s
  | wait p s => trivial
  | failed s => trivial
  | stuck e => exact h

theorem Answers.mapWait (g : π → ρ) (h : Answers r) : Answers (r.mapWait g) := by
  cases r with
  | stuck e => exact h
  | _ => trivial

theorem Answers.settle {r : Run Job Unit} (h : Answers r) : ∃ t, settle r = .next t := by
  cases r with
  | done a s => exact ⟨_, rfl⟩
  | wait j s => exact ⟨_, rfl⟩
  | failed s => exact ⟨_, rfl⟩
  | stuck e => exact h.elim

end

/-! ### Reads and emissions -/

theorem readUnary_answers (n : Nat) (u : Word) (s : State) : Answers (readUnary n u s) := by
  induction n generalizing u s with
  | zero => trivial
  | succ n ih =>
    rw [readUnary]
    cases nextBit s with
    | notYet => trivial
    | failed t => trivial
    | got b t =>
      dsimp only
      split
      · exact ih (u + 1) t
      · trivial

theorem readBits_answers (level : Level) (a : Word) (left i : Nat) (acc : Word) (s : State) :
    Answers (readBits level a left i acc s) := by
  induction left generalizing i acc s with
  | zero => trivial
  | succ left ih =>
    rw [readBits]
    cases nextBit s with
    | notYet => trivial
    | failed t => trivial
    | got b t => exact ih _ _ t

theorem readSuffix_answers (level : Level) (a : Word) (left i : Nat) (acc : Word) (s : State) :
    Answers (readSuffix level a left i acc s) :=
  (readBits_answers level a left i acc s).bind fun _ _ => trivial

theorem decodeValue_answers (ch : Channel) (u : Word) (s : State) : Answers (decodeValue ch u s) := by
  refine (readUnary_answers _ u s).bind fun u' t => ?_
  rw [afterUnary_eq]
  split
  · exact readSuffix_answers ..
  · exact readSuffix_answers ..

theorem emitAndClose_answers (bytes : List Byte) (s : State) : Answers (emitAndClose bytes s) := by
  rcases emitAndClose_cases bytes s with ⟨room, h⟩ | ⟨sent, b, rest, -, h⟩
  · rw [h]; trivial
  · rw [h]; trivial

theorem afterValue_answers (v : Level × Word) (s : State) : Answers (afterValue v s) := by
  by_cases hmore : s.ch.toNat + 1 < s.nch.toNat
  · rw [afterValue_of_lt hmore]; trivial
  · rw [afterValue_of_not_lt hmore]; exact emitAndClose_answers ..

theorem readTrailer_answers (sum : Word) (left : Nat) (got : List Byte) (s : State) :
    Answers (readTrailer sum left got s) := by
  induction left generalizing got s with
  | zero => trivial
  | succ left ih =>
    rw [readTrailer]
    cases nextByte s with
    | notYet => trivial
    | failed t => trivial
    | got b t => exact ih _ _

theorem verifyFrom_answers (sum : Word) (got : List Byte) (s : State) : Answers (verifyFrom sum got s) :=
  (readTrailer_answers sum _ got s).bind fun _ _ => trivial

theorem passBytes_answers (left : Nat) (s : State) : Answers (passBytes left s) := by
  induction left generalizing s with
  | zero => trivial
  | succ left ih =>
    rw [passBytes]
    cases nextByte s with
    | notYet => trivial
    | failed t => trivial
    | got b t =>
      dsimp only
      cases emitRaw b t with
      | none => trivial
      | some u => exact ih u

theorem rawFrom_answers (left : Nat) (held : Option Byte) (s : State) : Answers (rawFrom left held s) := by
  cases held with
  | none => exact passBytes_answers left s
  | some b =>
    rw [rawFrom]
    cases emitRaw b s with
    | none => trivial
    | some u => exact passBytes_answers left u

/-! ### Bodies and the decode loop -/

/-- Only registers that name no channel or no sample width stop a body (log entry 10). -/
theorem decBody_answers (p : Point) {s : State} (hg : geometryOk s = true) : Answers (decBody p s) := by
  unfold decBody
  rw [if_pos hg]
  cases p with
  | unary u => exact (decodeValue_answers _ u s).bind fun v t => afterValue_answers v t
  | suffix level a left i acc => exact (readSuffix_answers level a left i acc s).bind fun v t => afterValue_answers v t
  | emit rest => exact emitAndClose_answers rest s

/-- The configuration of an open frame is complete, and `CH` names one of its channels (45_frame_sequencing.md R165). -/
theorem geometryOk_of_inBody {p : Point} {s : State} (h : InBody p s) : geometryOk s = true := by
  obtain ⟨hconfig, -⟩ := h.inv.open_configured (.inl h.phase)
  obtain ⟨⟨-, hnch⟩, hbps, -⟩ := (configComplete_iff s).mp hconfig
  exact geometryOk_of_insideFrame ⟨(h.inv.decoding_inside h.phase).1, hnch, hbps⟩

/-- One body of the loop, when the loop after it answers: the body leaves the frame as the next one needs it
(45_frame_sequencing.md R167, R168). -/
theorem decResume_answers_of_decRun {bound : Option Nat} {p : Point} {s : State} (hs : InBody p s)
    (hloop : ∀ t, decBody p s = .done () t → InFrame t → Answers (decRun (countStep bound t) t)) :
    Answers (decResume bound p s) := by
  have hanswers := decBody_answers p (geometryOk_of_inBody hs)
  have hbody := inv_decodeInvariant.body p s hs
  unfold decResume
  cases hb : decBody p s with
  | stuck e => rw [hb] at hanswers; exact hanswers
  | wait q t => trivial
  | failed t => trivial
  | done a t => rw [hb] at hbody; exact hloop t hb hbody

theorem decRun_answers (bound : Option Nat) {s : State} (hs : InFrame s) : Answers (decRun bound s) := by
  induction hn : bitsAvail s using Nat.strong_induction_on generalizing bound s with
  | _ n ih =>
    rw [decRun_unroll]
    split
    · trivial
    · next hgo =>
      have hphase : s.phase = .decoding := by simpa using fun h => hgo (.inr h)
      exact decResume_answers_of_decRun (inv_decodeInvariant.start s hs hphase) fun t hb ht =>
        ih _ (hn ▸ decBody_done_bitsAvail hb) _ ht rfl

theorem decResume_answers (bound : Option Nat) {p : Point} {s : State} (hs : InBody p s) :
    Answers (decResume bound p s) :=
  decResume_answers_of_decRun hs fun t _ ht => decRun_answers (countStep bound t) ht

theorem thenVerify_answers {r : Run (Option Nat × Point) Unit} (h : Answers r) : Answers (thenVerify r) :=
  (h.mapWait loopJob).bind fun _ _ => verifyFrom_answers ..

/-! ### Commands and steps -/

/-- A command taken up where it can be waiting answers. -/
theorem resume_answers {j : Job} {s : State} (hs : Inv s) (hnone : s.inFlight = none) (hfits : jobFits j s) :
    ∃ t, resume j s = .next t := by
  cases j with
  | sample p =>
    have hbody : InBody p s := ⟨hs, hnone, hfits.1, hfits.2⟩
    exact ((decBody_answers p (geometryOk_of_inBody hbody)).mapWait _).settle
  | steps left p => exact ((decResume_answers (some left) ⟨hs, hnone, hfits.1, hfits.2⟩).mapWait _).settle
  | frame p => exact (thenVerify_answers (decResume_answers none ⟨hs, hnone, hfits.1, hfits.2⟩)).settle
  | verify sum got => exact (verifyFrom_answers sum got s).settle
  | raw left held => exact (rawFrom_answers left held s).settle

/-- A configuration command with its operand's test answers (46_config_control.md R181 to R185). -/
theorem configure_answers (c : Prop) [Decidable c] (s u : State) :
    ∃ t, (if c then .next u else .next (raise .errCfg s) : Result) = .next t := by
  split
  · exact ⟨_, rfl⟩
  · exact ⟨_, rfl⟩

theorem ownRule_answers {i : Instr} {s : State} (hs : Inv s) (hnone : s.inFlight = none)
    (hphase : accepts i s.phase = true) : ∃ t, ownRule i s = .next t := by
  cases i <;> simp only [accepts, Bool.or_eq_true, bne_iff_ne, beq_iff_eq] at hphase
  case nop | cfgKey | rdReset | softReset => exact ⟨_, rfl⟩
  case cfgNch | cfgBps | cfgFlen | frameInit => exact configure_answers ..
  case cfgFmt f =>
    rw [ownRule]
    split
    · exact ⟨_, rfl⟩
    · exact configure_answers ..
  case decSample => exact resume_answers (j := .sample (.unary 0)) hs hnone ⟨hphase, trivial⟩
  case decStep n => exact ((decRun_answers (some n) ⟨hs, hnone, .inl hphase⟩).mapWait _).settle
  case decFrame => exact (thenVerify_answers (decRun_answers none ⟨hs, hnone, hphase⟩)).settle
  case verify => exact (verifyFrom_answers ..).settle
  case raw n => exact (rawFrom_answers n none s).settle

theorem exec_answers (i : Instr) {s : State} (hs : Inv s) (hnone : s.inFlight = none) : ∃ t, exec i s = .next t := by
  rw [exec_eq_prologue]
  rcases prologue_cases i s (ownRule i s) with ⟨hphase, h⟩ | ⟨-, h⟩
  · rw [h]
    exact ownRule_answers hs hnone hphase
  · exact ⟨_, h⟩

/-- Settles O52: a step is a reset, the rest of a command in flight at a place the invariant allows, idle, a command on a
state that meets the invariant, or an illegal word. -/
theorem invariantStatesNeverStop : Obligations.InvariantStatesNeverStop := by
  intro s hs
  cases hreset : s.resetReq with
  | true => exact ⟨hardwareReset s, if_pos hreset⟩
  | false =>
    cases hflight : s.inFlight with
    | some j =>
      rw [step_inFlight hreset hflight]
      exact resume_answers (inv_inFlight_none hs) rfl (hs.flight_fits j hflight)
    | none =>
      cases hcmd : s.cmd with
      | nil => exact ⟨s, step_idle hreset hflight hcmd⟩
      | cons w rest =>
        cases hdecode : decode w with
        | illegal why => exact ⟨_, step_illegal hreset hflight hcmd hdecode⟩
        | command i =>
          rw [step_command hreset hflight hcmd hdecode]
          exact exec_answers i (inv_cmd hs rest) hflight

/-! ## One error for each command -/

/-- `s` with the elements that the streaming commands (DEC_SAMPLE, DEC_STEP, DEC_FRAME, VERIFY, RAW) write as `d` has them. -/
def withStreamed (d s : State) : State :=
  { s with
    phase := d.phase, ch := d.ch, pos := d.pos, bcache := d.bcache, bcount := d.bcount, crc := d.crc
    crcCalc := d.crcCalc, crcStored := d.crcStored, count := d.count, crcOk := d.crcOk, crcErr := d.crcErr
    errIo := d.errIo, chan := d.chan, cache := d.cache, inp := d.inp, pcm := d.pcm, rawOut := d.rawOut
    pcmRoom := d.pcmRoom, rawRoom := d.rawRoom, inFlight := d.inFlight }

/-- `t` differs from `s` in elements that the streaming commands write alone. -/
def Streamed (s t : State) : Prop := t = withStreamed t s

theorem Streamed.refl (s : State) : Streamed s s := rfl

theorem Streamed.trans {s t u : State} (h1 : Streamed s t) (h2 : Streamed t u) : Streamed s u :=
  calc
    u = withStreamed u t := h2
    _ = withStreamed u (withStreamed t s) := congrArg (withStreamed u) h1
    _ = withStreamed u s := rfl

theorem streamed_of_bitsRead {s t : State} (h : BitsRead s t) : Streamed s t := by
  obtain ⟨⟨_, _, _, _, _, rfl⟩, -⟩ := h
  rfl

theorem streamed_of_bytesMoved {s t : State} (h : BytesMoved s t) : Streamed s t := by
  obtain ⟨_, _, _, _, _, rfl⟩ := h
  rfl

theorem streamed_of_failedAfter {R : State → Prop} {s t : State} (h : FailedAfter R t) (hR : ∀ m, R m → Streamed s m) :
    Streamed s t := by
  obtain ⟨m, rest, hm, rfl⟩ := h
  exact (hR m hm).trans rfl

theorem streamed_of_stepReady {p : Point} {s t : State} (h : StepReady p s t) : Streamed s t := by
  cases h with
  | decoded v hplace hread hlast => exact (streamed_of_bitsRead hread).trans rfl
  | waiting rest => rfl

theorem streamed_of_bodyDone {p : Point} {s t : State} (h : BodyDone p s t) : Streamed s t := by
  cases h with
  | nextChannel v hplace hread hmore => exact (streamed_of_bitsRead hread).trans rfl
  | timeStep bytes room hready => exact (streamed_of_stepReady hready).trans rfl

theorem streamed_of_bodyWaits {p q : Point} {s t : State} (h : BodyWaits p s q t) : Streamed s t := by
  cases h with
  | reading hplace hthere hread => exact streamed_of_bitsRead hread
  | emitting bytes rest room hready => exact (streamed_of_stepReady hready).trans rfl

theorem verifyFrom_streamed {s m : State} (hm : Streamed s m) (sum : Word) (got : List Byte) :
    Ensures (verifyFrom sum got m) (fun _ => Streamed s) (fun j t => Streamed s { t with inFlight := some j })
      (Streamed s) := by
  refine (verifyFrom_runs sum got m).mono ?_ (fun _ _ h => (hm.trans (streamed_of_bytesMoved h.2)).trans rfl) fun _ h =>
    streamed_of_failedAfter h fun _ hmoved => hm.trans (streamed_of_bytesMoved hmoved)
  rintro _ _ ⟨u, stored, hmoved, rfl⟩
  exact (hm.trans (streamed_of_bytesMoved hmoved)).trans rfl

theorem rawFrom_streamed (left : Nat) (held : Option Byte) (s : State) :
    Ensures (rawFrom left held s) (fun _ => Streamed s) (fun j t => Streamed s { t with inFlight := some j })
      (Streamed s) :=
  (rawFrom_runs left held s).mono (fun _ _ => streamed_of_bytesMoved)
    (fun _ _ h => (streamed_of_bytesMoved h.2).trans rfl) fun _ h => streamed_of_failedAfter h fun _ => streamed_of_bytesMoved

theorem streamed_decodeInvariant (s : State) : DecodeInvariant (Streamed s) (Streamed s) fun _ => Streamed s where
  body p m hm := (decBody_runs p m).mono (fun _ _ h => hm.trans (streamed_of_bodyDone h))
    (fun _ _ h => hm.trans (streamed_of_bodyWaits h)) fun _ h =>
    streamed_of_failedAfter h fun _ hread => hm.trans (streamed_of_bitsRead hread)
  start _ h _ := h
  done _ h := h
  wait _ _ _ _ h := h.trans rfl
  verify sum _ hm _ := verifyFrom_streamed hm sum []

/-- What the streaming commands leave alone: the configuration, `ERR_CMD`, `ERR_CFG`, the command words and the reset input. -/
theorem resume_streamed {j : Job} {s t : State} (h : resume j s = .next t) : Streamed s t := by
  cases j with
  | verify sum got => exact Ensures.next (verifyFrom_streamed (.refl s) sum got) h
  | raw left held => exact Ensures.next (rawFrom_streamed left held s) h
  | _ => exact (streamed_decodeInvariant s).resume rfl (.refl s) h

/-- Settles O56: a streaming command raises `ERR_IO` alone, and every other command but the reset is one change of state. -/
theorem oneCommandRaisesAtMostOneError : Obligations.OneCommandRaisesAtMostOneError := by
  intro i s t h hcmd hcfg hio
  rcases exec_cases h with ⟨-, rfl⟩ | hchange | ⟨j, -, hj⟩
  · simp
  · cases hchange with
    | refused => simp [hcfg, hio]
    | misconfigured => simp [hcmd, hio]
    | _ => simp [hcmd, hcfg]
  · have hkept : Streamed s t := resume_streamed hj
    have hcmd' : t.errCmd = false := (congrArg State.errCmd hkept).trans hcmd
    have hcfg' : t.errCfg = false := (congrArg State.errCfg hkept).trans hcfg
    simp [hcmd', hcfg']

end Sys2Proof.Proofs.Exceptions

/-! Proofs of the statements about 70_reset_and_hazards.md: the hardware reset (R230) and the reset values (R231), and that
what the filter, the predictor, the key and the cache hold does not reach the stream (R243). -/

namespace Sys2Proof.Proofs.ResetAndHazards

open Sys2Proof Sys2Proof.Machine Sys2Proof.Proofs.BlockState Sys2Proof.Proofs.Memory Sys2Proof.Proofs.Checksum
  Sys2Proof.Proofs.FrameSequencing

/-! ## Reset -/

/-- An asserted hardware reset goes before everything else (70_reset_and_hazards.md R230). -/
theorem step_hardwareReset {s : State} (hreset : s.resetReq = true) : step s = .next (hardwareReset s) := if_pos hreset

/-- Settles O9: both resets are the reset of the block, whatever is in flight. -/
theorem hardwareResetIsSoftReset : Obligations.HardwareResetIsSoftReset := fun s hreset =>
  ⟨resetBlock s, step_hardwareReset hreset, exec_accepted rfl, rfl, rfl, rfl, rfl⟩

/-- Settles O21: each register by its definition, and STATUS from the flags and the phase. -/
theorem resetStateHoldsTheResetValues : Obligations.ResetStateHoldsTheResetValues := by
  have hkey : ∀ i : Fin 8, State.reset.key[i] = 0 := by decide
  exact ⟨rfl, rfl, rfl, rfl, hkey, rfl, rfl, rfl, rfl, rfl, rfl, rfl, rfl, rfl, rfl, rfl, rfl, rfl, rfl, rfl, rfl⟩

/-! ## Two runs in step -/

section
variable {π ρ α β : Type} {R : State → State → Prop}

/-- Two runs that end in the same way, in states that `R` relates; where they wait, the places may differ. -/
inductive RunsInStep (R : State → State → Prop) : Run π α → Run π α → Prop
  | done (a : α) {s t : State} (h : R s t) : RunsInStep R (.done a s) (.done a t)
  | wait (p q : π) {s t : State} (h : R s t) : RunsInStep R (.wait p s) (.wait q t)
  | failed {s t : State} (h : R s t) : RunsInStep R (.failed s) (.failed t)
  | stuck (e : Fault) : RunsInStep R (.stuck e) (.stuck e)

theorem inStep_of_alike {r r' : Run π α} (h : RunsAlike R r r') : RunsInStep R r r' := by
  cases h with
  | done a h => exact .done a h
  | wait p h => exact .wait p p h
  | failed h => exact .failed h
  | stuck e => exact .stuck e

theorem RunsInStep.bind {r r' : Run π α} {f : α → State → Run π β} (h : RunsInStep R r r')
    (hf : ∀ a s t, R s t → RunsInStep R (f a s) (f a t)) : RunsInStep R (r.bind f) (r'.bind f) := by
  cases h with
  | done a h => exact hf a _ _ h
  | wait p q h => exact .wait p q h
  | failed h => exact .failed h
  | stuck e => exact .stuck e

theorem RunsInStep.mapWait {r r' : Run π α} (g : π → ρ) (h : RunsInStep R r r') :
    RunsInStep R (r.mapWait g) (r'.mapWait g) := by
  cases h with
  | done a h => exact .done a h
  | wait p q h => exact .wait (g p) (g q) h
  | failed h => exact .failed h
  | stuck e => exact .stuck e

/-- Two commands that run in step both answer, when `R` does not see the command in flight. -/
theorem RunsInStep.settle {r r' : Run Job Unit} {s : State} (h : RunsInStep R r r')
    (hflight : ∀ j k s t, R s t → R { s with inFlight := some j } { t with inFlight := some k })
    (hs : settle r = .next s) : ∃ t, Machine.settle r' = .next t ∧ R s t := by
  cases h with
  | done a h => cases hs; exact ⟨_, rfl, h⟩
  | wait p q h => cases hs; exact ⟨_, rfl, hflight p q _ _ h⟩
  | failed h => cases hs; exact ⟨_, rfl, h⟩
  | stuck e => cases hs

end

/-! ## What does not reach the stream -/

/-- `s` with the key, the format, the channels, the cache, `PCM` and the command in flight as `d` has them. -/
def withSound (d s : State) : State :=
  { s with
    key := d.key, keymask := d.keymask, fmt := d.fmt, chan := d.chan, cache := d.cache, pcm := d.pcm
    inFlight := d.inFlight }

/-- `s` and `t` agree on the stream, its checksum, the sequencing and the entropy coder's part of every channel
(70_reset_and_hazards.md R243). -/
def SameStream (s t : State) : Prop :=
  (∃ d, t = withSound d s) ∧ ∀ c : Fin 6, t.chan[c].entropy = s.chan[c].entropy

section
variable {s t : State}

/-- What `withSound` leaves alone is the same in both. -/
theorem SameStream.congr {α : Type} (h : SameStream s t) (f : State → α) (hf : ∀ d u, f (withSound d u) = f u) :
    f t = f s := by
  obtain ⟨⟨d, rfl⟩, -⟩ := h
  exact hf d s

/-! ### The reader -/

theorem SameStream.nextByte (h : SameStream s t) : GotAlike SameStream (nextByte s) (nextByte t) := by
  obtain ⟨⟨d, rfl⟩, hentropy⟩ := h
  cases hinp : s.inp with
  | nil =>
    rw [nextByte_nil hinp, nextByte_nil (s := withSound d s) hinp]
    exact .notYet
  | cons item rest =>
    cases item with
    | byte b =>
      rw [nextByte_byte hinp, nextByte_byte (s := withSound d s) hinp]
      exact .got b ⟨⟨d, rfl⟩, hentropy⟩
    | failure =>
      rw [nextByte_failure hinp, nextByte_failure (s := withSound d s) hinp]
      exact .failed ⟨⟨d, rfl⟩, hentropy⟩

theorem SameStream.nextBit (h : SameStream s t) : GotAlike SameStream (nextBit s) (nextBit t) := by
  have hcount : t.bcount = s.bcount := h.congr State.bcount fun _ _ => rfl
  by_cases h0 : s.bcount = 0
  · have hbyte := h.nextByte
    rw [Machine.nextBit, Machine.nextBit, if_pos h0, if_pos (hcount.trans h0)]
    generalize Machine.nextByte s = x at hbyte ⊢
    generalize Machine.nextByte t = y at hbyte ⊢
    cases hbyte with
    | notYet => exact .notYet
    | failed hbyte => exact .failed hbyte
    | got b hbyte =>
      obtain ⟨⟨d, rfl⟩, hentropy⟩ := hbyte
      exact .got _ ⟨⟨d, rfl⟩, hentropy⟩
  · rw [nextBit_cached h0, nextBit_cached (hcount ▸ h0)]
    obtain ⟨⟨d, rfl⟩, hentropy⟩ := h
    exact .got _ ⟨⟨d, rfl⟩, hentropy⟩

theorem sameReader_sameStream : SameReader SameStream where
  bit := SameStream.nextBit
  avail h := (h.congr bitsAvail fun _ _ => rfl).symm

/-! ### A body -/

/-- The cut of a codeword depends on the entropy coder's part of the channel alone (40_entropy_decoder.md R114). -/
theorem decodeValue_eq_of_entropy {ch ch' : Channel} (h : ch.entropy = ch'.entropy) (u : Word) (s : State) :
    decodeValue ch u s = decodeValue ch' u s := by
  have hk0 : ch.k0 = ch'.k0 := congrArg EntropyState.k0 h
  have hk1 : ch.k1 = ch'.k1 := congrArg EntropyState.k1 h
  simp only [decodeValue, afterUnary_eq, hk0, hk1]

/-- Filter and predictor leave the entropy coder's part of a channel alone (42_hybrid_filter.md R142, 43_fixed_predictor.md
R151), whose update reads nothing else (40_entropy_decoder.md R115, R116). -/
theorem sampleStages_entropy (shift : Nat) (v : Level × Word) (ch : Channel) :
    (sampleStages shift v ch).2.entropy = (config.updateOrder adapt config.code.offset v ch.entropy).2 := rfl

theorem SameStream.channelAt (h : SameStream s t) (c : Nat) : (channelAt t c).entropy = (channelAt s c).entropy := by
  by_cases hc : c < 6
  · rw [channelAt_eq t ⟨c, hc⟩, channelAt_eq s ⟨c, hc⟩]
    exact h.2 ⟨c, hc⟩
  · simp [Machine.channelAt, hc]

theorem SameStream.storeSample (h : SameStream s t) (v : Level × Word) :
    SameStream (storeSample v s) (storeSample v t) := by
  obtain ⟨⟨d, rfl⟩, hentropy⟩ := h
  refine ⟨⟨Machine.storeSample v (withSound d s), rfl⟩, fun c => ?_⟩
  by_cases hc : c.val = s.ch.toNat
  · rw [storeSample_chan_self v hc, storeSample_chan_self (s := withSound d s) v hc, sampleStages_entropy,
      sampleStages_entropy, hentropy c]
  · rw [storeSample_othersKept v s c hc, storeSample_othersKept v (withSound d s) c hc]
    exact hentropy c

/-- How many bytes go out decides how an emission ends, not which (20_memory.md R66). -/
theorem SameStream.emitAndClose (h : SameStream s t) {bytes bytes' : List Byte} (hlength : bytes.length = bytes'.length) :
    RunsInStep SameStream (emitAndClose bytes s) (emitAndClose bytes' t) := by
  obtain ⟨⟨d, rfl⟩, hentropy⟩ := h
  have hcloses {room : Option Nat} (hroom : roomFor s.pcmRoom bytes.length room) :
      RunsInStep SameStream (Machine.emitAndClose bytes s) (Machine.emitAndClose bytes' (withSound d s)) := by
    rw [emitAndClose_room hroom, emitAndClose_room (s := withSound d s) (hlength ▸ hroom)]
    exact .done () ⟨⟨{ d with pcm := _ }, rfl⟩, hentropy⟩
  cases hroom : s.pcmRoom with
  | none => exact hcloses (.inl ⟨hroom, rfl⟩)
  | some k =>
    by_cases hshort : k < bytes.length
    · rw [emitAndClose_short hroom hshort, emitAndClose_short (s := withSound d s) hroom (hlength ▸ hshort)]
      exact .wait _ _ ⟨⟨{ d with pcm := _ }, rfl⟩, hentropy⟩
    · exact hcloses (room := some (k - bytes.length)) (.inr ⟨_, by rw [hroom, Nat.sub_add_cancel (by omega)], rfl⟩)

theorem SameStream.afterValue (h : SameStream s t) (v : Level × Word) :
    RunsInStep SameStream (afterValue v s) (afterValue v t) := by
  have hstored := h.storeSample v
  obtain ⟨⟨d, rfl⟩, -⟩ := h
  obtain ⟨-, hentropy⟩ := hstored
  by_cases hmore : s.ch.toNat + 1 < s.nch.toNat
  · rw [afterValue_of_lt hmore, afterValue_of_lt (s := withSound d s) hmore]
    exact .done () ⟨⟨Machine.storeSample v (withSound d s), rfl⟩, hentropy⟩
  · rw [afterValue_of_not_lt hmore, afterValue_of_not_lt (s := withSound d s) hmore]
    refine SameStream.emitAndClose (s := decorrelateCache (Machine.storeSample v s))
      ⟨⟨decorrelateCache (Machine.storeSample v (withSound d s)), rfl⟩, hentropy⟩ ?_
    rw [length_timeStepBytes, length_timeStepBytes]
    rfl

theorem SameStream.decBody (h : SameStream s t) :
    RunsInStep SameStream (decBody (.unary 0) s) (decBody (.unary 0) t) := by
  have hgeometry : geometryOk t = geometryOk s := h.congr geometryOk fun _ _ => rfl
  have hch : t.ch = s.ch := h.congr State.ch fun _ _ => rfl
  unfold Machine.decBody
  rw [hgeometry, hch]
  split
  · dsimp only
    rw [decodeValue_eq_of_entropy (h.channelAt s.ch.toNat) 0 t]
    exact (inStep_of_alike (sameReader_sameStream.decodeValue h _ 0)).bind fun v _ _ h => h.afterValue v
  · exact .stuck _

/-! ### A frame -/

theorem SameStream.decLoop (h : SameStream s t) (n : Nat) (bound : Option Nat) :
    RunsInStep SameStream (decLoop n bound s) (decLoop n bound t) := by
  induction n generalizing bound s t with
  | zero => exact .wait _ _ h
  | succ n ih =>
    have hphase : t.phase = s.phase := h.congr State.phase fun _ _ => rfl
    unfold Machine.decLoop
    rw [hphase]
    split
    · exact .done () h
    · refine (h.decBody.mapWait _).bind fun _ u u' hu => ?_
      have hcount : countStep bound u' = countStep bound u := hu.congr (countStep bound) fun _ _ => rfl
      exact hcount ▸ ih hu _

theorem SameStream.decRun (h : SameStream s t) (bound : Option Nat) :
    RunsInStep SameStream (decRun bound s) (decRun bound t) := by
  unfold Machine.decRun
  rw [sameReader_sameStream.avail h]
  exact h.decLoop _ bound

theorem SameStream.readTrailer (h : SameStream s t) (sum : Word) (left : Nat) (got : List Byte) :
    RunsInStep SameStream (readTrailer sum left got s) (readTrailer sum left got t) := by
  induction left generalizing got s t with
  | zero => exact .done got h
  | succ left ih =>
    have hbyte := h.nextByte
    unfold Machine.readTrailer
    generalize Machine.nextByte s = x at hbyte ⊢
    generalize Machine.nextByte t = y at hbyte ⊢
    cases hbyte with
    | notYet => exact .wait _ _ h
    | failed hbyte => exact .failed hbyte
    | got b hbyte => exact ih hbyte _

/-- The checksum is that of the stream (41_checksum.md R132, R134(d)). -/
theorem SameStream.verifyRun (h : SameStream s t) : RunsInStep SameStream (verifyRun s) (verifyRun t) := by
  have hcrc : t.crc = s.crc := h.congr State.crc fun _ _ => rfl
  unfold Machine.verifyRun
  rw [hcrc]
  refine (h.readTrailer _ _ []).bind fun got _ _ hu => ?_
  obtain ⟨⟨d, rfl⟩, hentropy⟩ := hu
  exact .done () ⟨⟨d, rfl⟩, hentropy⟩

/-- DEC_FRAME answers, and again with the same stream (45_frame_sequencing.md R168). -/
theorem SameStream.exec_decFrame {s' : State} (h : SameStream s t) (hphase : s.phase = .decoding)
    (hs : exec .decFrame s = .next s') : ∃ t', exec .decFrame t = .next t' ∧ SameStream s' t' := by
  have hphase' : t.phase = s.phase := h.congr State.phase fun _ _ => rfl
  rw [FrameSequencing.exec_decFrame (.inl hphase)] at hs
  rw [FrameSequencing.exec_decFrame (.inl (hphase'.trans hphase))]
  refine RunsInStep.settle (((h.decRun none).mapWait loopJob).bind fun _ _ _ hu => hu.verifyRun) ?_ hs
  rintro j k _ _ ⟨⟨d, rfl⟩, hentropy⟩
  exact ⟨⟨{ d with inFlight := some k }, rfl⟩, hentropy⟩

end

/-- Settles O49: the two states have the same stream, and DEC_FRAME keeps them so. -/
theorem theChecksumCannotSeeTheFilter : Obligations.TheChecksumCannotSeeTheFilter := by
  intro a b a' hb hchan hphase hframe
  have hsame : SameStream a b := by
    refine ⟨⟨{ b with inFlight := a.inFlight }, hb⟩, fun c => ?_⟩
    obtain ⟨hk0, hk1, hsum0, hsum1⟩ := hchan c
    simp only [Channel.entropy, hk0, hk1, hsum0, hsum1]
  obtain ⟨b', hframe', ⟨d, rfl⟩, hentropy⟩ := hsame.exec_decFrame hphase hframe
  exact ⟨_, hframe', rfl, rfl, rfl, rfl, rfl, rfl, rfl, rfl, rfl, rfl, rfl, fun c =>
    ⟨congrArg EntropyState.k0 (hentropy c), congrArg EntropyState.k1 (hentropy c)⟩⟩

end Sys2Proof.Proofs.ResetAndHazards
